-- ==== Sys2Proof/Word.lean ====
section
/-! DEFINITION. The words of the block: their widths and nothing else. -/

namespace Sys2Proof

/-- One byte of the buffer (20_memory.md R30). -/
abbrev Byte := BitVec 8

/-- One word (segment) of buffer RAM, `WORD_BITS` = 64 (00_scope.md R5, R9). -/
abbrev Segment := BitVec 64

/-- An integer value of the codec or a binary32 pattern, `VALUE_BITS` = 32 (00_scope.md R5). -/
abbrev Value := BitVec 32

/-- A word index, `TOTALSEG` or `MAX_SEGMENTS`, held in 29 bits (10_state.md R12, R13). -/
abbrev SegIndex := BitVec 29

/-- A bit offset inside one word, held in 6 bits (10_state.md R13). -/
abbrev BitOffset := BitVec 6

/-- A command word: `op[63:56] aux[55:32] data[31:0]` (30_encoding.md R50). -/
abbrev CommandWord := BitVec 64

/-- A response word: `status[39:32] rdata[31:0]` (30_encoding.md R51). -/
abbrev ResponseWord := BitVec 40

end Sys2Proof
end

