-- ==== Sys2Proof/Config.lean ====
section
/-! DEFINITION. What an implementation of the block fixes, and the free values: every value that the spec leaves
unspecified is an opaque constant here, so that no proof can see which value it is. -/

namespace Sys2Proof

/-- The number of words of buffer RAM the reset state of the model has. The spec leaves `MAX_SEGMENTS` open between 1 and
2^28 (00_scope.md R5, 93_implementation_defined.md U10). DESIGN CHOICE, log entry 3, unsafe: statements quantify over the
State field instead of resting on this number. -/
def Config.maxSegmentsAtReset : SegIndex := 8#29

/-- The byte that address `a` of RAM holds after hardware reset number `k`, unspecified by 10_state.md R23 and free by
93_implementation_defined.md U1. Log entry 4, safe. -/
opaque Config.ramAtReset (k a : Nat) : Byte

/-- The factor that draw number `k` leaves after SETPREC with `places` from 10 to 15, unspecified by 43_quantizer.md R131 and
free by 93_implementation_defined.md U3. Log entry 5, safe. -/
opaque Config.freeFactor (k : Nat) : Value

/-- The integer that draw number `k` gives for a quantization the spec leaves UNSPECIFIED (43_quantizer.md R132,
93_implementation_defined.md U4). Log entry 6, safe. -/
opaque Config.freeQuantized (k : Nat) : Value

end Sys2Proof
end

