-- ==== Sys2Proof/Syntax.lean ====
section
/-! DEFINITION. The commands of the block: one constructor per row of spec/opcode_table.json, in the table's order, each with
the operands 30_encoding.md R52 gives it. -/

namespace Sys2Proof

/-- The twenty commands (30_encoding.md R52, R53). A length of WRBITS and RDBITS stands as the encoded `length - 1`, so that
every term has a length of 1 to 32, as in R52. -/
inductive Instr where
  /-- CREATE `cap` (40_buffer.md R70). -/
  | create (cap : Value)
  /-- SETBUF `len` (40_buffer.md R71). -/
  | setbuf (len : Value)
  /-- BUFRD `addr` (40_buffer.md R72). -/
  | bufrd (addr : Value)
  /-- BUFWR `addr, byte` (40_buffer.md R73). -/
  | bufwr (addr : Value) (byte : Byte)
  /-- BYTECNT (40_buffer.md R74). -/
  | bytecnt
  /-- RESET (40_buffer.md R75). -/
  | reset
  /-- RDSR `n` (40_buffer.md R76). -/
  | rdsr (n : BitVec 8)
  /-- WRBIT `bit` (41_bitcursor.md R99). -/
  | wrbit (bit : BitVec 1)
  /-- WRBITS `lenMinusOne + 1, bits` (41_bitcursor.md R100). -/
  | wrbits (lenMinusOne : BitVec 5) (bits : Value)
  /-- RDBIT (41_bitcursor.md R101). -/
  | rdbit
  /-- RDBITS `lenMinusOne + 1` (41_bitcursor.md R102). -/
  | rdbits (lenMinusOne : BitVec 5)
  /-- WRBOOL `b` (42_codec.md R115). -/
  | wrbool (b : BitVec 1)
  /-- WRU32 `v` (42_codec.md R116). -/
  | wru32 (v : Value)
  /-- WRI32 `v`, two's complement (42_codec.md R117). -/
  | wri32 (v : Value)
  /-- RDBOOL (42_codec.md R118). -/
  | rdbool
  /-- RDU32 (42_codec.md R119). -/
  | rdu32
  /-- RDI32 (42_codec.md R120). -/
  | rdi32
  /-- SETPREC `places` (43_quantizer.md R131). -/
  | setprec (places : BitVec 4)
  /-- WRF32 `f`, a binary32 pattern (43_quantizer.md R134). -/
  | wrf32 (f : Value)
  /-- RDF32 (43_quantizer.md R135). -/
  | rdf32
deriving DecidableEq, Repr

/-- The six status registers (10_state.md R17). -/
inductive StatusReg where
  /-- `SR_TOTALSEG`. -/
  | totalSeg
  /-- `SR_WSEG`. -/
  | wSeg
  /-- `SR_WOFF`. -/
  | wOff
  /-- `SR_RSEG`. -/
  | rSeg
  /-- `SR_ROFF`. -/
  | rOff
  /-- `SR_FACTOR`. -/
  | factor
deriving DecidableEq, Repr

end Sys2Proof
end

