-- ==== Sys2Proof/Machine/State.lean ====
section
/-! DEFINITION. The state of the block as plain data (10_state.md), what the host sends it and reads from it, and the state
after hardware reset. -/

namespace Sys2Proof.Machine

/-- Why the machine stops. It has no constructor: every error of the block is a status in the response, after which the block
takes the next command (60_exceptions.md R150), and no rule of the spec stops the block. Safe: log entry 10. -/
inductive Fault where
deriving DecidableEq, Repr

/-- Why a command has no meaning in the model. -/
inductive Refusal where
  /-- Raised only by an arm of `exec` whose instruction has no meaning yet; every instruction has one, so nobody raises it.
  Safe: a refused instruction proves nothing. -/
  | notModelled (mnemonic : String)
deriving DecidableEq, Repr

/-- The error statuses of a response (60_exceptions.md R151). -/
inductive ErrorKind where
  /-- `InvalidBuffer`, raised by CREATE and SETBUF (R152). -/
  | invalidBuffer
  /-- `BufferExhausted`, raised by every bit access (R153). -/
  | bufferExhausted
  /-- `PrecisionNotConfigured`, raised by WRF32 and RDF32 (R154). -/
  | precisionNotConfigured
  /-- `IllegalCommand`, raised by decode (R155). -/
  | illegalCommand
  /-- `BadAddress`, raised by BUFRD and BUFWR (R156). -/
  | badAddress
deriving DecidableEq, Repr

/-- What a command answers (30_encoding.md R51): `OK` with 32 bits of data, or an error, which carries no data. -/
inductive Response where
  /-- Status `OK` and `rdata`. -/
  | ok (rdata : Value)
  /-- An error status; "a model gives an error response no data" (R51). -/
  | error (e : ErrorKind)
deriving DecidableEq, Repr

/-- A cursor `(seg, off)`: a word index and a bit offset inside that word (10_state.md R13, R14). -/
structure Cursor where
  /-- The index of the word the next bit is in. -/
  seg : SegIndex
  /-- The offset of the next bit inside that word. -/
  off : BitOffset
deriving DecidableEq, Repr

/-- What the host does to the block, one event at a time (00_scope.md R6; 10_state.md R23). -/
inductive HostEvent where
  /-- The host issues a command word (30_encoding.md R50). -/
  | command (cw : CommandWord)
  /-- The host applies hardware reset (70_reset_and_hazards.md R170). -/
  | hardwareReset
deriving DecidableEq, Repr

/-- The bytes of buffer RAM that have been written since hardware reset, with strictly rising addresses; a byte that is not
listed has not been written and reads as the free value of that reset (log entry 4). -/
abbrev Memory := List Host.Cell

/-- The state of the block: the six elements of 10_state.md R10, then the model's own fields. -/
structure State where
  /-- Buffer RAM, by bytes (10_state.md R11, 20_memory.md R30 to R32). -/
  ram : Memory
  /-- `TOTALSEG`, the number of words of the current buffer (10_state.md R12). -/
  totalSeg : SegIndex
  /-- The write cursor `W` (10_state.md R13). -/
  w : Cursor
  /-- The read cursor `R` (10_state.md R14). -/
  r : Cursor
  /-- `FACTOR`, the quantization factor; 0 means not configured (10_state.md R16). -/
  factor : Value
  /-- The parameter `MAX_SEGMENTS` (00_scope.md R5); no step changes it. The model's own field, log entry 3. -/
  maxSegments : SegIndex
  /-- What the host will do, oldest first. The model's own field, log entry 1. -/
  inbox : List HostEvent
  /-- The response of the last command executed (30_encoding.md R51). The model's own field, log entry 2. -/
  response : Option Response
  /-- How many free values commands have drawn. The model's own field, log entry 5. -/
  draws : Nat
  /-- How many hardware resets have followed the first. The model's own field, log entry 7. -/
  resets : Nat
deriving DecidableEq, Repr

/-- The state after hardware reset (10_state.md R23, 70_reset_and_hazards.md R170): no buffer, both cursors at `(0,0)`, the
factor not configured, no byte of RAM known. The model's own fields: log entries 1, 2, 3, 5 and 7. -/
def State.reset : State where
  ram := []
  totalSeg := 0#29
  w := ⟨0#29, 0#6⟩
  r := ⟨0#29, 0#6⟩
  factor := 0#32
  maxSegments := Config.maxSegmentsAtReset
  inbox := []
  response := none
  draws := 0
  resets := 0

end Sys2Proof.Machine
end

