-- ==== Sys2Proof/Machine/Ops.lean ====
section
/-! DEFINITION. The named operations over RAM, cursors and responses: the primitives of 00_scope.md R8 and 20_memory.md R32,
`respond`, and `raise`, the one way a command ends with an error. -/

namespace Sys2Proof.Machine

/-! ## Memory as a list of listed bytes -/

/-- The byte listed at address `a`, if one is. -/
def Memory.lookup : Memory → Nat → Option Byte
  | [], _ => none
  | c :: m, a => if c.1 = a then some c.2 else Memory.lookup m a

/-- List byte `b` at address `a`, keeping the addresses strictly rising. -/
def Memory.store : Memory → Nat → Byte → Memory
  | [], a, b => [(a, b)]
  | c :: m, a, b =>
    if a < c.1 then (a, b) :: c :: m
    else if a = c.1 then (a, b) :: m
    else c :: Memory.store m a b

/-- The addresses listed in `m` are strictly rising and all at or above `lo`. -/
def Memory.risingFrom : Nat → Memory → Bool
  | _, [] => true
  | lo, c :: m => lo ≤ c.1 && Memory.risingFrom (c.1 + 1) m

/-- The canonical form of memory: addresses strictly rising. What an unlisted address reads as at this level is "not written",
which no entry can hold (log entry 4). -/
def Memory.wf (m : Memory) : Bool := Memory.risingFrom 0 m

/-- Every listed address is below `n`. -/
def Memory.below (n : Nat) (m : Memory) : Bool := m.all fun c => c.1 < n

/-- `MemWrite(addr, n, v)` (20_memory.md R32): the `n` bytes of `v`, the low byte at `addr`. -/
def Memory.write (m : Memory) (addr : Nat) : (n : Nat) → BitVec (8 * n) → Memory
  | 0, _ => m
  | n + 1, v => (Memory.write m (addr + 1) n (v.extractLsb' 8 (8 * n))).store addr (v.extractLsb' 0 8)

/-- Zero words `0 .. n-1` (CREATE's fill, 40_buffer.md R70). -/
def Memory.zeroWords : Nat → Memory → Memory
  | 0, m => m
  | n + 1, m => Memory.zeroWords n (m.write (8 * n) 8 0#64)

/-! ## Reading RAM -/

/-- The byte of RAM at address `a`: the byte listed there, else the free value of the last hardware reset (10_state.md R23). -/
def State.byteAt (s : State) (a : Nat) : Byte := (s.ram.lookup a).getD (Config.ramAtReset s.resets a)

/-- `MemRead(addr, n)` (20_memory.md R32): the `n` bytes from `addr` up, the byte at `addr` lowest. -/
def State.memRead (s : State) (addr : Nat) : (n : Nat) → BitVec (8 * n)
  | 0 => 0#0
  | n + 1 => State.memRead s (addr + 1) n ++ s.byteAt addr

/-- `WordRead(i)` (00_scope.md R8): `RAM[i]`, whose byte 0 is least significant (20_memory.md R30). -/
def State.wordRead (s : State) (i : Nat) : Segment := s.memRead (8 * i) 8

/-- Bit `p` of the stream (00_scope.md R9): bit `p mod 8` of byte `floor(p / 8)` (20_memory.md R33). -/
def State.streamBit (s : State) (p : Nat) : Bool := (s.byteAt (p / 8)).getLsbD (p % 8)

/-- The `n` stream bits from position `p` up, as a number whose bit `i` is stream bit `p + i` (20_memory.md R33). -/
def State.streamField (s : State) : (p n : Nat) → Nat
  | _, 0 => 0
  | p, n + 1 => (s.streamBit p).toNat + 2 * State.streamField s (p + 1) n

/-! ## Writing state -/

/-- `MemWrite(addr, n, v)` (20_memory.md R32). -/
def State.memWrite (s : State) (addr n : Nat) (v : BitVec (8 * n)) : State := { s with ram := s.ram.write addr n v }

/-- `WordWrite(i, v)` (00_scope.md R8): `RAM[i] <- v`. -/
def State.wordWrite (s : State) (i : Nat) (v : Segment) : State := s.memWrite (8 * i) 8 v

/-- Both cursors at `(0,0)` (40_buffer.md R70, R71, R75). -/
def State.rewind (s : State) : State := { s with w := ⟨0#29, 0#6⟩, r := ⟨0#29, 0#6⟩ }

/-- `respond(v)` (00_scope.md R8): the command ends with status `OK` and data `v`. -/
def State.respond (s : State) (v : Value) : State := { s with response := some (.ok v) }

/-- `raise E` (00_scope.md R8, 60_exceptions.md R150), the one operation by which a command ends with an error: the response
carries the error, every write already made stays, and nothing else happens (no handler, no saved state, no mode change). -/
def State.raise (s : State) (e : ErrorKind) : State := { s with response := some (.error e) }

/-! ## Cursors -/

/-- The stream position `64*seg + off` of a cursor (00_scope.md R9). -/
def Cursor.pos (c : Cursor) : Nat := 64 * c.seg.toNat + c.off.toNat

/-- The cursor `n` bits further in the same word. -/
def Cursor.skip (c : Cursor) (n : Nat) : Cursor := ⟨c.seg, c.off + BitVec.ofNat 6 n⟩

/-- The cursor at offset `n` of the next word. -/
def Cursor.nextWord (c : Cursor) (n : Nat) : Cursor := ⟨c.seg + 1#29, BitVec.ofNat 6 n⟩

/-- One past the last stream position of the current buffer, `64*TOTALSEG` (41_bitcursor.md R97). -/
def State.endPos (s : State) : Nat := 64 * s.totalSeg.toNat

/-! ## Commands that may stop part-way -/

/-- The outcome of a part of a command: it goes on with a value, or it raised an error; the state is the one it left, with
every write already made (00_scope.md R8). -/
inductive Result (α : Type) where
  /-- The part completed with value `v`. -/
  | done (s : State) (v : α)
  /-- The part raised `e`, which ends the whole command. -/
  | raised (s : State) (e : ErrorKind)
deriving DecidableEq, Repr

/-- Go on with the next part of the command; a raised error ends the command, not only the part (00_scope.md R8). -/
def Result.andThen {α β : Type} : Result α → (State → α → Result β) → Result β
  | .done s v, f => f s v
  | .raised s e, _ => .raised s e

/-- The end of a command: its value is the response data, or its error is raised. -/
def Result.finish : Result Value → Host.Outcome State Fault Refusal
  | .done s v => .next (s.respond v)
  | .raised s e => .next (s.raise e)

/-- The end of a command that answers no data, `respond()`, which is `respond(0)` (00_scope.md R8). -/
def Result.finishUnit : Result Unit → Host.Outcome State Fault Refusal
  | .done s _ => .next (s.respond 0#32)
  | .raised s e => .next (s.raise e)

/-! ## The response word -/

/-- The numeric status codes (60_exceptions.md R151). -/
def ErrorKind.code : ErrorKind → BitVec 8
  | .invalidBuffer => 1#8
  | .bufferExhausted => 2#8
  | .precisionNotConfigured => 3#8
  | .illegalCommand => 4#8
  | .badAddress => 5#8

/-- `rw[39:32]`: 0 for `OK`, else the error's code (30_encoding.md R51). -/
def Response.status : Response → BitVec 8
  | .ok _ => 0#8
  | .error e => e.code

/-- The 40-bit response word (30_encoding.md R51). On an error `rdata` carries no meaning, and the word takes it as an argument
that nothing constrains (93_implementation_defined.md U5). -/
def Response.word (unspecified : Value) : Response → ResponseWord
  | .ok v => 0#8 ++ v
  | .error e => e.code ++ unspecified

end Sys2Proof.Machine
end

