-- ==== Sys2Proof/Machine/Flags.lean ====
section
/-! DEFINITION. The block stores no flag and no condition code (10_state.md R20). Two conditions are derivable from state and
are named here: a cursor is exhausted (R15, R20), and the factor is configured (R16). -/

namespace Sys2Proof.Machine

/-- The entry guard's test, `c.seg ≥ TOTALSEG` (41_bitcursor.md R90): the cursor addresses no word. -/
abbrev Cursor.exhausted (c : Cursor) (total : SegIndex) : Prop := total ≤ c.seg

/-- `FACTOR = 0` means not configured (10_state.md R16, 60_exceptions.md R154). -/
abbrev State.factorUnset (s : State) : Prop := s.factor = 0#32

end Sys2Proof.Machine
end

