-- ==== Sys2Proof/Machine/Operands.lean ====
section
/-! DEFINITION. How commands read their operands (30_encoding.md R52), the bit-field formulas of 41_bitcursor.md R91, and the
status registers (10_state.md R17). -/

namespace Sys2Proof.Machine

/-- `(1 << n) - 1` at 64 bits (41_bitcursor.md R91). -/
def fieldMask (n : Nat) : Segment := (1#64 <<< n) - 1#64

/-- `Insert(word, off, n, v)` (41_bitcursor.md R91): bits `off+n-1 .. off` of the word become `v[n-1:0]`, the rest stay. -/
def insertField (word : Segment) (off n : Nat) (v : Value) : Segment :=
  (word &&& ~~~(fieldMask n <<< off)) ||| ((v.setWidth 64 &&& fieldMask n) <<< off)

/-- `Extract(word, off, n)` (41_bitcursor.md R91): bits `off+n-1 .. off` of the word, zero-extended; used with `n ≤ 32`. -/
def extractField (word : Segment) (off n : Nat) : Value := ((word >>> off) &&& fieldMask n).setWidth 32

/-- The length that WRBITS and RDBITS encode as `length - 1` (30_encoding.md R52). -/
def fieldLength (lenMinusOne : BitVec 5) : Nat := lenMinusOne.toNat + 1

/-- The words a byte capacity needs, rounded up, computed on integers (40_buffer.md R70). -/
def segmentsFor (cap : Value) : Nat := cap.toNat / 8 + (if cap.toNat % 8 ≠ 0 then 1 else 0)

/-- The byte address lies in the current buffer (20_memory.md R38). -/
abbrev State.inBuffer (s : State) (addr : Value) : Prop := addr.toNat < 8 * s.totalSeg.toNat

/-- The status register that a register number names (10_state.md R17); 6 to 255 name none. -/
def statusReg (n : BitVec 8) : Option StatusReg :=
  match n.toNat with
  | 0 => some .totalSeg
  | 1 => some .wSeg
  | 2 => some .wOff
  | 3 => some .rSeg
  | 4 => some .rOff
  | 5 => some .factor
  | _ => none

/-- The number of a status register (10_state.md R17). -/
def statusNumber : StatusReg → BitVec 8
  | .totalSeg => 0#8
  | .wSeg => 1#8
  | .wOff => 2#8
  | .rSeg => 3#8
  | .rOff => 4#8
  | .factor => 5#8

/-- The 32-bit view of state that a status register gives (10_state.md R17, 40_buffer.md R76). -/
def State.readStatus (s : State) : StatusReg → Value
  | .totalSeg => s.totalSeg.setWidth 32
  | .wSeg => s.w.seg.setWidth 32
  | .wOff => s.w.off.setWidth 32
  | .rSeg => s.r.seg.setWidth 32
  | .rOff => s.r.off.setWidth 32
  | .factor => s.factor

end Sys2Proof.Machine
end

