-- ==== Sys2Proof/Machine/Primitives.lean ====
section
/-! DEFINITION. The four cursor primitives `writeBit`, `writeBits`, `readBit`, `readBits` (41_bitcursor.md R90 to R95). -/

namespace Sys2Proof.Machine

/-- The write cursor arrives at the start of the next word; arriving at index `TOTALSEG` raises `BufferExhausted`
(41_bitcursor.md R92, R93). -/
def State.arriveW (s : State) : Result Unit :=
  let s' := { s with w := s.w.nextWord 0 }
  if s'.w.seg = s.totalSeg then .raised s' .bufferExhausted else .done s' ()

/-- The read cursor arrives at the start of the next word; arriving at index `TOTALSEG` raises `BufferExhausted`
(41_bitcursor.md R94, R95). -/
def State.arriveR (s : State) : Result Unit :=
  let s' := { s with r := s.r.nextWord 0 }
  if s'.r.seg = s.totalSeg then .raised s' .bufferExhausted else .done s' ()

/-- The masked update of the write cursor's word: bits `off .. off+n-1` become the low `n` bits of `v` (41_bitcursor.md R91). -/
def State.putField (s : State) (off n : Nat) (v : Value) : State :=
  s.wordWrite s.w.seg.toNat (insertField (s.wordRead s.w.seg.toNat) off n v)

/-- Bits `off .. off+n-1` of the read cursor's word (41_bitcursor.md R91). -/
def State.getField (s : State) (off n : Nat) : Value := extractField (s.wordRead s.r.seg.toNat) off n

/-- `writeBit(bit)` (41_bitcursor.md R92). -/
def State.writeBit (s : State) (bit : BitVec 1) : Result Unit :=
  if s.w.exhausted s.totalSeg then .raised s .bufferExhausted
  else
    let s1 := s.putField s.w.off.toNat 1 (bit.setWidth 32)
    if s.w.off.toNat < 63 then .done { s1 with w := s.w.skip 1 } () else s1.arriveW

/-- `writeBits(bits, length)`, for `1 ≤ length ≤ 32` (41_bitcursor.md R93): fits, exact fill, or straddle. -/
def State.writeBits (s : State) (bits : Value) (length : Nat) : Result Unit :=
  if s.w.exhausted s.totalSeg then .raised s .bufferExhausted
  else
    let room := 64 - s.w.off.toNat
    if length ≤ room then
      let s1 := s.putField s.w.off.toNat length bits
      if length < room then .done { s1 with w := s.w.skip length } () else s1.arriveW
    else
      (s.putField s.w.off.toNat room bits).arriveW.andThen fun s2 _ =>
        let s3 := s2.putField 0 (length - room) (bits >>> room)
        .done { s3 with w := s2.w.skip (length - room) } ()

/-- `readBit()` (41_bitcursor.md R94). -/
def State.readBit (s : State) : Result (BitVec 1) :=
  if s.r.exhausted s.totalSeg then .raised s .bufferExhausted
  else
    let b := (s.getField s.r.off.toNat 1).setWidth 1
    if s.r.off.toNat < 63 then .done { s with r := s.r.skip 1 } b else s.arriveR.andThen fun s1 _ => .done s1 b

/-- `readBits(length)`, for `1 ≤ length ≤ 32`, zero-extended (41_bitcursor.md R95): fits, exact fill, or straddle. -/
def State.readBits (s : State) (length : Nat) : Result Value :=
  if s.r.exhausted s.totalSeg then .raised s .bufferExhausted
  else
    let room := 64 - s.r.off.toNat
    if length ≤ room then
      let v := s.getField s.r.off.toNat length
      if length < room then .done { s with r := s.r.skip length } v else s.arriveR.andThen fun s1 _ => .done s1 v
    else
      let lo := s.getField s.r.off.toNat room
      s.arriveR.andThen fun s1 _ =>
        let hi := s1.getField 0 (length - room)
        .done { s1 with r := s1.r.skip (length - room) } ((hi <<< room) ||| lo)

end Sys2Proof.Machine
end

