-- ==== Sys2Proof/Machine/BitCursor.lean ====
section
/-! DEFINITION. The raw bit commands: WRBIT, WRBITS, RDBIT, RDBITS (41_bitcursor.md R99 to R102). -/

namespace Sys2Proof.Machine

/-- WRBIT (41_bitcursor.md R99). -/
def execWrbit (bit : BitVec 1) (s : State) : Host.Outcome State Fault Refusal := (s.writeBit bit).finishUnit

/-- WRBITS (41_bitcursor.md R100). -/
def execWrbits (lenMinusOne : BitVec 5) (bits : Value) (s : State) : Host.Outcome State Fault Refusal :=
  (s.writeBits bits (fieldLength lenMinusOne)).finishUnit

/-- RDBIT (41_bitcursor.md R101). -/
def execRdbit (s : State) : Host.Outcome State Fault Refusal :=
  (s.readBit.andThen fun s1 b => .done s1 (b.setWidth 32)).finish

/-- RDBITS (41_bitcursor.md R102). -/
def execRdbits (lenMinusOne : BitVec 5) (s : State) : Host.Outcome State Fault Refusal :=
  (s.readBits (fieldLength lenMinusOne)).finish

end Sys2Proof.Machine
end

