-- ==== Sys2Proof/Machine/Buffer.lean ====
section
/-! DEFINITION. The buffer and configuration commands: CREATE, SETBUF, BUFRD, BUFWR, BYTECNT, RESET, RDSR (40_buffer.md). -/

namespace Sys2Proof.Machine

/-- CREATE (40_buffer.md R70): a zero-filled buffer of at least `cap` bytes, both cursors at `(0,0)`. -/
def execCreate (cap : Value) (s : State) : Host.Outcome State Fault Refusal :=
  let segs := segmentsFor cap
  if segs = 0 ∨ segs > s.maxSegments.toNat then .next (s.raise .invalidBuffer)
  else
    let s1 := { s with totalSeg := BitVec.ofNat 29 segs, ram := s.ram.zeroWords segs }
    .next (s1.rewind.respond 0#32)

/-- SETBUF (40_buffer.md R71): the first `len` bytes of RAM, as they stand, are the buffer; both cursors at `(0,0)`. -/
def execSetbuf (len : Value) (s : State) : Host.Outcome State Fault Refusal :=
  if len.toNat = 0 ∨ len.toNat % 8 ≠ 0 then .next (s.raise .invalidBuffer)
  else if len.toNat / 8 > s.maxSegments.toNat then .next (s.raise .invalidBuffer)
  else
    let s1 := { s with totalSeg := BitVec.ofNat 29 (len.toNat / 8) }
    .next (s1.rewind.respond 0#32)

/-- BUFRD (40_buffer.md R72): one byte of the buffer. -/
def execBufrd (addr : Value) (s : State) : Host.Outcome State Fault Refusal :=
  if s.inBuffer addr then .next (s.respond ((s.memRead addr.toNat 1).setWidth 32)) else .next (s.raise .badAddress)

/-- BUFWR (40_buffer.md R73): write one byte of the buffer. -/
def execBufwr (addr : Value) (byte : Byte) (s : State) : Host.Outcome State Fault Refusal :=
  if s.inBuffer addr then .next ((s.memWrite addr.toNat 1 byte).respond 0#32) else .next (s.raise .badAddress)

/-- The source's estimate of bytes used by a write cursor, `8*seg + floor(off/8) + 1` (40_buffer.md R74). -/
def byteCount (c : Cursor) : Nat := 8 * c.seg.toNat + c.off.toNat / 8 + 1

/-- BYTECNT (40_buffer.md R74). -/
def execBytecnt (s : State) : Host.Outcome State Fault Refusal := .next (s.respond (BitVec.ofNat 32 (byteCount s.w)))

/-- RESET (40_buffer.md R75): both cursors at `(0,0)`, nothing else. -/
def execReset (s : State) : Host.Outcome State Fault Refusal := .next (s.rewind.respond 0#32)

/-- RDSR (40_buffer.md R76). A register number above 5, which no legal command word carries, is `IllegalCommand`
(10_state.md R17; log entry 9). -/
def execRdsr (n : BitVec 8) (s : State) : Host.Outcome State Fault Refusal :=
  match statusReg n with
  | some sr => .next (s.respond (s.readStatus sr))
  | none => .next (s.raise .illegalCommand)

end Sys2Proof.Machine
end

