-- ==== Sys2Proof/Machine/Codec.lean ====
section
/-! DEFINITION. The variable-length codec: its functions (42_codec.md R110 to R114) and its commands WRBOOL, WRU32, WRI32,
RDBOOL, RDU32, RDI32 (R115 to R120). -/

namespace Sys2Proof.Machine

/-- The number of zero bits above the highest set bit among the low `n` bits of `v`. -/
def leadingZeros (v : Value) : Nat → Nat
  | 0 => 0
  | n + 1 => if v.getLsbD n then 0 else leadingZeros v n + 1

/-- `clz32(v)` (00_scope.md R7); `clz32(0) = 32`. -/
def clz32 (v : Value) : Nat := leadingZeros v 32

/-- `bitLength(v) = 32 - clz32(v)` (42_codec.md R110). -/
def bitLength (v : Value) : Nat := 32 - clz32 v

/-- `zz(v) = (v << 1) ^ (v >>s 31)` (42_codec.md R113). -/
def zigzag (v : Value) : Value := (v <<< 1) ^^^ v.sshiftRight 31

/-- `unzz(u) = (u >>u 1) ^ (-(u & 1))` (42_codec.md R114). -/
def unzigzag (u : Value) : Value := (u >>> 1) ^^^ (-(u &&& 1#32))

/-- `encodeU32(v)` (42_codec.md R111): the flag, the 5-bit length minus one, the payload. -/
def State.encodeU32 (s : State) (v : Value) : Result Unit :=
  let n := bitLength v
  if n = 0 then s.writeBit 0#1
  else
    (s.writeBit 1#1).andThen fun s1 _ =>
      (s1.writeBits (BitVec.ofNat 32 (n - 1)) 5).andThen fun s2 _ => s2.writeBits v n

/-- `decodeU32()` (42_codec.md R112); no check of canonical form (30_encoding.md R63). -/
def State.decodeU32 (s : State) : Result Value :=
  s.readBit.andThen fun s1 flag =>
    if flag = 0#1 then .done s1 0#32
    else (s1.readBits 5).andThen fun s2 lenMinusOne => s2.readBits (lenMinusOne.toNat + 1)

/-- WRBOOL (42_codec.md R115). -/
def execWrbool (b : BitVec 1) (s : State) : Host.Outcome State Fault Refusal := (s.writeBit b).finishUnit

/-- WRU32 (42_codec.md R116). -/
def execWru32 (v : Value) (s : State) : Host.Outcome State Fault Refusal := (s.encodeU32 v).finishUnit

/-- WRI32 (42_codec.md R117). -/
def execWri32 (v : Value) (s : State) : Host.Outcome State Fault Refusal := (s.encodeU32 (zigzag v)).finishUnit

/-- RDBOOL (42_codec.md R118). -/
def execRdbool (s : State) : Host.Outcome State Fault Refusal :=
  (s.readBit.andThen fun s1 b => .done s1 (b.setWidth 32)).finish

/-- RDU32 (42_codec.md R119). -/
def execRdu32 (s : State) : Host.Outcome State Fault Refusal := s.decodeU32.finish

/-- RDI32 (42_codec.md R120). -/
def execRdi32 (s : State) : Host.Outcome State Fault Refusal :=
  (s.decodeU32.andThen fun s1 u => .done s1 (unzigzag u)).finish

end Sys2Proof.Machine
end

