-- ==== Sys2Proof/Machine/Binary32.lean ====
section
/-! DEFINITION. IEEE 754 binary32 patterns (43_quantizer.md R130), and rounding an exact quotient to the nearest of them. -/

namespace Sys2Proof.Machine

/-- Bit 31, the sign (43_quantizer.md R130). -/
def floatSign (f : Value) : Bool := f.getLsbD 31

/-- Bits 30..23, the biased exponent (43_quantizer.md R130). -/
def floatExponent (f : Value) : Nat := (f.extractLsb' 23 8).toNat

/-- Bits 22..0, the fraction (43_quantizer.md R130). -/
def floatFraction (f : Value) : Nat := (f.extractLsb' 0 23).toNat

/-- The pattern is an infinity or a not-a-number (43_quantizer.md R130). -/
abbrev floatSpecial (f : Value) : Prop := floatExponent f = 255

/-- The integer significand `k` of a finite pattern, whose value is `±k * 2^(floatScale f - 150)` (43_quantizer.md R130). -/
def floatSignificand (f : Value) : Nat :=
  if floatExponent f = 0 then floatFraction f else 2 ^ 23 + floatFraction f

/-- The biased exponent a finite pattern scales by: a zero or subnormal scales as exponent 1 (43_quantizer.md R130). -/
def floatScale (f : Value) : Nat := max (floatExponent f) 1

/-- The exact real value of a finite pattern (43_quantizer.md R130); used on patterns that are not special. -/
def floatValue (f : Value) : Rat :=
  (if floatSign f then -1 else 1) * (floatSignificand f : Rat) * (2 : Rat) ^ ((floatScale f : Int) - 150)

/-- `n / d` rounded to the nearest integer, ties to the even one. -/
def roundHalfEven (n d : Nat) : Nat :=
  let k := n / d
  let rest := n % d
  if 2 * rest > d ∨ (2 * rest = d ∧ k % 2 = 1) then k + 1 else k

/-- The greatest `e` with `2^e ≤ n / d`, for positive `n` and `d`. -/
def quotientExponent (n d : Nat) : Int :=
  let e : Int := (Nat.log2 n : Int) - (Nat.log2 d : Int)
  if n * 2 ^ (-e).toNat < d * 2 ^ e.toNat then e - 1 else e

/-- The binary32 magnitude (a pattern with sign 0) nearest to `n / d`, ties to an even fraction (43_quantizer.md R133). For the
quotients of R133 the result is a normal number. Only an assembler literal can lie outside the normal range: below it the
nearest pattern is a subnormal or zero (30_encoding.md R57), above it the model gives infinity (PRESUMED, log entry 16). -/
def roundMagnitude (n d : Nat) : Nat :=
  if n = 0 then 0
  else
    let e := max (quotientExponent n d) (-126)
    let t := 23 - e
    let k := roundHalfEven (n * 2 ^ t.toNat) (d * 2 ^ (-t).toNat)
    min ((e + 126).toNat * 2 ^ 23 + k) (255 * 2 ^ 23)

/-- The binary32 pattern nearest to `±n / d` (43_quantizer.md R133). -/
def roundFloat (negative : Bool) (n d : Nat) : Value :=
  BitVec.ofNat 32 ((if negative then 2 ^ 31 else 0) + roundMagnitude n d)

/-- `trunc(y)`, the integer with the sign of `y` and magnitude `floor(|y|)` (43_quantizer.md R132). -/
def truncRat (y : Rat) : Int := if 0 ≤ y then y.floor else -(-y).floor

end Sys2Proof.Machine
end

