-- ==== Sys2Proof/Machine/Quantizer.lean ====
section
/-! DEFINITION. The quantizer: `Quantize` and `Dequantize` (43_quantizer.md R132, R133) and its commands SETPREC, WRF32, RDF32
(R131, R134, R135). -/

namespace Sys2Proof.Machine

/-- The magnitude of the exact product of a finite float and the factor, truncated: `floor(|x * F|)` (43_quantizer.md R132). -/
def productMagnitude (f : Value) (factor : Nat) : Nat :=
  let k := floatSignificand f * factor
  if 150 ≤ floatScale f then k * 2 ^ (floatScale f - 150) else k / 2 ^ (150 - floatScale f)

/-- `Quantize(f, F)` (43_quantizer.md R132): the exact product truncated toward zero, as 32-bit two's complement; `none` where
the spec says UNSPECIFIED (an infinity, a not-a-number, a result outside the signed 32-bit range). -/
def quantize (f factor : Value) : Option Value :=
  if floatSpecial f then none
  else
    let magnitude := productMagnitude f factor.toNat
    let t : Int := if floatSign f then -(magnitude : Int) else magnitude
    if t < -(2 ^ 31) ∨ t > 2 ^ 31 - 1 then none else some (BitVec.ofInt 32 t)

/-- `Dequantize(q, F)` (43_quantizer.md R133): the binary32 value nearest to the exact quotient, and `+0.0` for 0. -/
def dequantize (q factor : Value) : Value :=
  if q = 0#32 then 0#32 else roundFloat q.msb q.toInt.natAbs factor.toNat

/-- `10^places` by integer accumulation (43_quantizer.md R131). -/
def powerOfTen : Nat → Nat
  | 0 => 1
  | n + 1 => powerOfTen n * 10

/-- `PLACES_MAX`, the largest `places` with a defined factor (00_scope.md R5). -/
def placesMax : Nat := 9

/-- Draw the free factor of an overflowed SETPREC (43_quantizer.md R131; log entry 5). -/
def State.drawFactor (s : State) : State := { s with factor := Config.freeFactor s.draws, draws := s.draws + 1 }

/-- The integer a WRF32 writes, drawn free where `Quantize` is UNSPECIFIED (43_quantizer.md R132; log entry 6). -/
def State.quantized (s : State) (f : Value) : State × Value :=
  match quantize f s.factor with
  | some q => (s, q)
  | none => ({ s with draws := s.draws + 1 }, Config.freeQuantized s.draws)

/-- SETPREC (43_quantizer.md R131). -/
def execSetprec (places : BitVec 4) (s : State) : Host.Outcome State Fault Refusal :=
  if places.toNat ≤ placesMax then
    .next (State.respond { s with factor := BitVec.ofNat 32 (powerOfTen places.toNat) } 0#32)
  else .next (s.drawFactor.respond 0#32)

/-- WRF32 (43_quantizer.md R134). -/
def execWrf32 (f : Value) (s : State) : Host.Outcome State Fault Refusal :=
  if s.factorUnset then .next (s.raise .precisionNotConfigured)
  else ((s.quantized f).1.encodeU32 (zigzag (s.quantized f).2)).finishUnit

/-- RDF32 (43_quantizer.md R135). -/
def execRdf32 (s : State) : Host.Outcome State Fault Refusal :=
  if s.factorUnset then .next (s.raise .precisionNotConfigured)
  else (s.decodeU32.andThen fun s1 u => .done s1 (dequantize (unzigzag u) s.factor)).finish

end Sys2Proof.Machine
end

