-- ==== Sys2Proof/Machine/Dispatch.lean ====
section
/-! DEFINITION. One arm per command: its meaning. -/

namespace Sys2Proof.Machine

def exec (i : Instr) (s : State) : Host.Outcome State Fault Refusal :=
  match i with
  | .create cap => Sys2Proof.Machine.execCreate cap s
  | .setbuf len => Sys2Proof.Machine.execSetbuf len s
  | .bufrd addr => Sys2Proof.Machine.execBufrd addr s
  | .bufwr addr byte => Sys2Proof.Machine.execBufwr addr byte s
  | .bytecnt => Sys2Proof.Machine.execBytecnt s
  | .reset => Sys2Proof.Machine.execReset s
  | .rdsr n => Sys2Proof.Machine.execRdsr n s
  | .wrbit bit => Sys2Proof.Machine.execWrbit bit s
  | .wrbits lenMinusOne bits => Sys2Proof.Machine.execWrbits lenMinusOne bits s
  | .rdbit => Sys2Proof.Machine.execRdbit s
  | .rdbits lenMinusOne => Sys2Proof.Machine.execRdbits lenMinusOne s
  | .wrbool b => Sys2Proof.Machine.execWrbool b s
  | .wru32 v => Sys2Proof.Machine.execWru32 v s
  | .wri32 v => Sys2Proof.Machine.execWri32 v s
  | .rdbool => Sys2Proof.Machine.execRdbool s
  | .rdu32 => Sys2Proof.Machine.execRdu32 s
  | .rdi32 => Sys2Proof.Machine.execRdi32 s
  | .setprec places => Sys2Proof.Machine.execSetprec places s
  | .wrf32 f => Sys2Proof.Machine.execWrf32 f s
  | .rdf32 => Sys2Proof.Machine.execRdf32 s

end Sys2Proof.Machine
end

