-- ==== Sys2Proof/WellFormed.lean ====
section
/-! DEFINITION. Which commands a command word can carry. -/

namespace Sys2Proof

/-- A command is well formed when a legal command word carries it. The operand types hold all of 30_encoding.md R52's widths;
what remains is R54's bound on the register number of RDSR. -/
def Instr.wf : Instr → Bool
  | .rdsr n => n.toNat ≤ 5
  | .create _ | .setbuf _ | .bufrd _ | .bufwr _ _ | .bytecnt | .reset => true
  | .wrbit _ | .wrbits _ _ | .rdbit | .rdbits _ => true
  | .wrbool _ | .wru32 _ | .wri32 _ | .rdbool | .rdu32 | .rdi32 => true
  | .setprec _ | .wrf32 _ | .rdf32 => true

end Sys2Proof
end

