-- ==== Sys2Proof/Decode.lean ====
section
/-! DEFINITION. Decoding and encoding of command words (30_encoding.md R50 to R56), and the opcode table as rows. -/

namespace Sys2Proof

/-- Why a command word is illegal: the three tests of 30_encoding.md R54, in its order. Each is the one status
`IllegalCommand` to the host. -/
inductive DecodeError where
  /-- `op` is not one of the 20 legal values. -/
  | unknownOpcode
  /-- A bit that 30_encoding.md R52 marks mbz is 1. -/
  | reservedBitSet
  /-- RDSR with `n > 5`. -/
  | noSuchRegister
deriving DecidableEq, Repr

/-- `cw[63:56]` (30_encoding.md R50). -/
def opField (cw : CommandWord) : BitVec 8 := cw.extractLsb' 56 8

/-- `cw[55:32]` (30_encoding.md R50). -/
def auxField (cw : CommandWord) : BitVec 24 := cw.extractLsb' 32 24

/-- `cw[31:0]` (30_encoding.md R50). -/
def dataField (cw : CommandWord) : Value := cw.extractLsb' 0 32

/-- The instruction `i`, provided the must-be-zero test `mbz` holds (30_encoding.md R54). -/
def requireZero (mbz : Bool) (i : Instr) : Except DecodeError Instr :=
  if mbz then .ok i else .error .reservedBitSet

/-- RDSR's last test, `aux[7:0] ≤ 5` (30_encoding.md R54). -/
def requireRegister (n : BitVec 8) : Except DecodeError Instr :=
  if n.toNat ≤ 5 then .ok (.rdsr n) else .error .noSuchRegister

/-- 30_encoding.md R54: decode a command word, with the operands of R52; total, every other word rejected by name. -/
def decode (cw : CommandWord) : Except DecodeError Instr :=
  let aux := auxField cw
  let data := dataField cw
  match (opField cw).toNat with
  | 0x01 => requireZero (aux == 0#24) (.create data)
  | 0x02 => requireZero (aux == 0#24) (.setbuf data)
  | 0x03 => requireZero (aux == 0#24) (.bufrd data)
  | 0x04 => requireZero (aux.extractLsb' 8 16 == 0#16) (.bufwr data (aux.extractLsb' 0 8))
  | 0x05 => requireZero (aux == 0#24 && data == 0#32) .bytecnt
  | 0x06 => requireZero (aux == 0#24 && data == 0#32) .reset
  | 0x07 =>
    if aux.extractLsb' 8 16 == 0#16 && data == 0#32 then requireRegister (aux.extractLsb' 0 8) else .error .reservedBitSet
  | 0x10 => requireZero (aux == 0#24 && data.extractLsb' 1 31 == 0#31) (.wrbit (data.extractLsb' 0 1))
  | 0x11 => requireZero (aux.extractLsb' 5 19 == 0#19) (.wrbits (aux.extractLsb' 0 5) data)
  | 0x18 => requireZero (aux == 0#24 && data == 0#32) .rdbit
  | 0x19 => requireZero (aux.extractLsb' 5 19 == 0#19 && data == 0#32) (.rdbits (aux.extractLsb' 0 5))
  | 0x20 => requireZero (aux == 0#24 && data.extractLsb' 1 31 == 0#31) (.wrbool (data.extractLsb' 0 1))
  | 0x21 => requireZero (aux == 0#24) (.wru32 data)
  | 0x22 => requireZero (aux == 0#24) (.wri32 data)
  | 0x28 => requireZero (aux == 0#24 && data == 0#32) .rdbool
  | 0x29 => requireZero (aux == 0#24 && data == 0#32) .rdu32
  | 0x2A => requireZero (aux == 0#24 && data == 0#32) .rdi32
  | 0x30 => requireZero (aux.extractLsb' 4 20 == 0#20 && data == 0#32) (.setprec (aux.extractLsb' 0 4))
  | 0x31 => requireZero (aux == 0#24) (.wrf32 data)
  | 0x39 => requireZero (aux == 0#24 && data == 0#32) .rdf32
  | _ => .error .unknownOpcode

/-- The command word of an instruction (30_encoding.md R50, R52): the opcode, the small operand, the main operand. -/
def encode : Instr → CommandWord
  | .create cap => 0x01#8 ++ 0#24 ++ cap
  | .setbuf len => 0x02#8 ++ 0#24 ++ len
  | .bufrd addr => 0x03#8 ++ 0#24 ++ addr
  | .bufwr addr byte => 0x04#8 ++ (0#16 ++ byte) ++ addr
  | .bytecnt => 0x05#8 ++ 0#24 ++ 0#32
  | .reset => 0x06#8 ++ 0#24 ++ 0#32
  | .rdsr n => 0x07#8 ++ (0#16 ++ n) ++ 0#32
  | .wrbit bit => 0x10#8 ++ 0#24 ++ (0#31 ++ bit)
  | .wrbits lenMinusOne bits => 0x11#8 ++ (0#19 ++ lenMinusOne) ++ bits
  | .rdbit => 0x18#8 ++ 0#24 ++ 0#32
  | .rdbits lenMinusOne => 0x19#8 ++ (0#19 ++ lenMinusOne) ++ 0#32
  | .wrbool b => 0x20#8 ++ 0#24 ++ (0#31 ++ b)
  | .wru32 v => 0x21#8 ++ 0#24 ++ v
  | .wri32 v => 0x22#8 ++ 0#24 ++ v
  | .rdbool => 0x28#8 ++ 0#24 ++ 0#32
  | .rdu32 => 0x29#8 ++ 0#24 ++ 0#32
  | .rdi32 => 0x2A#8 ++ 0#24 ++ 0#32
  | .setprec places => 0x30#8 ++ (0#20 ++ places) ++ 0#32
  | .wrf32 f => 0x31#8 ++ 0#24 ++ f
  | .rdf32 => 0x39#8 ++ 0#24 ++ 0#32

/-- One row of spec/opcode_table.json. -/
structure OpcodeRow where
  /-- The row's mnemonic. -/
  mnemonic : String
  /-- The value of the bits the row fixes. -/
  bits : CommandWord
  /-- Which bits the row fixes. -/
  mask : CommandWord
deriving DecidableEq, Repr

/-- The command word agrees with the row on every bit the row fixes: `cw & mask = match` (30_encoding.md R53). -/
def OpcodeRow.selects (row : OpcodeRow) (cw : CommandWord) : Bool := cw &&& row.mask == row.bits

/-- The row that each command is an instance of, as spec/opcode_table.json writes it. -/
def Instr.row : Instr → OpcodeRow
  | .create _ => ⟨"CREATE", 0x0100000000000000#64, 0xFFFFFFFF00000000#64⟩
  | .setbuf _ => ⟨"SETBUF", 0x0200000000000000#64, 0xFFFFFFFF00000000#64⟩
  | .bufrd _ => ⟨"BUFRD", 0x0300000000000000#64, 0xFFFFFFFF00000000#64⟩
  | .bufwr _ _ => ⟨"BUFWR", 0x0400000000000000#64, 0xFFFFFF0000000000#64⟩
  | .bytecnt => ⟨"BYTECNT", 0x0500000000000000#64, 0xFFFFFFFFFFFFFFFF#64⟩
  | .reset => ⟨"RESET", 0x0600000000000000#64, 0xFFFFFFFFFFFFFFFF#64⟩
  | .rdsr _ => ⟨"RDSR", 0x0700000000000000#64, 0xFFFFFF00FFFFFFFF#64⟩
  | .wrbit _ => ⟨"WRBIT", 0x1000000000000000#64, 0xFFFFFFFFFFFFFFFE#64⟩
  | .wrbits _ _ => ⟨"WRBITS", 0x1100000000000000#64, 0xFFFFFFE000000000#64⟩
  | .rdbit => ⟨"RDBIT", 0x1800000000000000#64, 0xFFFFFFFFFFFFFFFF#64⟩
  | .rdbits _ => ⟨"RDBITS", 0x1900000000000000#64, 0xFFFFFFE0FFFFFFFF#64⟩
  | .wrbool _ => ⟨"WRBOOL", 0x2000000000000000#64, 0xFFFFFFFFFFFFFFFE#64⟩
  | .wru32 _ => ⟨"WRU32", 0x2100000000000000#64, 0xFFFFFFFF00000000#64⟩
  | .wri32 _ => ⟨"WRI32", 0x2200000000000000#64, 0xFFFFFFFF00000000#64⟩
  | .rdbool => ⟨"RDBOOL", 0x2800000000000000#64, 0xFFFFFFFFFFFFFFFF#64⟩
  | .rdu32 => ⟨"RDU32", 0x2900000000000000#64, 0xFFFFFFFFFFFFFFFF#64⟩
  | .rdi32 => ⟨"RDI32", 0x2A00000000000000#64, 0xFFFFFFFFFFFFFFFF#64⟩
  | .setprec _ => ⟨"SETPREC", 0x3000000000000000#64, 0xFFFFFFF0FFFFFFFF#64⟩
  | .wrf32 _ => ⟨"WRF32", 0x3100000000000000#64, 0xFFFFFFFF00000000#64⟩
  | .rdf32 => ⟨"RDF32", 0x3900000000000000#64, 0xFFFFFFFFFFFFFFFF#64⟩

/-- The rows of spec/opcode_table.json, in its order. -/
def opcodeTable : List OpcodeRow :=
  [Instr.create 0, .setbuf 0, .bufrd 0, .bufwr 0 0, .bytecnt, .reset, .rdsr 0, .wrbit 0, .wrbits 0 0, .rdbit, .rdbits 0,
    .wrbool 0, .wru32 0, .wri32 0, .rdbool, .rdu32, .rdi32, .setprec 0, .wrf32 0, .rdf32].map Instr.row

/-- A command word is legal when it selects a row of the table and, for RDSR, the row's constraint `n ≤ 5` holds
(30_encoding.md R53, opcode_table.json). -/
def legalWord (cw : CommandWord) : Bool :=
  opcodeTable.any fun row => row.selects cw && (row.mnemonic != "RDSR" || (auxField cw).toNat ≤ 5)

/-- The command word whose bits are `w`, of which the table gives the low `nbits`; the bits above them are 0. -/
def tableWord (nbits w : Nat) : CommandWord := BitVec.ofNat 64 (w % 2 ^ nbits)

/-- The instruction the decoder reads from a table word. Every command is 64 bits (30_encoding.md R50, R56), so a number of
bits above 64 is no command. -/
def decodeTableWord (nbits w : Nat) : Option Instr :=
  if nbits ≤ 64 then (decode (tableWord nbits w)).toOption else none

end Sys2Proof
end

