-- ==== Sys2Proof/Machine/Port.lean ====
section
/-! DEFINITION. The block's one command port (00_scope.md R2, R6): taking the host's next event, an illegal command word, and
hardware reset. -/

namespace Sys2Proof.Machine

/-- The host's next event and the state once it is taken from the port; none while the host is silent. -/
def State.nextEvent (s : State) : Option (HostEvent × State) :=
  match s.inbox with
  | [] => none
  | e :: rest => some (e, { s with inbox := rest })

/-- The host issues `cw` as its very next command. -/
def State.issue (s : State) (cw : CommandWord) : State := { s with inbox := .command cw :: s.inbox }

/-- An illegal command word (30_encoding.md R54, 60_exceptions.md R155): `IllegalCommand`, no state change. -/
def State.refuseWord (s : State) : State := s.raise .illegalCommand

/-- Hardware reset (10_state.md R23, 70_reset_and_hazards.md R170): no buffer, cursors `(0,0)`, factor 0, RAM unspecified anew,
no response. What belongs to the host or to the model stays: the parameter, the host's later events, the draw counter
(log entry 7). -/
def State.hardwareReset (s : State) : State where
  ram := []
  totalSeg := 0#29
  w := ⟨0#29, 0#6⟩
  r := ⟨0#29, 0#6⟩
  factor := 0#32
  maxSegments := s.maxSegments
  inbox := s.inbox
  response := none
  draws := s.draws
  resets := s.resets + 1

end Sys2Proof.Machine
end

