-- ==== Sys2Proof/Machine/Step.lean ====
section
/-! DEFINITION. One step of the block: take the host's next event and complete it (00_scope.md R6). -/

namespace Sys2Proof.Machine

/-- One step: a legal command is executed, an illegal one is refused with `IllegalCommand`, hardware reset is applied, and while
the host is silent nothing happens (00_scope.md R6; log entry 1). -/
def step (s : State) : Host.Outcome State Fault Refusal :=
  match s.nextEvent with
  | none => .next s
  | some (.hardwareReset, s1) => .next s1.hardwareReset
  | some (.command cw, s1) =>
    match decode cw with
    | .ok i => exec i s1
    | .error _ => .next s1.refuseWord

/-- `s` with the table word `w` issued as the very next command. -/
def State.withFetchWord (s : State) (nbits w : Nat) : State := s.issue (tableWord nbits w)

end Sys2Proof.Machine
end

