-- ==== Sys2Proof/Machine/Assembler.lean ====
section
/-! DEFINITION. The assembler lines of 30_encoding.md R57 and the pseudo-instructions of R58, as abstract syntax: a line's
operands are numbers, its ranges are checked, and it expands to commands. The spelling of a line is left out (log entry 17). -/

namespace Sys2Proof.Machine

/-- The operand of a WRF32 line (30_encoding.md R57). -/
inductive FloatLiteral where
  /-- A decimal literal `±digits / 10^places`. -/
  | decimal (negative : Bool) (digits places : Nat)
  /-- `0x` and 8 hexadecimal digits giving the bit pattern. -/
  | pattern (bits : Nat)
deriving DecidableEq, Repr

/-- One line (30_encoding.md R57, R58), operands in the order the syntax writes them. -/
inductive AsmLine where
  | create (cap : Nat)
  | setbuf (len : Nat)
  | bufrd (addr : Nat)
  | bufwr (addr byte : Nat)
  | bytecnt
  | reset
  | rdsr (n : Nat)
  | rdsrNamed (name : StatusReg)
  | wrbit (bit : Nat)
  | wrbits (length bits : Nat)
  | rdbit
  | rdbits (length : Nat)
  | wrbool (b : Nat)
  | wru32 (v : Nat)
  | wri32 (v : Int)
  | rdbool
  | rdu32
  | rdi32
  | setprec (places : Nat)
  | wrf32 (f : FloatLiteral)
  | rdf32
  | loadbuf (bytes : List Nat)
  | dumpbuf (n : Nat)
deriving DecidableEq, Repr

/-- A number that must lie in `0 .. 2^w - 1`. -/
def operand (w n : Nat) : Option (BitVec w) := if n < 2 ^ w then some (BitVec.ofNat w n) else none

/-- A length in 1 .. 32, encoded as `length - 1` (30_encoding.md R57). -/
def lengthOperand (n : Nat) : Option (BitVec 5) := if 1 ≤ n ∧ n ≤ 32 then some (BitVec.ofNat 5 (n - 1)) else none

/-- A signed operand in -2^31 .. 2^31-1, encoded in two's complement (30_encoding.md R57). -/
def signedOperand (v : Int) : Option Value := if -(2 ^ 31) ≤ v ∧ v ≤ 2 ^ 31 - 1 then some (BitVec.ofInt 32 v) else none

/-- A float operand: the binary32 value nearest to a decimal, ties to even, or a bit pattern (30_encoding.md R57). -/
def floatOperand : FloatLiteral → Option Value
  | .decimal negative digits places => some (roundFloat negative digits (10 ^ places))
  | .pattern bits => operand 32 bits

/-- `BUFWR k, bk` for the bytes of LOADBUF from address `k` up (30_encoding.md R58). -/
def storeBytes : Nat → List Nat → Option (List Instr)
  | _, [] => some []
  | k, b :: bs => (operand 32 k).bind fun addr => (operand 8 b).bind fun byte =>
      (storeBytes (k + 1) bs).map fun rest => .bufwr addr byte :: rest

/-- The commands a line stands for (30_encoding.md R57, R58); `none` where an operand is out of range. -/
def assemble : AsmLine → Option (List Instr)
  | .create cap => (operand 32 cap).map fun v => [.create v]
  | .setbuf len => (operand 32 len).map fun v => [.setbuf v]
  | .bufrd addr => (operand 32 addr).map fun v => [.bufrd v]
  | .bufwr addr byte => (operand 32 addr).bind fun v => (operand 8 byte).map fun b => [.bufwr v b]
  | .bytecnt => some [.bytecnt]
  | .reset => some [.reset]
  | .rdsr n => if n ≤ 5 then some [.rdsr (BitVec.ofNat 8 n)] else none
  | .rdsrNamed name => some [.rdsr (statusNumber name)]
  | .wrbit bit => (operand 1 bit).map fun b => [.wrbit b]
  | .wrbits length bits => (lengthOperand length).bind fun n => (operand 32 bits).map fun v => [.wrbits n v]
  | .rdbit => some [.rdbit]
  | .rdbits length => (lengthOperand length).map fun n => [.rdbits n]
  | .wrbool b => (operand 1 b).map fun v => [.wrbool v]
  | .wru32 v => (operand 32 v).map fun u => [.wru32 u]
  | .wri32 v => (signedOperand v).map fun u => [.wri32 u]
  | .rdbool => some [.rdbool]
  | .rdu32 => some [.rdu32]
  | .rdi32 => some [.rdi32]
  | .setprec places => (operand 4 places).map fun p => [.setprec p]
  | .wrf32 f => (floatOperand f).map fun v => [.wrf32 v]
  | .rdf32 => some [.rdf32]
  | .loadbuf bytes => (operand 32 bytes.length).bind fun len => (storeBytes 0 bytes).map fun rest => .setbuf len :: rest
  | .dumpbuf n => if n ≤ 2 ^ 32 then some ((List.range n).map fun k => .bufrd (BitVec.ofNat 32 k)) else none

end Sys2Proof.Machine
end

