-- ==== Sys2Proof/Safety.lean ====
section
/-! DEFINITION. The terms that claims about the block are made in: the invariants the spec names, what a write or a read of bits
does to the stream, which commands are writers and readers, and runs of commands. -/

namespace Sys2Proof.Machine

/-! ## Invariants -/

/-- 10_state.md R15 (b) and (c): `seg ≤ TOTALSEG`, and an exhausted cursor has offset 0. Clause (a) is the type of `off`. -/
abbrev Cursor.inv (c : Cursor) (total : SegIndex) : Prop := c.seg ≤ total ∧ (c.seg = total → c.off = 0#6)

/-- What every rule of the spec preserves: the parameter in its range (00_scope.md R5), the buffer inside RAM (10_state.md R12),
both cursors well placed (R15), and RAM in canonical form inside `RAM[0 .. MAX_SEGMENTS-1]` (R11, log entry 4). -/
abbrev State.Inv (s : State) : Prop :=
  1 ≤ s.maxSegments.toNat ∧ s.maxSegments.toNat ≤ 2 ^ 28 ∧ s.totalSeg ≤ s.maxSegments ∧
  s.w.inv s.totalSeg ∧ s.r.inv s.totalSeg ∧ s.ram.wf = true ∧ s.ram.below (8 * s.maxSegments.toNat) = true

/-! ## What a write or a read of bits does -/

/-- `t` is `s` after the `n` bits `bits` were moved through the write cursor (41_bitcursor.md R97): stream bits from the
cursor's position up hold them as far as the buffer goes, no other bit of RAM changes, nothing but RAM and `W` changes, and
`W` is `n` further, or `(TOTALSEG, 0)` if that reaches the end. -/
def State.WroteBits (s t : State) (bits n : Nat) : Prop :=
  t = { s with ram := t.ram, w := t.w } ∧
  (∀ j, t.streamBit j =
    if s.w.pos ≤ j ∧ j < min (s.w.pos + n) s.endPos then bits.testBit (j - s.w.pos) else s.streamBit j) ∧
  (if s.w.pos + n < s.endPos then t.w.pos = s.w.pos + n else t.w = ⟨s.totalSeg, 0#6⟩)

/-- `t` is `s` after `n` bits were moved through the read cursor (41_bitcursor.md R97): nothing but `R` changes, and `R` is `n`
further, or `(TOTALSEG, 0)` if that reaches the end. -/
def State.PassedBits (s t : State) (n : Nat) : Prop :=
  t = { s with r := t.r } ∧
  (if s.r.pos + n < s.endPos then t.r.pos = s.r.pos + n else t.r = ⟨s.totalSeg, 0#6⟩)

/-! ## Items on the wire -/

/-- How many bits the item of `v` takes: 1 for zero, else `6 + len` (30_encoding.md R64). -/
def itemBits (v : Value) : Nat := if v = 0#32 then 1 else 6 + bitLength v

/-- The item of `v` as a number whose bit `i` is the item's bit `i` (30_encoding.md R61): flag, `len - 1` in five bits, payload. -/
def wireItem (v : Value) : Nat := if v = 0#32 then 0 else 1 + 2 * (bitLength v - 1) + 64 * v.toNat

/-- The payload length that a reader finds at position `p` of the stream (30_encoding.md R64). -/
def State.payloadBitsAt (s : State) (p : Nat) : Nat := s.streamField (p + 1) 5 + 1

/-- How many bits the item at position `p` takes (30_encoding.md R64). -/
def State.itemBitsAt (s : State) (p : Nat) : Nat := if s.streamBit p then 6 + s.payloadBitsAt p else 1

/-- The value of the item at position `p`, canonical or not (30_encoding.md R61, R63). -/
def State.itemAt (s : State) (p : Nat) : Value :=
  if s.streamBit p then BitVec.ofNat 32 (s.streamField (p + 6) (s.payloadBitsAt p)) else 0#32

/-! ## Kinds of commands -/

/-- The write-side commands (10_state.md R13). -/
def isWriter : Instr → Bool
  | .wrbit _ | .wrbits _ _ | .wrbool _ | .wru32 _ | .wri32 _ | .wrf32 _ => true
  | .create _ | .setbuf _ | .bufrd _ | .bufwr _ _ | .bytecnt | .reset | .rdsr _ | .setprec _ => false
  | .rdbit | .rdbits _ | .rdbool | .rdu32 | .rdi32 | .rdf32 => false

/-- The read-side commands (10_state.md R14). -/
def isReader : Instr → Bool
  | .rdbit | .rdbits _ | .rdbool | .rdu32 | .rdi32 | .rdf32 => true
  | .create _ | .setbuf _ | .bufrd _ | .bufwr _ _ | .bytecnt | .reset | .rdsr _ | .setprec _ => false
  | .wrbit _ | .wrbits _ _ | .wrbool _ | .wru32 _ | .wri32 _ | .wrf32 _ => false

/-- The commands that set the cursors to `(0,0)` (10_state.md R13). -/
def rewindsCursors : Instr → Bool
  | .create _ | .setbuf _ | .reset => true
  | .bufrd _ | .bufwr _ _ | .bytecnt | .rdsr _ | .setprec _ => false
  | .wrbit _ | .wrbits _ _ | .wrbool _ | .wru32 _ | .wri32 _ | .wrf32 _ => false
  | .rdbit | .rdbits _ | .rdbool | .rdu32 | .rdi32 | .rdf32 => false

/-- The errors a command that passed decode can raise (60_exceptions.md R151, the column "raised by"). -/
def raisable : Instr → List ErrorKind
  | .create _ | .setbuf _ => [.invalidBuffer]
  | .bufrd _ | .bufwr _ _ => [.badAddress]
  | .bytecnt | .reset | .rdsr _ | .setprec _ => []
  | .wrbit _ | .wrbits _ _ | .wrbool _ | .wru32 _ | .wri32 _ => [.bufferExhausted]
  | .rdbit | .rdbits _ | .rdbool | .rdu32 | .rdi32 => [.bufferExhausted]
  | .wrf32 _ | .rdf32 => [.precisionNotConfigured, .bufferExhausted]

/-- How many bits a write-side command moves through the write cursor (20_memory.md R35, 30_encoding.md R64); the other
commands move none. -/
def movedBits (s : State) : Instr → Nat
  | .wrbit _ | .wrbool _ => 1
  | .wrbits lenMinusOne _ => lenMinusOne.toNat + 1
  | .wru32 v => itemBits v
  | .wri32 v => itemBits (zigzag v)
  | .wrf32 f => itemBits (zigzag (s.quantized f).2)
  | .create _ | .setbuf _ | .bufrd _ | .bufwr _ _ | .bytecnt | .reset | .rdsr _ | .setprec _ => 0
  | .rdbit | .rdbits _ | .rdbool | .rdu32 | .rdi32 | .rdf32 => 0

/-! ## Assembled lines -/

/-- The command word with opcode `op`, small operand `aux` and main operand `data`, as a number (30_encoding.md R50). -/
def wordNumber (op aux data : Nat) : Nat := op * 2 ^ 56 + aux * 2 ^ 32 + data

/-- The line expands to well-formed commands, whose command words are `words` in order (30_encoding.md R57, R58). -/
def AssemblesTo (l : AsmLine) (words : List Nat) : Prop :=
  ∃ is, assemble l = some is ∧ (∀ i ∈ is, i.wf = true) ∧ is.map (fun i => (encode i).toNat) = words

/-! ## Runs of commands -/

/-- Execute commands in order and stop after the first that answers an error, as the host does with the expansion of LOADBUF
(30_encoding.md R58). -/
def execUntilError : List Instr → State → Host.Outcome State Fault Refusal
  | [], s => .next s
  | i :: is, s =>
    match exec i s with
    | .next t =>
      match t.response with
      | some (.ok _) => execUntilError is t
      | _ => .next t
    | o => o

/-- Execute one command that must answer `OK`: the data it answers and the state it leaves. -/
def execOk (i : Instr) (s : State) : Option (Value × State) :=
  match exec i s with
  | .next t =>
    match t.response with
    | some (.ok v) => some (v, t)
    | _ => none
  | _ => none

/-- Execute commands in order, each of which must answer `OK`: the data they answer, in order, and the last state. -/
def execAllOk : List Instr → State → Option (List Value × State)
  | [], s => some ([], s)
  | i :: is, s => (execOk i s).bind fun a => (execAllOk is a.2).map fun b => (a.1 :: b.1, b.2)

/-- A typed value the host writes to the stream and reads back (42_codec.md R122; raw fields, 41_bitcursor.md R98). -/
inductive Item where
  /-- A raw bit, WRBIT and RDBIT. -/
  | bit (b : BitVec 1)
  /-- A raw field, WRBITS and RDBITS. -/
  | field (lenMinusOne : BitVec 5) (bits : Value)
  /-- A boolean, WRBOOL and RDBOOL. -/
  | bool (b : BitVec 1)
  /-- An unsigned integer, WRU32 and RDU32. -/
  | u32 (v : Value)
  /-- A signed integer, WRI32 and RDI32. -/
  | i32 (v : Value)
deriving DecidableEq, Repr

/-- The command that writes an item. -/
def Item.writer : Item → Instr
  | .bit b => .wrbit b
  | .field n v => .wrbits n v
  | .bool b => .wrbool b
  | .u32 v => .wru32 v
  | .i32 v => .wri32 v

/-- The command that reads an item of the same kind. -/
def Item.reader : Item → Instr
  | .bit _ => .rdbit
  | .field n _ => .rdbits n
  | .bool _ => .rdbool
  | .u32 _ => .rdu32
  | .i32 _ => .rdi32

/-- The data the reader answers: the value written, a raw field truncated to its length (41_bitcursor.md R98). -/
def Item.data : Item → Value
  | .bit b => b.setWidth 32
  | .field n v => BitVec.ofNat 32 (v.toNat % 2 ^ fieldLength n)
  | .bool b => b.setWidth 32
  | .u32 v => v
  | .i32 v => v

end Sys2Proof.Machine
end

