-- ==== Sys2Proof/Certificates/Slice0/Obligations.lean ====
section
/-! DEFINITION. The statements for the provers. Each says which rule of spec/ it formalises; "derived" means that it follows from
the rules it names, "the model's choice" that it rests on a log entry. -/

open Sys2Proof Sys2Proof.Machine

/-! ## Encoding (30_encoding.md) -/

/-- R50, R52, R54: the word of a well-formed command decodes to that command, for every value of every operand. -/
def Obligations.DecodeInvertsEncode : Prop :=
  ∀ i : Instr, i.wf = true → decode (encode i) = .ok i

/-- R54: every accepted command word has exactly one meaning: it is the word of the command it decodes to. -/
def Obligations.EncodeInvertsDecode : Prop :=
  ∀ (cw : CommandWord) (i : Instr), decode cw = .ok i → i.wf = true ∧ encode i = cw

/-- R53: a word is accepted exactly when it selects a row of the opcode table and the row's constraint holds. -/
def Obligations.DecodeAcceptsExactlyTheTable : Prop :=
  ∀ cw : CommandWord, (∃ i, decode cw = .ok i) ↔ legalWord cw = true

/-- A few command words written out from R50 and R52, one or two of each family, with one of each kind of illegal word. -/
def Obligations.SampleWordsDecode : Prop :=
  decode 0x010000000000000C#64 = .ok (.create 12) ∧
  decode 0x040000AB00000009#64 = .ok (.bufwr 9 0xAB) ∧
  decode 0x0700000400000000#64 = .ok (.rdsr 4) ∧
  decode 0x1100001D2AAAAAAA#64 = .ok (.wrbits 29 0x2AAAAAAA) ∧
  decode 0x1900001F00000000#64 = .ok (.rdbits 31) ∧
  decode 0x22000000FFFFFFFE#64 = .ok (.wri32 0xFFFFFFFE) ∧
  decode 0x3000000200000000#64 = .ok (.setprec 2) ∧
  decode 0x3100000040490FD0#64 = .ok (.wrf32 0x40490FD0) ∧
  decode 0x0000000000000000#64 = .error .unknownOpcode ∧
  decode 0x1100002000000001#64 = .error .reservedBitSet ∧
  decode 0x0700000600000000#64 = .error .noSuchRegister

/-- R57, R58, R50, R52: each assembler line expands to the well-formed commands with the words R50 and R52 give, operands in the
order of R57, a length stored minus one, a signed value in two's complement; and is refused exactly when an operand is out of
range. LOADBUF expands to SETBUF and the BUFWR commands in ascending order, DUMPBUF to the BUFRD commands. The abstract syntax,
and the refusal of a DUMPBUF longer than the byte addresses, are the model's choice, log entry 17. A decimal float is
DecimalLiteralIsNearestFloat's. -/
def Obligations.AssembledLinesAreWellFormed : Prop :=
  (∀ n : Nat, if n < 2 ^ 32 then AssemblesTo (.create n) [wordNumber 0x01 0 n] else assemble (.create n) = none) ∧
  (∀ n : Nat, if n < 2 ^ 32 then AssemblesTo (.setbuf n) [wordNumber 0x02 0 n] else assemble (.setbuf n) = none) ∧
  (∀ a : Nat, if a < 2 ^ 32 then AssemblesTo (.bufrd a) [wordNumber 0x03 0 a] else assemble (.bufrd a) = none) ∧
  (∀ a b : Nat, if a < 2 ^ 32 ∧ b ≤ 255 then AssemblesTo (.bufwr a b) [wordNumber 0x04 b a] else assemble (.bufwr a b) = none) ∧
  AssemblesTo .bytecnt [wordNumber 0x05 0 0] ∧
  AssemblesTo .reset [wordNumber 0x06 0 0] ∧
  (∀ n : Nat, if n ≤ 5 then AssemblesTo (.rdsr n) [wordNumber 0x07 n 0] else assemble (.rdsr n) = none) ∧
  (∀ p ∈ [(StatusReg.totalSeg, 0), (.wSeg, 1), (.wOff, 2), (.rSeg, 3), (.rOff, 4), (.factor, 5)],
    AssemblesTo (.rdsrNamed p.1) [wordNumber 0x07 p.2 0]) ∧
  (∀ b : Nat, if b ≤ 1 then AssemblesTo (.wrbit b) [wordNumber 0x10 0 b] else assemble (.wrbit b) = none) ∧
  (∀ length bits : Nat, if 1 ≤ length ∧ length ≤ 32 ∧ bits < 2 ^ 32
    then AssemblesTo (.wrbits length bits) [wordNumber 0x11 (length - 1) bits] else assemble (.wrbits length bits) = none) ∧
  AssemblesTo .rdbit [wordNumber 0x18 0 0] ∧
  (∀ length : Nat, if 1 ≤ length ∧ length ≤ 32 then AssemblesTo (.rdbits length) [wordNumber 0x19 (length - 1) 0]
    else assemble (.rdbits length) = none) ∧
  (∀ b : Nat, if b ≤ 1 then AssemblesTo (.wrbool b) [wordNumber 0x20 0 b] else assemble (.wrbool b) = none) ∧
  (∀ v : Nat, if v < 2 ^ 32 then AssemblesTo (.wru32 v) [wordNumber 0x21 0 v] else assemble (.wru32 v) = none) ∧
  (∀ v : Int, if -(2 ^ 31) ≤ v ∧ v ≤ 2 ^ 31 - 1
    then AssemblesTo (.wri32 v) [wordNumber 0x22 0 (if 0 ≤ v then v else v + 2 ^ 32).toNat] else assemble (.wri32 v) = none) ∧
  AssemblesTo .rdbool [wordNumber 0x28 0 0] ∧
  AssemblesTo .rdu32 [wordNumber 0x29 0 0] ∧
  AssemblesTo .rdi32 [wordNumber 0x2A 0 0] ∧
  (∀ places : Nat, if places ≤ 15 then AssemblesTo (.setprec places) [wordNumber 0x30 places 0]
    else assemble (.setprec places) = none) ∧
  (∀ f : Nat, if f < 2 ^ 32 then AssemblesTo (.wrf32 (.pattern f)) [wordNumber 0x31 0 f]
    else assemble (.wrf32 (.pattern f)) = none) ∧
  (∀ (negative : Bool) (digits places : Nat), ∃ f : Value,
    AssemblesTo (.wrf32 (.decimal negative digits places)) [wordNumber 0x31 0 f.toNat]) ∧
  AssemblesTo .rdf32 [wordNumber 0x39 0 0] ∧
  (∀ bytes : List Nat, if bytes.length < 2 ^ 32 ∧ ∀ b ∈ bytes, b ≤ 255
    then AssemblesTo (.loadbuf bytes) (wordNumber 0x02 0 bytes.length :: bytes.mapIdx fun k b => wordNumber 0x04 b k)
    else assemble (.loadbuf bytes) = none) ∧
  (∀ n : Nat, if n ≤ 2 ^ 32 then AssemblesTo (.dumpbuf n) ((List.range n).map fun k => wordNumber 0x03 0 k)
    else assemble (.dumpbuf n) = none)

/-- R51, R151: `rw[39:32]` is 0 on `OK` and the error's code otherwise, `rw[31:0]` is the data on `OK`; and the codes are 1 to
5 in the order of R151, whatever an error puts in `rdata`. -/
def Obligations.ResponseWordHasStatusAndData : Prop :=
  (∀ unspecified v : Value, (Response.ok v).word unspecified = 0#8 ++ v) ∧
  (∀ (unspecified : Value) (e : ErrorKind), ((Response.error e).word unspecified).extractLsb' 32 8 = (Response.error e).status) ∧
  [Response.ok 0, .error .invalidBuffer, .error .bufferExhausted, .error .precisionNotConfigured, .error .illegalCommand,
    .error .badAddress].map Response.status = [0, 1, 2, 3, 4, 5]

/-! ## Steps, reset and invariants -/

/-- R6, R50: when the host's next event is a word that decodes to `i`, the step takes it from the port and is `exec i`; the same
for a word issued where the model fetches (log entry 1: the port is the model's). -/
def Obligations.StepRunsDecodedCommand : Prop :=
  ∀ (s : State) (cw : CommandWord) (i : Instr), decode cw = .ok i →
    (∀ rest, s.inbox = .command cw :: rest → step s = exec i { s with inbox := rest }) ∧
    step (s.withFetchWord 64 cw.toNat) = exec i s

/-- R155, R53: a word that selects no row is answered `IllegalCommand`, and nothing of the block's state changes. That only
the word leaves the port is the model's choice, log entry 1, and that the answer stands in `response`, log entry 2. -/
def Obligations.IllegalWordChangesNothing : Prop :=
  ∀ (s : State) (cw : CommandWord) (rest : List HostEvent), s.inbox = .command cw :: rest → legalWord cw = false →
    step s = .next { s with inbox := rest, response := some (.error .illegalCommand) }

/-- R6, "The block never acts without a command". That a step of a silent host is a step that changes nothing is the model's
choice, log entry 1. -/
def Obligations.SilentHostChangesNothing : Prop :=
  ∀ s : State, s.inbox = [] → step s = .next s

/-- R23, R170, R171: hardware reset clears `TOTALSEG`, both cursors and `FACTOR`, and every byte of RAM is the free value of
that reset. What the event leaves of the model's own fields is the model's choice, log entry 7. -/
def Obligations.HardwareResetClearsTheBlock : Prop :=
  ∀ (s : State) (rest : List HostEvent), s.inbox = .hardwareReset :: rest →
    ∃ t, step s = .next t ∧ t.totalSeg = 0 ∧ t.w = ⟨0, 0⟩ ∧ t.r = ⟨0, 0⟩ ∧ t.factor = 0 ∧
      (∀ a, t.byteAt a = Config.ramAtReset (s.resets + 1) a) ∧
      t.maxSegments = s.maxSegments ∧ t.inbox = rest ∧ t.response = none ∧ t.draws = s.draws

/-- R23: the values the spec gives the state after hardware reset. The free values of RAM are log entry 4. -/
def Obligations.ResetStateHoldsSpecValues : Prop :=
  State.reset.totalSeg = 0 ∧ State.reset.w = ⟨0, 0⟩ ∧ State.reset.r = ⟨0, 0⟩ ∧ State.reset.factor = 0 ∧
  ∀ a, State.reset.byteAt a = Config.ramAtReset 0 a

/-- R170: with no buffer and the factor not configured, every bit command raises `BufferExhausted`, BUFRD and BUFWR raise
`BadAddress`, WRF32 and RDF32 raise `PrecisionNotConfigured`, BYTECNT answers 1 and RDSR answers 0, and none changes anything
else. -/
def Obligations.NoBufferAnswers : Prop :=
  ∀ s : State, s.totalSeg = 0 → s.w = ⟨0, 0⟩ → s.r = ⟨0, 0⟩ → s.factor = 0 →
    (∀ i : Instr, isWriter i = true ∨ isReader i = true → .precisionNotConfigured ∉ raisable i →
      exec i s = .next (s.raise .bufferExhausted)) ∧
    (∀ addr : Value, exec (.bufrd addr) s = .next (s.raise .badAddress)) ∧
    (∀ (addr : Value) (byte : Byte), exec (.bufwr addr byte) s = .next (s.raise .badAddress)) ∧
    (∀ f : Value, exec (.wrf32 f) s = .next (s.raise .precisionNotConfigured)) ∧
    exec .rdf32 s = .next (s.raise .precisionNotConfigured) ∧
    exec .bytecnt s = .next (s.respond 1) ∧
    (∀ n : BitVec 8, n.toNat ≤ 5 → exec (.rdsr n) s = .next (s.respond 0))

/-- R182, R150: every command terminates with a response. That the model therefore never refuses and never faults is its reading,
log entry 10; that SETPREC 10 to 15 and an unspecified `Quantize` run with a free value where 93_implementation_defined.md U3 and
U4 also allow a refusal is its choice, log entries 5 and 6; so is the step of a silent host, log entry 1. -/
def Obligations.EveryStepAnswers : Prop :=
  ∀ s : State, ∃ t, step s = .next t

/-- R5, R11, R12, R15: every step keeps the invariant, from every state that has it. The canonical form of RAM in it is the
model's choice, log entry 4. -/
def Obligations.StepKeepsInvariant : Prop :=
  ∀ s t : State, s.Inv → step s = .next t → t.Inv

/-- The state after hardware reset has the invariant. Its `MAX_SEGMENTS` is the model's choice, log entry 3. -/
def Obligations.ResetMeetsInvariant : Prop := State.reset.Inv

/-- R15 (d), R13, R14: a command that does not set the cursors to `(0,0)` moves no cursor back. -/
def Obligations.CursorsNeverMoveBack : Prop :=
  ∀ (i : Instr) (s t : State), rewindsCursors i = false → exec i s = .next t → s.w.pos ≤ t.w.pos ∧ s.r.pos ≤ t.r.pos

/-- R14: no write-side command reads or writes the read cursor. -/
def Obligations.WritersIgnoreReadCursor : Prop :=
  ∀ (i : Instr) (s t : State) (c : Cursor), isWriter i = true → exec i s = .next t →
    t.r = s.r ∧ exec i { s with r := c } = .next { t with r := c }

/-- R13: no read-side command reads or writes the write cursor; nor does one change RAM. -/
def Obligations.ReadersIgnoreWriteCursor : Prop :=
  ∀ (i : Instr) (s t : State) (c : Cursor), isReader i = true → exec i s = .next t →
    t.w = s.w ∧ t.ram = s.ram ∧ exec i { s with w := c } = .next { t with w := c }

/-- R12, R13, R14, R16, R77: each piece of state changes only under the commands the spec names for it. That no command
changes the model's own fields is the model's choice: the parameter (log entry 3), the host's later events (log entry 1), the
count of resets (log entry 7). -/
def Obligations.StateWrittenOnlyByNamedCommands : Prop :=
  ∀ (i : Instr) (s t : State), exec i s = .next t →
    ((∀ cap, i ≠ .create cap) → (∀ len, i ≠ .setbuf len) → t.totalSeg = s.totalSeg) ∧
    ((∀ places, i ≠ .setprec places) → t.factor = s.factor) ∧
    (isWriter i = false → rewindsCursors i = false → t.w = s.w) ∧
    (isReader i = false → rewindsCursors i = false → t.r = s.r) ∧
    (isWriter i = false → (∀ cap, i ≠ .create cap) → (∀ addr byte, i ≠ .bufwr addr byte) → t.ram = s.ram) ∧
    t.maxSegments = s.maxSegments ∧ t.inbox = s.inbox ∧ t.resets = s.resets

/-- R11: words outside the current buffer keep their values under every command but CREATE. -/
def Obligations.WordsOutsideBufferKept : Prop :=
  ∀ (i : Instr) (s t : State) (a : Nat), (∀ cap, i ≠ .create cap) → exec i s = .next t → 8 * s.totalSeg.toNat ≤ a →
    t.byteAt a = s.byteAt a

/-- The frame of the write-side commands, by bytes: every byte that holds none of the stream positions from the write cursor's
position (`Cursor.pos`) up to the number of bits the command moves (`movedBits`) reads as before. -/
def Obligations.WritersKeepOtherBytes : Prop :=
  ∀ (i : Instr) (s t : State) (a : Nat), isWriter i = true → exec i s = .next t →
    8 * a + 8 ≤ s.w.pos ∨ s.w.pos + movedBits s i ≤ 8 * a → t.byteAt a = s.byteAt a

/-! ## Errors (60_exceptions.md) -/

/-- R151, the column "raised by": a command raises only the errors the table names it for. -/
def Obligations.ErrorsComeOnlyFromNamedCommands : Prop :=
  ∀ (i : Instr) (s t : State) (e : ErrorKind), i.wf = true → exec i s = .next t → t.response = some (.error e) → e ∈ raisable i

/-- R157: after any error but `BufferExhausted` the state is the state before. -/
def Obligations.PreciseErrorsChangeNothing : Prop :=
  ∀ (i : Instr) (s t : State) (e : ErrorKind), exec i s = .next t → t.response = some (.error e) → e ≠ .bufferExhausted →
    t = s.raise e

/-- R157 (a), (c), (d): after `BufferExhausted` the cursor of the failing direction is `(TOTALSEG, 0)`, the other cursor,
`TOTALSEG` and `FACTOR` are unchanged, and a read has changed no RAM. -/
def Obligations.ExhaustionLeavesCursorAtEnd : Prop :=
  ∀ (i : Instr) (s t : State), s.w.inv s.totalSeg → s.r.inv s.totalSeg → exec i s = .next t →
    t.response = some (.error .bufferExhausted) →
    t.totalSeg = s.totalSeg ∧ t.factor = s.factor ∧
    (isWriter i = true → t.w = ⟨s.totalSeg, 0⟩ ∧ t.r = s.r) ∧
    (isReader i = true → t.r = ⟨s.totalSeg, 0⟩ ∧ t.w = s.w ∧ t.ram = s.ram)

/-- R160, R90: every bit access through an exhausted cursor raises `BufferExhausted` again and changes nothing; the float
commands, once the factor is configured. WRF32 may draw a free value first (log entry 6). -/
def Obligations.ExhaustedCursorStaysExhausted : Prop :=
  ∀ (i : Instr) (s : State), s.factor ≠ 0 ∨ .precisionNotConfigured ∉ raisable i →
    (isWriter i = true → s.w.exhausted s.totalSeg →
      ∃ d, exec i s = .next { s with response := some (.error .bufferExhausted), draws := d }) ∧
    (isReader i = true → s.r.exhausted s.totalSeg → exec i s = .next (s.raise .bufferExhausted))

/-- R154: WRF32 and RDF32 with `FACTOR = 0` raise `PrecisionNotConfigured` before anything is written, read or moved, and a
SETPREC with `places ≤ 9` cures it. -/
def Obligations.FloatCommandsNeedFactor : Prop :=
  ∀ (f : Value) (places : BitVec 4) (s : State), s.factor = 0 →
    exec (.wrf32 f) s = .next (s.raise .precisionNotConfigured) ∧ exec .rdf32 s = .next (s.raise .precisionNotConfigured) ∧
    (places.toNat ≤ 9 → ∃ t, exec (.setprec places) s = .next t ∧ t.factor ≠ 0)

/-! ## Buffer and configuration commands (40_buffer.md) -/

/-- R70: CREATE with a capacity whose rounded size fits makes a zero-filled buffer of `ceil(cap/8)` words, resets both cursors
and leaves every byte outside it, `FACTOR` and the rest alone; a size of 0 or above `MAX_SEGMENTS` is `InvalidBuffer` and changes
nothing. -/
def Obligations.CreateMakesZeroedBuffer : Prop :=
  ∀ (cap : Value) (s : State),
    (1 ≤ (cap.toNat + 7) / 8 → (cap.toNat + 7) / 8 ≤ s.maxSegments.toNat →
      ∃ t, exec (.create cap) s = .next t ∧
        t = { s with ram := t.ram, totalSeg := t.totalSeg, w := ⟨0, 0⟩, r := ⟨0, 0⟩, response := some (.ok 0) } ∧
        t.totalSeg.toNat = (cap.toNat + 7) / 8 ∧
        ∀ a, t.byteAt a = if a < 8 * ((cap.toNat + 7) / 8) then 0 else s.byteAt a) ∧
    (cap.toNat = 0 ∨ s.maxSegments.toNat < (cap.toNat + 7) / 8 → exec (.create cap) s = .next (s.raise .invalidBuffer))

/-- R71: SETBUF with a positive multiple of 8 that fits declares the buffer and resets both cursors; RAM and the rest are
unchanged; any other length is `InvalidBuffer` and changes nothing. -/
def Obligations.SetbufDeclaresBuffer : Prop :=
  ∀ (len : Value) (s : State),
    (len.toNat ≠ 0 → len.toNat % 8 = 0 → len.toNat / 8 ≤ s.maxSegments.toNat →
      ∃ t, exec (.setbuf len) s = .next t ∧
        t = { s with totalSeg := t.totalSeg, w := ⟨0, 0⟩, r := ⟨0, 0⟩, response := some (.ok 0) } ∧
        8 * t.totalSeg.toNat = len.toNat) ∧
    (len.toNat = 0 ∨ len.toNat % 8 ≠ 0 ∨ s.maxSegments.toNat < len.toNat / 8 →
      exec (.setbuf len) s = .next (s.raise .invalidBuffer))

/-- R72: BUFRD answers the byte, zero-extended, and changes nothing; outside the buffer it raises `BadAddress`. -/
def Obligations.BufrdAnswersByte : Prop :=
  ∀ (addr : Value) (s : State),
    (addr.toNat < 8 * s.totalSeg.toNat → exec (.bufrd addr) s = .next (s.respond ((s.byteAt addr.toNat).setWidth 32))) ∧
    (8 * s.totalSeg.toNat ≤ addr.toNat → exec (.bufrd addr) s = .next (s.raise .badAddress))

/-- R73: BUFWR stores the byte at its address and changes no other byte and nothing else; outside the buffer it raises
`BadAddress` and stores nothing. -/
def Obligations.BufwrStoresByte : Prop :=
  ∀ (addr : Value) (byte : Byte) (s : State),
    (addr.toNat < 8 * s.totalSeg.toNat →
      ∃ t, exec (.bufwr addr byte) s = .next t ∧ t = { s with ram := t.ram, response := some (.ok 0) } ∧
        ∀ a, t.byteAt a = if a = addr.toNat then byte else s.byteAt a) ∧
    (8 * s.totalSeg.toNat ≤ addr.toNat → exec (.bufwr addr byte) s = .next (s.raise .badAddress))

/-- R74: BYTECNT answers `8*W.seg + floor(W.off/8) + 1` and changes nothing. The premise holds in every state with the
invariant (R5, R15). -/
def Obligations.BytecntAnswersFormula : Prop :=
  ∀ s : State, s.w.seg.toNat ≤ 2 ^ 28 →
    ∃ v : Value, exec .bytecnt s = .next (s.respond v) ∧ v.toNat = 8 * s.w.seg.toNat + s.w.off.toNat / 8 + 1

/-- R74, R174: the answer of BYTECNT equals the exact byte length `ceil(B/8)` of the `B` bits before the write cursor when
`W.off mod 8 ≠ 0`, and is one more when it is 0. -/
def Obligations.BytecntOvercountsOnByteBoundary : Prop :=
  ∀ s t : State, s.w.seg.toNat ≤ 2 ^ 28 → exec .bytecnt s = .next t →
    ∃ v : Value, t.response = some (.ok v) ∧
      (s.w.off.toNat % 8 ≠ 0 → v.toNat = (s.w.pos + 7) / 8) ∧ (s.w.off.toNat % 8 = 0 → v.toNat = (s.w.pos + 7) / 8 + 1)

/-- R75: RESET sets both cursors to `(0,0)` and changes nothing else. -/
def Obligations.ResetRewindsBothCursors : Prop :=
  ∀ s : State, exec .reset s = .next { s with w := ⟨0, 0⟩, r := ⟨0, 0⟩, response := some (.ok 0) }

/-- R76, R17: RDSR answers the register's view of state and changes nothing. That `exec` of an RDSR with a number from 6 to 255,
which decode refuses (R76), is `IllegalCommand` too is the model's reading, log entry 9. -/
def Obligations.RdsrAnswersRegister : Prop :=
  ∀ s : State,
    exec (.rdsr 0) s = .next (s.respond (s.totalSeg.setWidth 32)) ∧
    exec (.rdsr 1) s = .next (s.respond (s.w.seg.setWidth 32)) ∧
    exec (.rdsr 2) s = .next (s.respond (s.w.off.setWidth 32)) ∧
    exec (.rdsr 3) s = .next (s.respond (s.r.seg.setWidth 32)) ∧
    exec (.rdsr 4) s = .next (s.respond (s.r.off.setWidth 32)) ∧
    exec (.rdsr 5) s = .next (s.respond s.factor) ∧
    ∀ n : BitVec 8, 5 < n.toNat → exec (.rdsr n) s = .next (s.raise .illegalCommand)

/-- R58, R70 to R73: LOADBUF of a conforming number of bytes leaves a buffer that holds them, both cursors at `(0,0)` and the
rest of RAM as it was; with any other number the expansion stops at SETBUF with `InvalidBuffer`. -/
def Obligations.LoadbufFillsBuffer : Prop :=
  ∀ (bytes : List Nat) (is : List Instr) (s : State), assemble (.loadbuf bytes) = some is →
    (bytes.length ≠ 0 → bytes.length % 8 = 0 → bytes.length / 8 ≤ s.maxSegments.toNat →
      ∃ t, execUntilError is s = .next t ∧
        t = { s with ram := t.ram, totalSeg := t.totalSeg, w := ⟨0, 0⟩, r := ⟨0, 0⟩, response := some (.ok 0) } ∧
        8 * t.totalSeg.toNat = bytes.length ∧
        ∀ a, (t.byteAt a).toNat = (bytes[a]?).getD (s.byteAt a).toNat) ∧
    (bytes.length = 0 ∨ bytes.length % 8 ≠ 0 ∨ s.maxSegments.toNat < bytes.length / 8 →
      execUntilError is s = .next (s.raise .invalidBuffer))

/-- R58, R72: DUMPBUF of no more bytes than the buffer has answers them in order and changes nothing but the response. -/
def Obligations.DumpbufAnswersBytes : Prop :=
  ∀ (n : Nat) (is : List Instr) (s : State), assemble (.dumpbuf n) = some is → n ≤ 8 * s.totalSeg.toNat →
    ∃ t, execAllOk is s = some ((List.range n).map fun k => (s.byteAt k).setWidth 32, t) ∧ t = { s with response := t.response }

/-! ## RAM (20_memory.md) -/

/-- R30, R31, R33: byte `8*i + k` is bits `8k+7 : 8k` of word `i`, through a write of either view. -/
def Obligations.ByteAndWordViewsAreOneStorage : Prop :=
  ∀ (s : State) (i k : Nat), k < 8 →
    (s.wordRead i).extractLsb' (8 * k) 8 = s.byteAt (8 * i + k) ∧
    (∀ v : Segment, (s.wordWrite i v).byteAt (8 * i + k) = v.extractLsb' (8 * k) 8 ∧ (s.wordWrite i v).wordRead i = v) ∧
    (∀ b : Byte, ((s.memWrite (8 * i + k) 1 b).wordRead i).extractLsb' (8 * k) 8 = b)

/-- R32: `MemRead` of what `MemWrite` wrote gives it back, and `MemWrite` changes no byte outside the addressed ones. -/
def Obligations.MemReadGivesWhatMemWriteWrote : Prop :=
  ∀ (s : State) (addr n : Nat) (v : BitVec (8 * n)),
    (s.memWrite addr n v).memRead addr n = v ∧
    ∀ a, a < addr ∨ addr + n ≤ a → (s.memWrite addr n v).byteAt a = s.byteAt a

/-! ## Bit cursor commands (41_bitcursor.md) -/

/-- R99, R115, R92, R97: WRBIT and WRBOOL move their one bit; if that reaches the end of the buffer the bit is stored (where the
cursor addresses a word) and the command fails. -/
def Obligations.OneBitWritesStoreTheirBit : Prop :=
  ∀ (b : BitVec 1) (s : State) (i : Instr), i = .wrbit b ∨ i = .wrbool b → s.w.inv s.totalSeg →
    (s.w.pos + 1 < s.endPos → ∃ t, s.WroteBits t b.toNat 1 ∧ exec i s = .next (t.respond 0)) ∧
    (s.endPos ≤ s.w.pos + 1 → ∃ t, s.WroteBits t b.toNat 1 ∧ exec i s = .next (t.raise .bufferExhausted))

/-- R100, R93, R97: WRBITS moves the low `length` bits of `bits`, across a word boundary or not. -/
def Obligations.WrbitsStoresField : Prop :=
  ∀ (n : BitVec 5) (bits : Value) (s : State), s.w.inv s.totalSeg →
    (s.w.pos + (n.toNat + 1) < s.endPos →
      ∃ t, s.WroteBits t bits.toNat (n.toNat + 1) ∧ exec (.wrbits n bits) s = .next (t.respond 0)) ∧
    (s.endPos ≤ s.w.pos + (n.toNat + 1) →
      ∃ t, s.WroteBits t bits.toNat (n.toNat + 1) ∧ exec (.wrbits n bits) s = .next (t.raise .bufferExhausted))

/-- R101, R118, R94, R97: RDBIT and RDBOOL answer the stream bit at the read cursor; a read that reaches the end answers no value. -/
def Obligations.OneBitReadsAnswerTheirBit : Prop :=
  ∀ (s : State) (i : Instr), i = .rdbit ∨ i = .rdbool → s.r.inv s.totalSeg →
    (s.r.pos + 1 < s.endPos →
      ∃ t, s.PassedBits t 1 ∧ exec i s = .next (t.respond (if s.streamBit s.r.pos then 1 else 0))) ∧
    (s.endPos ≤ s.r.pos + 1 → ∃ t, s.PassedBits t 1 ∧ exec i s = .next (t.raise .bufferExhausted))

/-- R102, R95, R97: RDBITS answers the field of `length` stream bits, zero-extended, across a word boundary or not. -/
def Obligations.RdbitsAnswersField : Prop :=
  ∀ (n : BitVec 5) (s : State), s.r.inv s.totalSeg →
    (s.r.pos + (n.toNat + 1) < s.endPos →
      ∃ (t : State) (v : Value), s.PassedBits t (n.toNat + 1) ∧ exec (.rdbits n) s = .next (t.respond v) ∧
        ∀ k, v.getLsbD k = (decide (k ≤ n.toNat) && s.streamBit (s.r.pos + k))) ∧
    (s.endPos ≤ s.r.pos + (n.toNat + 1) →
      ∃ t, s.PassedBits t (n.toNat + 1) ∧ exec (.rdbits n) s = .next (t.raise .bufferExhausted))

/-- R96, and the corner cases of R99, R101, R115, R118: the one-bit commands act as fields of one bit, and the boolean commands
as the raw ones, in every state. -/
def Obligations.OneBitCommandsAreOneBitFields : Prop :=
  ∀ (b : BitVec 1) (s : State),
    exec (.wrbit b) s = exec (.wrbits 0 (b.setWidth 32)) s ∧ exec (.wrbool b) s = exec (.wrbit b) s ∧
    exec .rdbit s = exec (.rdbits 0) s ∧ exec .rdbool s = exec .rdbit s

/-! ## Codec (42_codec.md) -/

/-- R110: the bit length of a nonzero value is the `k` with `2^(k-1) ≤ v < 2^k`, and of zero 0. -/
def Obligations.BitLengthBoundsValue : Prop :=
  bitLength 0 = 0 ∧ ∀ v : Value, v ≠ 0 → 1 ≤ bitLength v ∧ bitLength v ≤ 32 ∧
    2 ^ (bitLength v - 1) ≤ v.toNat ∧ v.toNat < 2 ^ bitLength v

/-- R113, R114: zigzag is a bijection of 32-bit patterns, `2v` for `v ≥ 0` and `-2v - 1` for `v < 0`. -/
def Obligations.ZigzagIsBijection : Prop :=
  ∀ v : Value, unzigzag (zigzag v) = v ∧ zigzag (unzigzag v) = v ∧
    ((zigzag v).toNat : Int) = if 0 ≤ v.toInt then 2 * v.toInt else -2 * v.toInt - 1

/-- R116, R111, R61: WRU32 moves the item of its value: flag, length minus one in five bits, payload. -/
def Obligations.Wru32StoresItem : Prop :=
  ∀ (v : Value) (s : State), s.w.inv s.totalSeg →
    (s.w.pos + itemBits v < s.endPos →
      ∃ t, s.WroteBits t (wireItem v) (itemBits v) ∧ exec (.wru32 v) s = .next (t.respond 0)) ∧
    (s.endPos ≤ s.w.pos + itemBits v →
      ∃ t, s.WroteBits t (wireItem v) (itemBits v) ∧ exec (.wru32 v) s = .next (t.raise .bufferExhausted))

/-- R117, R62: WRI32 moves the item of the zigzag of its value. -/
def Obligations.Wri32StoresZigzagItem : Prop :=
  ∀ (v : Value) (s : State), s.w.inv s.totalSeg →
    (s.w.pos + itemBits (zigzag v) < s.endPos →
      ∃ t, s.WroteBits t (wireItem (zigzag v)) (itemBits (zigzag v)) ∧ exec (.wri32 v) s = .next (t.respond 0)) ∧
    (s.endPos ≤ s.w.pos + itemBits (zigzag v) →
      ∃ t, s.WroteBits t (wireItem (zigzag v)) (itemBits (zigzag v)) ∧ exec (.wri32 v) s = .next (t.raise .bufferExhausted))

/-- R119, R112, R63: RDU32 answers the item at the read cursor, canonical or not. -/
def Obligations.Rdu32AnswersItem : Prop :=
  ∀ s : State, s.r.inv s.totalSeg →
    (s.r.pos + s.itemBitsAt s.r.pos < s.endPos →
      ∃ t, s.PassedBits t (s.itemBitsAt s.r.pos) ∧ exec .rdu32 s = .next (t.respond (s.itemAt s.r.pos))) ∧
    (s.endPos ≤ s.r.pos + s.itemBitsAt s.r.pos →
      ∃ t, s.PassedBits t (s.itemBitsAt s.r.pos) ∧ exec .rdu32 s = .next (t.raise .bufferExhausted))

/-- R120: RDI32 answers the unzigzag of the item at the read cursor. -/
def Obligations.Rdi32AnswersUnzigzagItem : Prop :=
  ∀ s : State, s.r.inv s.totalSeg →
    (s.r.pos + s.itemBitsAt s.r.pos < s.endPos →
      ∃ t, s.PassedBits t (s.itemBitsAt s.r.pos) ∧ exec .rdi32 s = .next (t.respond (unzigzag (s.itemAt s.r.pos)))) ∧
    (s.endPos ≤ s.r.pos + s.itemBitsAt s.r.pos →
      ∃ t, s.PassedBits t (s.itemBitsAt s.r.pos) ∧ exec .rdi32 s = .next (t.raise .bufferExhausted))

/-- R122, R98: if a sequence of raw, boolean and integer writes all answer `OK`, then the reads of the same kinds from where the
writes began all answer `OK` with the written values, a raw field truncated to its length, and end with `R = W`. -/
def Obligations.WrittenItemsReadBack : Prop :=
  ∀ (items : List Item) (s t : State) (answers : List Value), s.w.inv s.totalSeg → s.r = s.w →
    execAllOk (items.map Item.writer) s = some (answers, t) →
    ∃ u, execAllOk (items.map Item.reader) t = some (items.map Item.data, u) ∧ u.r = u.w ∧ u.w = t.w

/-! ## Quantizer (43_quantizer.md) -/

/-- R131: SETPREC with `places ≤ 9` sets `FACTOR` to `10^places` and nothing else. Above 9 the status is `OK`,
`FACTOR` is a value the spec does not give, and nothing else of the block changes; that the command runs there with a free value,
where 93_implementation_defined.md U3 prefers a refusal, is the model's choice, log entry 5. -/
def Obligations.SetprecSetsPowerOfTen : Prop :=
  ∀ (places : BitVec 4) (s : State),
    (places.toNat ≤ 9 → ∃ t, exec (.setprec places) s = .next t ∧
      t = { s with factor := t.factor, response := some (.ok 0) } ∧ t.factor.toNat = 10 ^ places.toNat) ∧
    (10 ≤ places.toNat → ∃ t, exec (.setprec places) s = .next t ∧
      t = { s with factor := t.factor, draws := t.draws, response := some (.ok 0) })

/-- R132: `Quantize` is the exact product of the float's value and the factor, truncated toward zero, where that fits 32 bits;
for infinities, not-a-numbers and results out of range it is unspecified (`none`). -/
def Obligations.QuantizeTruncatesExactProduct : Prop :=
  ∀ f factor : Value,
    (floatSpecial f → quantize f factor = none) ∧
    (¬ floatSpecial f → quantize f factor =
      if -(2 ^ 31) ≤ truncRat (floatValue f * (factor.toNat : Rat)) ∧ truncRat (floatValue f * (factor.toNat : Rat)) ≤ 2 ^ 31 - 1
      then some (BitVec.ofInt 32 (truncRat (floatValue f * (factor.toNat : Rat)))) else none)

/-- R136: `Quantize(-f, F) = -Quantize(f, F)`, wherever the negated integer also fits 32 bits. -/
def Obligations.QuantizeIsOdd : Prop :=
  ∀ f factor q : Value, quantize f factor = some q → q ≠ 0x80000000 → quantize (f ^^^ 0x80000000) factor = some (-q)

/-- R136: quantization never grows a magnitude, and loses less than one step of `1/F`. -/
def Obligations.QuantizeLosesLessThanOneStep : Prop :=
  ∀ f factor q : Value, factor ≠ 0 → quantize f factor = some q →
    |(q.toInt : Rat)| ≤ |floatValue f * (factor.toNat : Rat)| ∧
    |(q.toInt : Rat) / (factor.toNat : Rat) - floatValue f| < 1 / (factor.toNat : Rat)

/-- R133: `Dequantize` gives `+0.0` for 0; else a normal binary32 number than which none is nearer to the exact quotient, and
where another is as near, one with an even fraction. -/
def Obligations.DequantizeIsNearestEven : Prop :=
  ∀ q factor : Value, factor ≠ 0 →
    (q = 0 → dequantize q factor = 0) ∧
    (q ≠ 0 → 1 ≤ floatExponent (dequantize q factor) ∧ floatExponent (dequantize q factor) ≤ 254 ∧
      ∀ g : Value, ¬ floatSpecial g →
        |floatValue (dequantize q factor) - (q.toInt : Rat) / (factor.toNat : Rat)|
          ≤ |floatValue g - (q.toInt : Rat) / (factor.toNat : Rat)| ∧
        (|floatValue (dequantize q factor) - (q.toInt : Rat) / (factor.toNat : Rat)|
            = |floatValue g - (q.toInt : Rat) / (factor.toNat : Rat)| → floatValue g ≠ floatValue (dequantize q factor) →
          floatFraction (dequantize q factor) % 2 = 0))

/-- R134: with the factor configured and `Quantize` defined, WRF32 moves the item that `WRI32 q` would. -/
def Obligations.Wrf32StoresQuantizedItem : Prop :=
  ∀ (f q : Value) (s : State), s.w.inv s.totalSeg → s.factor ≠ 0 → quantize f s.factor = some q →
    (s.w.pos + itemBits (zigzag q) < s.endPos →
      ∃ t, s.WroteBits t (wireItem (zigzag q)) (itemBits (zigzag q)) ∧ exec (.wrf32 f) s = .next (t.respond 0)) ∧
    (s.endPos ≤ s.w.pos + itemBits (zigzag q) →
      ∃ t, s.WroteBits t (wireItem (zigzag q)) (itemBits (zigzag q)) ∧ exec (.wrf32 f) s = .next (t.raise .bufferExhausted))

/-- R132, R134: where `Quantize` is unspecified, WRF32 goes on with some integer `q` that the spec does not give (log entry 6),
and does with it what it does with a specified one. -/
def Obligations.Wrf32GoesOnWithUnspecifiedInteger : Prop :=
  ∀ (f : Value) (s : State), s.w.inv s.totalSeg → s.factor ≠ 0 → quantize f s.factor = none →
    ∃ (q : Value) (d : Nat) (t : State),
      State.WroteBits { s with draws := d } t (wireItem (zigzag q)) (itemBits (zigzag q)) ∧
      exec (.wrf32 f) s = .next (if s.w.pos + itemBits (zigzag q) < s.endPos then t.respond 0 else t.raise .bufferExhausted)

/-- R135: RDF32 raises `PrecisionNotConfigured` with the factor unset; else it reads the item as RDI32 does and answers its
quotient by the factor. -/
def Obligations.Rdf32AnswersQuotient : Prop :=
  ∀ s : State,
    (s.factor = 0 → exec .rdf32 s = .next (s.raise .precisionNotConfigured)) ∧
    (s.factor ≠ 0 → s.r.inv s.totalSeg → s.r.pos + s.itemBitsAt s.r.pos < s.endPos →
      ∃ t, s.PassedBits t (s.itemBitsAt s.r.pos) ∧
        exec .rdf32 s = .next (t.respond (dequantize (unzigzag (s.itemAt s.r.pos)) s.factor))) ∧
    (s.factor ≠ 0 → s.r.inv s.totalSeg → s.endPos ≤ s.r.pos + s.itemBitsAt s.r.pos →
      ∃ t, s.PassedBits t (s.itemBitsAt s.r.pos) ∧ exec .rdf32 s = .next (t.raise .bufferExhausted))

/-- R136: where `Quantize(f, F)` is defined and the item fits, WRF32 answers `OK`, and RDF32 from the item's start then answers
`Dequantize(Quantize(f, F), F)` and ends with `R = W`. -/
def Obligations.FloatReadsBackQuantized : Prop :=
  ∀ (f q : Value) (s : State), s.w.inv s.totalSeg → s.r = s.w → s.factor ≠ 0 → quantize f s.factor = some q →
    s.w.pos + itemBits (zigzag q) < s.endPos →
    ∃ t u, execOk (.wrf32 f) s = some (0, t) ∧ execOk .rdf32 t = some (dequantize q s.factor, u) ∧ u.r = u.w ∧ u.w = t.w

/-! ## Decimal literals (30_encoding.md) -/

/-- R57: a WRF32 line with a decimal literal within the finite range stands for WRF32 of a finite binary32 pattern nearest to it,
and of two as near the one with an even fraction. Above that range the model rounds to infinity, which R57 does not say and this
statement leaves out (log entry 16). -/
def Obligations.DecimalLiteralIsNearestFloat : Prop :=
  ∀ (negative : Bool) (digits places : Nat) (x : Rat), x = (if negative then -1 else 1) * ((digits : Rat) / 10 ^ places) →
    |x| ≤ (2 ^ 24 - 1) * 2 ^ 104 →
    ∃ f : Value, assemble (.wrf32 (.decimal negative digits places)) = some [.wrf32 f] ∧ ¬ floatSpecial f ∧
      ∀ g : Value, ¬ floatSpecial g →
        |floatValue f - x| ≤ |floatValue g - x| ∧
        (|floatValue f - x| = |floatValue g - x| → floatValue g ≠ floatValue f → floatFraction f % 2 = 0)
end

