-- ==== Sys2Proof/Laws/State.lean ====
section
/-! SUPPORT. One lemma per field per update of State, true by rfl, so that no proof unfolds a record update. -/

namespace Sys2Proof.Machine

variable (s : State)

@[simp] theorem respond_ram (v : Value) : (s.respond v).ram = s.ram := rfl
@[simp] theorem respond_totalSeg (v : Value) : (s.respond v).totalSeg = s.totalSeg := rfl
@[simp] theorem respond_w (v : Value) : (s.respond v).w = s.w := rfl
@[simp] theorem respond_r (v : Value) : (s.respond v).r = s.r := rfl
@[simp] theorem respond_factor (v : Value) : (s.respond v).factor = s.factor := rfl
@[simp] theorem respond_maxSegments (v : Value) : (s.respond v).maxSegments = s.maxSegments := rfl
@[simp] theorem respond_inbox (v : Value) : (s.respond v).inbox = s.inbox := rfl
@[simp] theorem respond_response (v : Value) : (s.respond v).response = some (.ok v) := rfl
@[simp] theorem respond_draws (v : Value) : (s.respond v).draws = s.draws := rfl
@[simp] theorem respond_resets (v : Value) : (s.respond v).resets = s.resets := rfl
@[simp] theorem respond_byteAt (v : Value) (a : Nat) : (s.respond v).byteAt a = s.byteAt a := rfl
@[simp] theorem respond_streamBit (v : Value) (p : Nat) : (s.respond v).streamBit p = s.streamBit p := rfl

@[simp] theorem raise_ram (e : ErrorKind) : (s.raise e).ram = s.ram := rfl
@[simp] theorem raise_totalSeg (e : ErrorKind) : (s.raise e).totalSeg = s.totalSeg := rfl
@[simp] theorem raise_w (e : ErrorKind) : (s.raise e).w = s.w := rfl
@[simp] theorem raise_r (e : ErrorKind) : (s.raise e).r = s.r := rfl
@[simp] theorem raise_factor (e : ErrorKind) : (s.raise e).factor = s.factor := rfl
@[simp] theorem raise_maxSegments (e : ErrorKind) : (s.raise e).maxSegments = s.maxSegments := rfl
@[simp] theorem raise_inbox (e : ErrorKind) : (s.raise e).inbox = s.inbox := rfl
@[simp] theorem raise_response (e : ErrorKind) : (s.raise e).response = some (.error e) := rfl
@[simp] theorem raise_draws (e : ErrorKind) : (s.raise e).draws = s.draws := rfl
@[simp] theorem raise_resets (e : ErrorKind) : (s.raise e).resets = s.resets := rfl
@[simp] theorem raise_byteAt (e : ErrorKind) (a : Nat) : (s.raise e).byteAt a = s.byteAt a := rfl
@[simp] theorem raise_streamBit (e : ErrorKind) (p : Nat) : (s.raise e).streamBit p = s.streamBit p := rfl

@[simp] theorem rewind_ram : s.rewind.ram = s.ram := rfl
@[simp] theorem rewind_totalSeg : s.rewind.totalSeg = s.totalSeg := rfl
@[simp] theorem rewind_w : s.rewind.w = ⟨0#29, 0#6⟩ := rfl
@[simp] theorem rewind_r : s.rewind.r = ⟨0#29, 0#6⟩ := rfl
@[simp] theorem rewind_factor : s.rewind.factor = s.factor := rfl
@[simp] theorem rewind_maxSegments : s.rewind.maxSegments = s.maxSegments := rfl
@[simp] theorem rewind_inbox : s.rewind.inbox = s.inbox := rfl
@[simp] theorem rewind_response : s.rewind.response = s.response := rfl
@[simp] theorem rewind_draws : s.rewind.draws = s.draws := rfl
@[simp] theorem rewind_resets : s.rewind.resets = s.resets := rfl

@[simp] theorem memWrite_ram (a n : Nat) (v : BitVec (8 * n)) : (s.memWrite a n v).ram = s.ram.write a n v := rfl
@[simp] theorem memWrite_totalSeg (a n : Nat) (v : BitVec (8 * n)) : (s.memWrite a n v).totalSeg = s.totalSeg := rfl
@[simp] theorem memWrite_w (a n : Nat) (v : BitVec (8 * n)) : (s.memWrite a n v).w = s.w := rfl
@[simp] theorem memWrite_r (a n : Nat) (v : BitVec (8 * n)) : (s.memWrite a n v).r = s.r := rfl
@[simp] theorem memWrite_factor (a n : Nat) (v : BitVec (8 * n)) : (s.memWrite a n v).factor = s.factor := rfl
@[simp] theorem memWrite_maxSegments (a n : Nat) (v : BitVec (8 * n)) : (s.memWrite a n v).maxSegments = s.maxSegments := rfl
@[simp] theorem memWrite_inbox (a n : Nat) (v : BitVec (8 * n)) : (s.memWrite a n v).inbox = s.inbox := rfl
@[simp] theorem memWrite_response (a n : Nat) (v : BitVec (8 * n)) : (s.memWrite a n v).response = s.response := rfl
@[simp] theorem memWrite_draws (a n : Nat) (v : BitVec (8 * n)) : (s.memWrite a n v).draws = s.draws := rfl
@[simp] theorem memWrite_resets (a n : Nat) (v : BitVec (8 * n)) : (s.memWrite a n v).resets = s.resets := rfl

@[simp] theorem putField_totalSeg (o n : Nat) (v : Value) : (s.putField o n v).totalSeg = s.totalSeg := rfl
@[simp] theorem putField_w (o n : Nat) (v : Value) : (s.putField o n v).w = s.w := rfl
@[simp] theorem putField_r (o n : Nat) (v : Value) : (s.putField o n v).r = s.r := rfl
@[simp] theorem putField_factor (o n : Nat) (v : Value) : (s.putField o n v).factor = s.factor := rfl
@[simp] theorem putField_maxSegments (o n : Nat) (v : Value) : (s.putField o n v).maxSegments = s.maxSegments := rfl
@[simp] theorem putField_inbox (o n : Nat) (v : Value) : (s.putField o n v).inbox = s.inbox := rfl
@[simp] theorem putField_response (o n : Nat) (v : Value) : (s.putField o n v).response = s.response := rfl
@[simp] theorem putField_draws (o n : Nat) (v : Value) : (s.putField o n v).draws = s.draws := rfl
@[simp] theorem putField_resets (o n : Nat) (v : Value) : (s.putField o n v).resets = s.resets := rfl

@[simp] theorem drawFactor_ram : s.drawFactor.ram = s.ram := rfl
@[simp] theorem drawFactor_totalSeg : s.drawFactor.totalSeg = s.totalSeg := rfl
@[simp] theorem drawFactor_w : s.drawFactor.w = s.w := rfl
@[simp] theorem drawFactor_r : s.drawFactor.r = s.r := rfl
@[simp] theorem drawFactor_maxSegments : s.drawFactor.maxSegments = s.maxSegments := rfl
@[simp] theorem drawFactor_inbox : s.drawFactor.inbox = s.inbox := rfl
@[simp] theorem drawFactor_response : s.drawFactor.response = s.response := rfl
@[simp] theorem drawFactor_draws : s.drawFactor.draws = s.draws + 1 := rfl
@[simp] theorem drawFactor_resets : s.drawFactor.resets = s.resets := rfl

@[simp] theorem hardwareReset_ram : s.hardwareReset.ram = [] := rfl
@[simp] theorem hardwareReset_totalSeg : s.hardwareReset.totalSeg = 0#29 := rfl
@[simp] theorem hardwareReset_w : s.hardwareReset.w = ⟨0#29, 0#6⟩ := rfl
@[simp] theorem hardwareReset_r : s.hardwareReset.r = ⟨0#29, 0#6⟩ := rfl
@[simp] theorem hardwareReset_factor : s.hardwareReset.factor = 0#32 := rfl
@[simp] theorem hardwareReset_maxSegments : s.hardwareReset.maxSegments = s.maxSegments := rfl
@[simp] theorem hardwareReset_inbox : s.hardwareReset.inbox = s.inbox := rfl
@[simp] theorem hardwareReset_response : s.hardwareReset.response = none := rfl
@[simp] theorem hardwareReset_draws : s.hardwareReset.draws = s.draws := rfl
@[simp] theorem hardwareReset_resets : s.hardwareReset.resets = s.resets + 1 := rfl

@[simp] theorem issue_ram (cw : CommandWord) : (s.issue cw).ram = s.ram := rfl
@[simp] theorem issue_totalSeg (cw : CommandWord) : (s.issue cw).totalSeg = s.totalSeg := rfl
@[simp] theorem issue_w (cw : CommandWord) : (s.issue cw).w = s.w := rfl
@[simp] theorem issue_r (cw : CommandWord) : (s.issue cw).r = s.r := rfl
@[simp] theorem issue_factor (cw : CommandWord) : (s.issue cw).factor = s.factor := rfl
@[simp] theorem issue_maxSegments (cw : CommandWord) : (s.issue cw).maxSegments = s.maxSegments := rfl
@[simp] theorem issue_inbox (cw : CommandWord) : (s.issue cw).inbox = .command cw :: s.inbox := rfl
@[simp] theorem issue_response (cw : CommandWord) : (s.issue cw).response = s.response := rfl
@[simp] theorem issue_draws (cw : CommandWord) : (s.issue cw).draws = s.draws := rfl
@[simp] theorem issue_resets (cw : CommandWord) : (s.issue cw).resets = s.resets := rfl

@[simp] theorem andThen_done {α β : Type} (v : α) (f : State → α → Result β) : (Result.done s v).andThen f = f s v := rfl
@[simp] theorem andThen_raised {α β : Type} (e : ErrorKind) (f : State → α → Result β) :
    (Result.raised s e).andThen f = .raised s e := rfl
@[simp] theorem finish_done (v : Value) : (Result.done s v).finish = .next (s.respond v) := rfl
@[simp] theorem finish_raised (e : ErrorKind) : (Result.raised s e).finish = .next (s.raise e) := rfl
@[simp] theorem finishUnit_done (u : Unit) : (Result.done s u).finishUnit = .next (s.respond 0#32) := rfl
@[simp] theorem finishUnit_raised (e : ErrorKind) : (Result.raised s e).finishUnit = .next (s.raise e) := rfl

end Sys2Proof.Machine
end

