-- ==== Sys2Proof/Laws/Memory.lean ====
section
/-! SUPPORT. What storing does to memory: the byte read back, every other byte, the canonical form. -/

namespace Sys2Proof.Machine

/-! ## Reading back -/

/-- A store is read back at its address and nowhere else. -/
theorem lookup_store (m : Memory) (a b : Nat) (v : Byte) :
    (m.store a v).lookup b = if b = a then some v else m.lookup b := by
  induction m with
  | nil => simp only [Memory.store, Memory.lookup, eq_comm]
  | cons c m ih =>
    simp only [Memory.store]
    split
    · simp only [Memory.lookup, eq_comm (a := a) (b := b)]
    · split
      · next h => subst h; simp only [Memory.lookup, eq_comm (a := c.1) (b := b)]; split <;> rfl
      · next h =>
        simp only [Memory.lookup, ih]
        by_cases hb : b = a
        · subst hb; simp [Ne.symm h]
        · simp [hb]

/-- `MemWrite` stores byte `k` of the value at `addr + k`, and nothing else changes. -/
theorem lookup_write (m : Memory) (addr n : Nat) (v : BitVec (8 * n)) (b : Nat) :
    (m.write addr n v).lookup b =
      if addr ≤ b ∧ b < addr + n then some (v.extractLsb' (8 * (b - addr)) 8) else m.lookup b := by
  induction n generalizing addr with
  | zero => rw [if_neg (by omega)]; rfl
  | succ n ih =>
    simp only [Memory.write, lookup_store, ih]
    by_cases hb : b = addr
    · subst hb; simp
    · simp only [hb, if_false]
      by_cases h : addr + 1 ≤ b ∧ b < addr + 1 + n
      · rw [if_pos h, if_pos (by omega)]
        congr 1
        ext i hi
        simp only [BitVec.getElem_extractLsb', BitVec.getLsbD_extractLsb']
        rw [decide_eq_true (by omega), Bool.true_and]
        congr 1; omega
      · rw [if_neg h, if_neg (by omega)]

/-- `zeroWords n` zeroes the bytes below `8 * n` and nothing else. -/
theorem lookup_zeroWords (m : Memory) (n b : Nat) :
    (Memory.zeroWords n m).lookup b = if b < 8 * n then some 0#8 else m.lookup b := by
  induction n generalizing m with
  | zero => simp [Memory.zeroWords]
  | succ n ih =>
    simp only [Memory.zeroWords, ih, lookup_write]
    by_cases h : b < 8 * n
    · rw [if_pos h, if_pos (by omega)]
    · rw [if_neg h]
      by_cases h' : b < 8 * (n + 1)
      · rw [if_pos (by omega), if_pos h']; congr 1; ext; simp
      · rw [if_neg (by omega), if_neg h']

/-! ## The canonical form -/

theorem risingFrom_mono {lo lo' : Nat} (m : Memory) (h : Memory.risingFrom lo m = true) (hle : lo' ≤ lo) :
    Memory.risingFrom lo' m = true := by
  cases m with
  | nil => rfl
  | cons c m => simp only [Memory.risingFrom, Bool.and_eq_true, decide_eq_true_eq] at h ⊢; exact ⟨by omega, h.2⟩

theorem risingFrom_store {lo : Nat} (m : Memory) (a : Nat) (v : Byte) (h : Memory.risingFrom lo m = true) (ha : lo ≤ a) :
    Memory.risingFrom lo (m.store a v) = true := by
  induction m generalizing lo with
  | nil => simp [Memory.store, Memory.risingFrom, ha]
  | cons c m ih =>
    simp only [Memory.risingFrom, Bool.and_eq_true, decide_eq_true_eq] at h
    simp only [Memory.store]
    split
    · simp only [Memory.risingFrom, Bool.and_eq_true, decide_eq_true_eq]; exact ⟨ha, by omega, h.2⟩
    · split
      · next h2 => subst h2; simp only [Memory.risingFrom, Bool.and_eq_true, decide_eq_true_eq]; exact ⟨ha, h.2⟩
      · simp only [Memory.risingFrom, Bool.and_eq_true, decide_eq_true_eq]; exact ⟨h.1, ih h.2 (by omega)⟩

/-- Every store keeps the canonical form. -/
theorem store_wf (m : Memory) (a : Nat) (v : Byte) (h : m.wf = true) : (m.store a v).wf = true :=
  risingFrom_store m a v h (Nat.zero_le a)

theorem write_wf (m : Memory) (addr n : Nat) (v : BitVec (8 * n)) (h : m.wf = true) : (m.write addr n v).wf = true := by
  induction n generalizing addr with
  | zero => exact h
  | succ n ih => exact store_wf _ _ _ (ih _ _)

theorem zeroWords_wf (m : Memory) (n : Nat) (h : m.wf = true) : (Memory.zeroWords n m).wf = true := by
  induction n generalizing m with
  | zero => exact h
  | succ n ih => exact ih _ (write_wf _ _ _ _ h)

/-- The memory of the state after hardware reset has the canonical form. -/
theorem reset_ram_wf : State.reset.ram.wf = true := rfl

theorem store_below {n : Nat} (m : Memory) (a : Nat) (v : Byte) (h : m.below n = true) (ha : a < n) :
    (m.store a v).below n = true := by
  induction m with
  | nil => simp [Memory.store, Memory.below, ha]
  | cons c m ih =>
    simp only [Memory.below, List.all_cons, Bool.and_eq_true, decide_eq_true_eq] at h ih
    simp only [Memory.store]
    split
    · simp only [Memory.below, List.all_cons, Bool.and_eq_true, decide_eq_true_eq]; exact ⟨ha, h⟩
    · split
      · simp only [Memory.below, List.all_cons, Bool.and_eq_true, decide_eq_true_eq]; exact ⟨ha, h.2⟩
      · simp only [Memory.below, List.all_cons, Bool.and_eq_true, decide_eq_true_eq]; exact ⟨h.1, ih h.2⟩

theorem write_below {k : Nat} (m : Memory) (addr n : Nat) (v : BitVec (8 * n)) (h : m.below k = true) (hk : addr + n ≤ k) :
    (m.write addr n v).below k = true := by
  induction n generalizing addr with
  | zero => exact h
  | succ n ih => exact store_below _ _ _ (ih _ _ (by omega)) (by omega)

theorem zeroWords_below {k : Nat} (m : Memory) (n : Nat) (h : m.below k = true) (hk : 8 * n ≤ k) :
    (Memory.zeroWords n m).below k = true := by
  induction n generalizing m with
  | zero => exact h
  | succ n ih => exact ih _ (write_below _ _ _ _ h (by omega)) (by omega)

/-! ## The bytes of a state -/

/-- Two states that agree on listed bytes and on the last hardware reset agree on every byte. -/
theorem byteAt_congr {s t : State} (hr : t.ram = s.ram) (hk : t.resets = s.resets) (a : Nat) : t.byteAt a = s.byteAt a := by
  simp only [State.byteAt, hr, hk]

/-- A byte after `MemWrite`. -/
theorem byteAt_memWrite (s : State) (addr n : Nat) (v : BitVec (8 * n)) (a : Nat) :
    (s.memWrite addr n v).byteAt a =
      if addr ≤ a ∧ a < addr + n then v.extractLsb' (8 * (a - addr)) 8 else s.byteAt a := by
  simp only [State.byteAt, memWrite_ram, memWrite_resets, lookup_write]
  split <;> rfl

/-- A bit of `MemRead` is the stream bit at that place. -/
theorem getLsbD_memRead (s : State) (addr n i : Nat) (h : i < 8 * n) :
    (s.memRead addr n).getLsbD i = s.streamBit (8 * addr + i) := by
  induction n generalizing addr i with
  | zero => omega
  | succ n ih =>
    show (s.memRead (addr + 1) n ++ s.byteAt addr).getLsbD i = _
    rw [BitVec.getLsbD_append]
    by_cases hi : i < 8
    · simp only [hi, if_true, State.streamBit]
      rw [show (8 * addr + i) / 8 = addr by omega, show (8 * addr + i) % 8 = i by omega]
    · simp only [hi, if_false]
      rw [ih (addr + 1) (i - 8) (by omega)]
      congr 1; omega

/-- Bit `j` of word `i` is stream bit `64 * i + j` (20_memory.md R33). -/
theorem getLsbD_wordRead (s : State) (i j : Nat) (h : j < 64) : (s.wordRead i).getLsbD j = s.streamBit (64 * i + j) := by
  have := getLsbD_memRead s (8 * i) 8 j (by omega)
  rw [show 8 * (8 * i) = 64 * i by omega] at this
  exact this

/-- A stream bit after `WordWrite`. -/
theorem streamBit_wordWrite (s : State) (i p : Nat) (v : Segment) :
    (s.wordWrite i v).streamBit p = if p / 64 = i then v.getLsbD (p % 64) else s.streamBit p := by
  simp only [State.wordWrite, State.streamBit, byteAt_memWrite]
  by_cases h : p / 64 = i
  · rw [if_pos (by omega), if_pos h]
    have h8 : p % 8 < 8 := Nat.mod_lt _ (by decide)
    simp only [BitVec.getLsbD_extractLsb', h8, decide_true, Bool.true_and]
    congr 1; omega
  · rw [if_neg (by omega), if_neg h]

end Sys2Proof.Machine
end

