-- ==== Sys2Proof/Laws/Bits.lean ====
section
/-! SUPPORT. The bits of the masked update and of extraction (41_bitcursor.md R91), and of the numbers the stream spells. -/

namespace Sys2Proof.Machine

theorem getLsbD_fieldMask (n i : Nat) (hn : n ≤ 32) : (fieldMask n).getLsbD i = decide (i < n) := by
  have hp : 2 ^ n ≤ 2 ^ 32 := Nat.pow_le_pow_right (by decide) hn
  have h1 : 0 < 2 ^ n := Nat.two_pow_pos n
  have : (fieldMask n).toNat = 2 ^ n - 1 := by
    simp only [fieldMask, BitVec.toNat_sub, BitVec.toNat_shiftLeft, BitVec.toNat_ofNat, Nat.shiftLeft_eq]
    omega
  rw [← BitVec.testBit_toNat, this, Nat.testBit_two_pow_sub_one]

/-- The bits of `Insert` (41_bitcursor.md R91). -/
theorem getLsbD_insertField (word : Segment) (off n : Nat) (v : Value) (j : Nat) (hn : n ≤ 32) (hj : j < 64) :
    (insertField word off n v).getLsbD j =
      if off ≤ j ∧ j < off + n then v.getLsbD (j - off) else word.getLsbD j := by
  simp only [insertField, BitVec.getLsbD_or, BitVec.getLsbD_and, BitVec.getLsbD_not, BitVec.getLsbD_shiftLeft,
    getLsbD_fieldMask _ _ hn, BitVec.getLsbD_setWidth, hj, decide_true, Bool.true_and]
  by_cases h1 : j < off
  · rw [if_neg (by omega)]; simp [h1]
  · by_cases h2 : j < off + n
    · rw [if_pos (by omega)]
      have : j - off < n := by omega
      have : j - off < 64 := by omega
      simp [*]
    · rw [if_neg (by omega)]
      have : ¬ j - off < n := by omega
      simp [*]

/-- The bits of `Extract` (41_bitcursor.md R91). -/
theorem getLsbD_extractField (word : Segment) (off n i : Nat) (hn : n ≤ 32) :
    (extractField word off n).getLsbD i = (decide (i < n) && word.getLsbD (off + i)) := by
  simp only [extractField, BitVec.getLsbD_setWidth, BitVec.getLsbD_and, BitVec.getLsbD_ushiftRight, getLsbD_fieldMask _ _ hn]
  by_cases h : i < n
  · have : i < 32 := by omega
    simp [*]
  · simp [h]

/-- The stream bits after a masked update of the write cursor's word. -/
theorem streamBit_putField (s : State) (off n : Nat) (v : Value) (p : Nat) (hn : n ≤ 32) (ho : off + n ≤ 64) :
    (s.putField off n v).streamBit p =
      if 64 * s.w.seg.toNat + off ≤ p ∧ p < 64 * s.w.seg.toNat + off + n
      then v.getLsbD (p - (64 * s.w.seg.toNat + off)) else s.streamBit p := by
  simp only [State.putField, streamBit_wordWrite]
  by_cases h : p / 64 = s.w.seg.toNat
  · rw [if_pos h, getLsbD_insertField _ _ _ _ _ hn (Nat.mod_lt _ (by decide)), getLsbD_wordRead _ _ _ (Nat.mod_lt _ (by decide))]
    rw [show 64 * s.w.seg.toNat + p % 64 = p by omega]
    by_cases h2 : off ≤ p % 64 ∧ p % 64 < off + n
    · rw [if_pos h2, if_pos (by omega)]; congr 1; omega
    · rw [if_neg h2, if_neg (by omega)]
  · rw [if_neg h, if_neg (by omega)]

/-- A masked update of a word keeps the canonical form of RAM. -/
theorem putField_ram_wf (s : State) (off n : Nat) (v : Value) (h : s.ram.wf = true) : (s.putField off n v).ram.wf = true :=
  write_wf _ _ _ _ h

/-- A masked update of a word inside RAM lists no byte outside it. -/
theorem putField_ram_below (s : State) (off n k : Nat) (v : Value) (h : s.ram.below (8 * k) = true) (hk : s.w.seg.toNat < k) :
    (s.putField off n v).ram.below (8 * k) = true := write_below _ _ _ _ h (by omega)

/-- The bits of a field taken from the read cursor's word. -/
theorem getLsbD_getField (s : State) (off n i : Nat) (hn : n ≤ 32) (ho : off + n ≤ 64) :
    (s.getField off n).getLsbD i = (decide (i < n) && s.streamBit (64 * s.r.seg.toNat + off + i)) := by
  simp only [State.getField, getLsbD_extractField _ _ _ _ hn]
  by_cases h : i < n
  · rw [getLsbD_wordRead _ _ _ (by omega)]; congr 2; omega
  · simp [h]

/-! ## The numbers the stream spells -/

/-- Bit `i` of the number at a position is the stream bit `i` further. -/
theorem testBit_streamField (s : State) (p n i : Nat) :
    (s.streamField p n).testBit i = (decide (i < n) && s.streamBit (p + i)) := by
  induction n generalizing p i with
  | zero => simp [State.streamField]
  | succ n ih =>
    cases i with
    | zero => cases h : s.streamBit p <;> simp [State.streamField, Nat.testBit_zero, h]
    | succ i =>
      simp only [State.streamField, Nat.testBit_succ]
      rw [show ((s.streamBit p).toNat + 2 * s.streamField (p + 1) n) / 2 = s.streamField (p + 1) n by
        cases s.streamBit p <;> (simp; try omega)]
      rw [ih, show p + 1 + i = p + (i + 1) by omega]
      simp

theorem streamField_lt (s : State) (p n : Nat) : s.streamField p n < 2 ^ n := by
  refine Nat.lt_pow_two_of_testBit _ fun i hi => ?_
  rw [testBit_streamField]; simp; omega

/-- The number at a position depends only on the stream bits it covers. -/
theorem streamField_congr (s t : State) (p n : Nat) (h : ∀ j, p ≤ j → j < p + n → t.streamBit j = s.streamBit j) :
    t.streamField p n = s.streamField p n := by
  induction n generalizing p with
  | zero => rfl
  | succ n ih =>
    simp only [State.streamField]
    rw [h p (by omega) (by omega), ih (p + 1) fun j h1 h2 => h j (by omega) (by omega)]

/-- A 32-bit value whose bits are stream bits is the number the stream spells there. -/
theorem eq_streamField (s : State) (p n : Nat) (v : Value)
    (h : ∀ i, v.getLsbD i = (decide (i < n) && s.streamBit (p + i))) : v = BitVec.ofNat 32 (s.streamField p n) := by
  apply BitVec.eq_of_getLsbD_eq
  intro i hi
  rw [h, BitVec.getLsbD_ofNat, testBit_streamField]
  simp [hi]

end Sys2Proof.Machine
end

