-- ==== Sys2Proof/Laws/Primitives.lean ====
section
/-! SUPPORT. Everything the cursor primitives can do: one lemma for each (41_bitcursor.md R90 to R97), the composition of
writes, and that none of them disturbs the form of RAM. -/

namespace Sys2Proof.Machine

/-! ## Cursors -/

/-- The offset is below 64 by its width (10_state.md R15 (a)). -/
theorem off_lt (c : Cursor) : c.off.toNat < 64 := c.off.isLt

theorem pos_skip (c : Cursor) (n : Nat) (h : c.off.toNat + n < 64) : (c.skip n).pos = c.pos + n := by
  simp only [Cursor.skip, Cursor.pos, BitVec.toNat_add, BitVec.toNat_ofNat]; omega

theorem seg_nextWord (c : Cursor) (n : Nat) (total : SegIndex) (h : c.seg < total) :
    (c.nextWord n).seg.toNat = c.seg.toNat + 1 := by
  have := total.isLt
  have : c.seg.toNat < total.toNat := h
  simp only [Cursor.nextWord, BitVec.toNat_add, BitVec.toNat_ofNat]; omega

theorem pos_nextWord (c : Cursor) (n : Nat) (total : SegIndex) (h : c.seg < total) (hn : n < 64) :
    (c.nextWord n).pos = 64 * (c.seg.toNat + 1) + n := by
  rw [Cursor.pos, seg_nextWord c n total h]
  simp only [Cursor.nextWord, BitVec.toNat_ofNat]; omega

/-- A well-placed cursor that is not exhausted addresses a word of the buffer. -/
theorem seg_lt_of_not_exhausted {c : Cursor} {total : SegIndex} (h : ¬ c.exhausted total) : c.seg < total := by
  have : ¬ total.toNat ≤ c.seg.toNat := h
  show c.seg.toNat < total.toNat
  omega

/-- A well-placed cursor that is exhausted stands at `(TOTALSEG, 0)`. -/
theorem eq_end_of_exhausted {c : Cursor} {total : SegIndex} (hc : c.inv total) (h : c.exhausted total) : c = ⟨total, 0#6⟩ := by
  have hle : c.seg = total := BitVec.le_antisymm hc.1 h
  have h0 := hc.2 hle
  cases c; simp_all

/-- A cursor whose position is inside the buffer is well placed. -/
theorem inv_of_pos_lt {c : Cursor} {total : SegIndex} (h : c.pos < 64 * total.toNat) : c.inv total := by
  have : c.seg.toNat < total.toNat := by simp only [Cursor.pos] at h; omega
  refine ⟨?_, fun he => ?_⟩
  · show c.seg.toNat ≤ total.toNat; omega
  · rw [he] at this; omega

theorem inv_end (total : SegIndex) : (⟨total, 0#6⟩ : Cursor).inv total := ⟨BitVec.le_refl _, fun _ => rfl⟩

theorem pos_end (total : SegIndex) : (⟨total, 0#6⟩ : Cursor).pos = 64 * total.toNat := by simp [Cursor.pos]

/-- A well-placed cursor's position is at most the end. -/
theorem pos_le_end {c : Cursor} {total : SegIndex} (hc : c.inv total) : c.pos ≤ 64 * total.toNat := by
  by_cases h : c.exhausted total
  · rw [eq_end_of_exhausted hc h, pos_end]
  · have h' : c.seg.toNat < total.toNat := seg_lt_of_not_exhausted h
    have := off_lt c
    simp only [Cursor.pos]; omega

/-- Two cursors at one position are one cursor. -/
theorem pos_inj {c d : Cursor} (h : c.pos = d.pos) : c = d := by
  have h1 := off_lt c
  have h2 := off_lt d
  simp only [Cursor.pos] at h
  have hs : c.seg = d.seg := BitVec.eq_of_toNat_eq (by omega)
  have ho : c.off = d.off := BitVec.eq_of_toNat_eq (by omega)
  cases c; cases d; simp_all

/-! ## What a write leaves of RAM's form -/

/-- `t`'s RAM keeps the canonical form of `s`'s and lists no byte outside a RAM that holds the buffer. -/
def RamKept (s t : State) : Prop :=
  (s.ram.wf = true → t.ram.wf = true) ∧
  ∀ k, s.totalSeg.toNat ≤ k → s.ram.below (8 * k) = true → t.ram.below (8 * k) = true

theorem RamKept_refl (s : State) : RamKept s s := ⟨id, fun _ _ h => h⟩

theorem RamKept_trans {s t u : State} (h1 : RamKept s t) (ht : t.totalSeg = s.totalSeg) (h2 : RamKept t u) : RamKept s u :=
  ⟨fun h => h2.1 (h1.1 h), fun k hk hb => h2.2 k (by rw [ht]; exact hk) (h1.2 k hk hb)⟩

theorem RamKept_putField (s : State) (off n : Nat) (v : Value) (h : s.w.seg < s.totalSeg) : RamKept s (s.putField off n v) :=
  ⟨putField_ram_wf s off n v, fun k hk hb =>
    putField_ram_below s off n k v hb (Nat.lt_of_lt_of_le (show s.w.seg.toNat < s.totalSeg.toNat from h) hk)⟩

/-! ## Arriving at the next word -/

/-- The write cursor arrives at the next word: it goes on there, or it is the end of the buffer. -/
theorem arriveW_spec (s : State) (h : s.w.seg < s.totalSeg) :
    s.arriveW =
      (if 64 * (s.w.seg.toNat + 1) < s.endPos then .done { s with w := s.w.nextWord 0 } ()
       else .raised { s with w := ⟨s.totalSeg, 0#6⟩ } .bufferExhausted) := by
  have hs := seg_nextWord s.w 0 s.totalSeg h
  have hlt : s.w.seg.toNat < s.totalSeg.toNat := h
  have hend : s.endPos = 64 * s.totalSeg.toNat := rfl
  simp only [State.arriveW]
  by_cases he : (s.w.nextWord 0).seg = s.totalSeg
  · rw [if_pos he, if_neg (by rw [hend, ← he, hs]; omega)]
    have : s.w.nextWord 0 = ⟨s.totalSeg, 0#6⟩ := by rw [← he]; rfl
    rw [this]
  · rw [if_neg he, if_pos]
    have : (s.w.nextWord 0).seg.toNat ≠ s.totalSeg.toNat := fun hh => he (BitVec.eq_of_toNat_eq hh)
    omega

/-- The read cursor arrives at the next word: it goes on there, or it is the end of the buffer. -/
theorem arriveR_spec (s : State) (h : s.r.seg < s.totalSeg) :
    s.arriveR =
      (if 64 * (s.r.seg.toNat + 1) < s.endPos then .done { s with r := s.r.nextWord 0 } ()
       else .raised { s with r := ⟨s.totalSeg, 0#6⟩ } .bufferExhausted) := by
  have hs := seg_nextWord s.r 0 s.totalSeg h
  have hlt : s.r.seg.toNat < s.totalSeg.toNat := h
  have hend : s.endPos = 64 * s.totalSeg.toNat := rfl
  simp only [State.arriveR]
  by_cases he : (s.r.nextWord 0).seg = s.totalSeg
  · rw [if_pos he, if_neg (by rw [hend, ← he, hs]; omega)]
    have : s.r.nextWord 0 = ⟨s.totalSeg, 0#6⟩ := by rw [← he]; rfl
    rw [this]
  · rw [if_neg he, if_pos]
    have : (s.r.nextWord 0).seg.toNat ≠ s.totalSeg.toNat := fun hh => he (BitVec.eq_of_toNat_eq hh)
    omega

/-! ## writeBits -/

/-- An exhausted write cursor: the entry guard raises and changes nothing (41_bitcursor.md R90). -/
theorem writeBits_exhausted (s : State) (v : Value) (n : Nat) (h : s.w.exhausted s.totalSeg) :
    s.writeBits v n = .raised s .bufferExhausted := if_pos h

theorem writeBit_exhausted (s : State) (b : BitVec 1) (h : s.w.exhausted s.totalSeg) :
    s.writeBit b = .raised s .bufferExhausted := if_pos h

/-- Two changes of RAM and `W` alone are one. -/
theorem frame_trans_w {s t u : State} (h1 : t = { s with ram := t.ram, w := t.w }) (h2 : u = { t with ram := u.ram, w := u.w }) :
    u = { s with ram := u.ram, w := u.w } := by
  rw [h1] at h2; exact h2

theorem putField_frame (s : State) (off n : Nat) (v : Value) : s.putField off n v = { s with ram := (s.putField off n v).ram } := rfl

/-- The masked update and the move of the write cursor, as one change of RAM and `W`. -/
theorem putField_w_frame (s : State) (off n : Nat) (v : Value) (c : Cursor) :
    ({ s.putField off n v with w := c } : State) = { s with ram := (s.putField off n v).ram, w := c } := rfl

/-- `writeBits` where the field fits in the active word (41_bitcursor.md R93). -/
theorem writeBits_fit (s : State) (v : Value) (n : Nat) (hlt : s.w.seg < s.totalSeg) (h1 : 1 ≤ n) (hn : n ≤ 32)
    (hfit : n ≤ 64 - s.w.off.toNat) :
    ∃ t, s.WroteBits t v.toNat n ∧ RamKept s t ∧
      s.writeBits v n = if s.w.pos + n < s.endPos then .done t () else .raised t .bufferExhausted := by
  have hx : ¬ s.w.exhausted s.totalSeg := BitVec.not_le.mpr hlt
  have hlt' : s.w.seg.toNat < s.totalSeg.toNat := hlt
  have hoff := off_lt s.w
  have hpos : s.w.pos = 64 * s.w.seg.toNat + s.w.off.toNat := rfl
  have hend : s.endPos = 64 * s.totalSeg.toNat := rfl
  have hbits : ∀ j, (s.putField s.w.off.toNat n v).streamBit j =
      if s.w.pos ≤ j ∧ j < min (s.w.pos + n) s.endPos then v.toNat.testBit (j - s.w.pos) else s.streamBit j := by
    intro j
    rw [streamBit_putField s _ n v j hn (by omega), BitVec.testBit_toNat, ← hpos]
    by_cases hj : s.w.pos ≤ j ∧ j < s.w.pos + n
    · rw [if_pos hj, if_pos (by omega)]
    · rw [if_neg hj, if_neg (by omega)]
  have hkept := RamKept_putField s s.w.off.toNat n v hlt
  simp only [State.writeBits, if_neg hx, if_pos hfit]
  by_cases hlast : n < 64 - s.w.off.toNat
  · refine ⟨{ s.putField s.w.off.toNat n v with w := s.w.skip n }, ⟨rfl, hbits, ?_⟩, hkept, ?_⟩
    · rw [if_pos (by omega)]; exact pos_skip s.w n (by omega)
    · rw [if_pos hlast, if_pos (by omega)]
  · rw [if_neg hlast, arriveW_spec (s.putField s.w.off.toNat n v) hlt]
    by_cases hE : 64 * (s.w.seg.toNat + 1) < s.endPos
    · refine ⟨{ s.putField s.w.off.toNat n v with w := s.w.nextWord 0 }, ⟨rfl, hbits, ?_⟩, hkept, ?_⟩
      · rw [if_pos (by omega)]
        show (s.w.nextWord 0).pos = _
        rw [pos_nextWord s.w 0 s.totalSeg hlt (by omega)]; omega
      · rw [if_pos (show s.w.pos + n < s.endPos by omega)]; exact if_pos hE
    · refine ⟨{ s.putField s.w.off.toNat n v with w := ⟨s.totalSeg, 0#6⟩ }, ⟨rfl, hbits, ?_⟩, hkept, ?_⟩
      · rw [if_neg (by omega)]
      · rw [if_neg (show ¬ s.w.pos + n < s.endPos by omega)]; exact if_neg hE

/-- `writeBits` where the field straddles two words (41_bitcursor.md R93). -/
theorem writeBits_straddle (s : State) (v : Value) (n : Nat) (hlt : s.w.seg < s.totalSeg) (hn : n ≤ 32)
    (hfit : ¬ n ≤ 64 - s.w.off.toNat) :
    ∃ t, s.WroteBits t v.toNat n ∧ RamKept s t ∧
      s.writeBits v n = if s.w.pos + n < s.endPos then .done t () else .raised t .bufferExhausted := by
  have hx : ¬ s.w.exhausted s.totalSeg := BitVec.not_le.mpr hlt
  have hlt' : s.w.seg.toNat < s.totalSeg.toNat := hlt
  have hoff := off_lt s.w
  have hpos : s.w.pos = 64 * s.w.seg.toNat + s.w.off.toNat := rfl
  have hend : s.endPos = 64 * s.totalSeg.toNat := rfl
  simp only [State.writeBits, if_neg hx, if_neg hfit]
  generalize hroom : 64 - s.w.off.toNat = room at *
  have hbits1 : ∀ j, (s.putField s.w.off.toNat room v).streamBit j =
      if s.w.pos ≤ j ∧ j < 64 * (s.w.seg.toNat + 1) then v.getLsbD (j - s.w.pos) else s.streamBit j := by
    intro j
    rw [streamBit_putField s _ room v j (by omega) (by omega), ← hpos]
    by_cases hj : s.w.pos ≤ j ∧ j < s.w.pos + room
    · rw [if_pos hj, if_pos (by omega)]
    · rw [if_neg hj, if_neg (by omega)]
  have hkept := RamKept_putField s s.w.off.toNat room v hlt
  have harr := arriveW_spec (s.putField s.w.off.toNat room v) hlt
  by_cases hE : 64 * (s.w.seg.toNat + 1) < s.endPos
  · obtain ⟨s2, hs2, h2w, h2fr, h2T, h2bit, h2k⟩ : ∃ s2, (s.putField s.w.off.toNat room v).arriveW = .done s2 () ∧
        s2.w = s.w.nextWord 0 ∧ s2 = { s with ram := s2.ram, w := s2.w } ∧ s2.totalSeg = s.totalSeg ∧
        (∀ j, s2.streamBit j = (s.putField s.w.off.toNat room v).streamBit j) ∧ RamKept s s2 :=
      ⟨_, harr.trans (if_pos hE), rfl, rfl, rfl, fun _ => rfl, hkept⟩
    have hseg2 : s2.w.seg.toNat = s.w.seg.toNat + 1 := by rw [h2w]; exact seg_nextWord s.w 0 s.totalSeg hlt
    have hoff2 : s2.w.off.toNat = 0 := by rw [h2w]; rfl
    have hlt2 : s2.w.seg < s2.totalSeg := by
      show s2.w.seg.toNat < s2.totalSeg.toNat
      rw [hseg2, h2T]; omega
    rw [hs2, andThen_done]
    refine ⟨{ s2.putField 0 (n - room) (v >>> room) with w := s2.w.skip (n - room) }, ⟨?_, fun j => ?_, ?_⟩, ?_, ?_⟩
    · exact frame_trans_w h2fr (putField_w_frame s2 _ _ _ _)
    · show (s2.putField 0 (n - room) (v >>> room)).streamBit j = _
      rw [streamBit_putField s2 0 (n - room) _ j (by omega) (by omega), hseg2, h2bit, hbits1]
      by_cases hj2 : 64 * (s.w.seg.toNat + 1) + 0 ≤ j ∧ j < 64 * (s.w.seg.toNat + 1) + 0 + (n - room)
      · rw [if_pos hj2, if_pos (by omega), BitVec.getLsbD_ushiftRight, BitVec.testBit_toNat]; congr 1; omega
      · rw [if_neg hj2]
        by_cases hj1 : s.w.pos ≤ j ∧ j < 64 * (s.w.seg.toNat + 1)
        · rw [if_pos hj1, if_pos (by omega), BitVec.testBit_toNat]
        · rw [if_neg hj1, if_neg (by omega)]
    · rw [if_pos (by omega)]
      show (s2.w.skip (n - room)).pos = _
      rw [pos_skip s2.w _ (by omega), Cursor.pos, hseg2, hoff2]; omega
    · exact RamKept_trans h2k h2T (RamKept_putField s2 0 (n - room) (v >>> room) hlt2)
    · rw [if_pos (by omega)]
  · rw [harr.trans (if_neg hE), andThen_raised]
    refine ⟨{ s.putField s.w.off.toNat room v with w := ⟨s.totalSeg, 0#6⟩ }, ⟨rfl, fun j => ?_, ?_⟩, hkept, ?_⟩
    · show (s.putField s.w.off.toNat room v).streamBit j = _
      rw [hbits1]
      by_cases hj : s.w.pos ≤ j ∧ j < 64 * (s.w.seg.toNat + 1)
      · rw [if_pos hj, if_pos (by omega), BitVec.testBit_toNat]
      · rw [if_neg hj, if_neg (by omega)]
    · rw [if_neg (by omega)]
    · rw [if_neg (by omega)]; rfl

/-- Everything `writeBits` can do through a well-placed cursor (41_bitcursor.md R93, R97). -/
theorem writeBits_spec (s : State) (v : Value) (n : Nat) (hw : s.w.inv s.totalSeg) (h1 : 1 ≤ n) (hn : n ≤ 32) :
    ∃ t, s.WroteBits t v.toNat n ∧ RamKept s t ∧
      s.writeBits v n = if s.w.pos + n < s.endPos then .done t () else .raised t .bufferExhausted := by
  by_cases hx : s.w.exhausted s.totalSeg
  · have he := eq_end_of_exhausted hw hx
    have hp : s.w.pos = s.endPos := by rw [he, pos_end]; rfl
    refine ⟨s, ⟨rfl, fun j => ?_, ?_⟩, RamKept_refl s, ?_⟩
    · rw [if_neg (by omega)]
    · rw [if_neg (by omega)]; exact he
    · rw [if_neg (by omega)]; exact writeBits_exhausted s v n hx
  · by_cases hfit : n ≤ 64 - s.w.off.toNat
    · exact writeBits_fit s v n (seg_lt_of_not_exhausted hx) h1 hn hfit
    · exact writeBits_straddle s v n (seg_lt_of_not_exhausted hx) hn hfit

/-! ## writeBit -/

/-- `writeBit` is `writeBits` of one bit (41_bitcursor.md R96). -/
theorem writeBit_eq_writeBits (s : State) (b : BitVec 1) : s.writeBit b = s.writeBits (b.setWidth 32) 1 := by
  have hoff := off_lt s.w
  simp only [State.writeBit, State.writeBits]
  by_cases hx : s.w.exhausted s.totalSeg
  · rw [if_pos hx, if_pos hx]
  · rw [if_neg hx, if_neg hx, if_pos (show 1 ≤ 64 - s.w.off.toNat by omega)]
    by_cases h : s.w.off.toNat < 63
    · rw [if_pos h, if_pos (show 1 < 64 - s.w.off.toNat by omega)]
    · rw [if_neg h, if_neg (show ¬ 1 < 64 - s.w.off.toNat by omega)]

/-- Everything `writeBit` can do through a well-placed cursor (41_bitcursor.md R92, R97). -/
theorem writeBit_spec (s : State) (b : BitVec 1) (hw : s.w.inv s.totalSeg) :
    ∃ t, s.WroteBits t b.toNat 1 ∧ RamKept s t ∧
      s.writeBit b = if s.w.pos + 1 < s.endPos then .done t () else .raised t .bufferExhausted := by
  have hb : (b.setWidth 32).toNat = b.toNat := by
    rw [BitVec.toNat_setWidth]; exact Nat.mod_eq_of_lt (Nat.lt_trans b.isLt (by decide))
  have h := writeBits_spec s (b.setWidth 32) 1 hw (Nat.le_refl 1) (by omega)
  rw [hb] at h
  rw [writeBit_eq_writeBits]; exact h

/-! ## Composing writes -/

/-- A write leaves the write cursor well placed. -/
theorem wroteBits_inv {s t : State} {bits n : Nat} (h : s.WroteBits t bits n) : t.w.inv s.totalSeg := by
  have h3 := h.2.2
  have hend : s.endPos = 64 * s.totalSeg.toNat := rfl
  by_cases hf : s.w.pos + n < s.endPos
  · rw [if_pos hf] at h3; exact inv_of_pos_lt (by omega)
  · rw [if_neg hf] at h3; rw [h3]; exact inv_end _

theorem wroteBits_totalSeg {s t : State} {bits n : Nat} (h : s.WroteBits t bits n) : t.totalSeg = s.totalSeg := by rw [h.1]

theorem wroteBits_endPos {s t : State} {bits n : Nat} (h : s.WroteBits t bits n) : t.endPos = s.endPos := by
  show 64 * t.totalSeg.toNat = _; rw [wroteBits_totalSeg h]; rfl

/-- Only the low `n` bits of what is written matter. -/
theorem wroteBits_congr {s t : State} {bits bits' n : Nat} (h : s.WroteBits t bits n)
    (hb : ∀ i, i < n → bits.testBit i = bits'.testBit i) : s.WroteBits t bits' n := by
  refine ⟨h.1, fun j => ?_, h.2.2⟩
  rw [h.2.1 j]
  by_cases hj : s.w.pos ≤ j ∧ j < min (s.w.pos + n) s.endPos
  · rw [if_pos hj, if_pos hj, hb _ (by omega)]
  · rw [if_neg hj, if_neg hj]

/-- A write that ran off the end is also the write of any longer field with the same low bits. -/
theorem wroteBits_longer {s t : State} {bits n m : Nat} (h : s.WroteBits t bits n) (hend : s.endPos ≤ s.w.pos + n)
    (hm : n ≤ m) : s.WroteBits t bits m := by
  refine ⟨h.1, fun j => ?_, ?_⟩
  · rw [h.2.1 j, Nat.min_eq_right hend, Nat.min_eq_right (by omega)]
  · have := h.2.2
    rw [if_neg (by omega)] at this
    rw [if_neg (by omega)]; exact this

/-- A write that fitted, then another, is one write of the joined field: its low `n` bits are the first field's. -/
theorem wroteBits_append {s t u : State} {bits n m : Nat} (h1 : s.WroteBits t bits n) (hfit : s.w.pos + n < s.endPos)
    (h2 : t.WroteBits u (bits >>> n) m) : s.WroteBits u bits (n + m) := by
  have hp := h1.2.2
  rw [if_pos hfit] at hp
  have hE := wroteBits_endPos h1
  refine ⟨frame_trans_w h1.1 h2.1, fun j => ?_, ?_⟩
  · rw [h2.2.1 j, h1.2.1 j, hp, hE]
    by_cases hj2 : s.w.pos + n ≤ j ∧ j < min (s.w.pos + n + m) s.endPos
    · rw [if_pos hj2, if_pos (by omega), Nat.testBit_shiftRight]; congr 1; omega
    · rw [if_neg hj2]
      by_cases hj1 : s.w.pos ≤ j ∧ j < min (s.w.pos + n) s.endPos
      · rw [if_pos hj1, if_pos (by omega)]
      · rw [if_neg hj1, if_neg (by omega)]
  · have h3 := h2.2.2
    rw [hp, hE, wroteBits_totalSeg h1] at h3
    by_cases hf : s.w.pos + n + m < s.endPos
    · rw [if_pos hf] at h3; rw [if_pos (by omega)]; omega
    · rw [if_neg hf] at h3; rw [if_neg (by omega)]; exact h3

/-! ## readBits and readBit -/

/-- An exhausted read cursor: the entry guard raises and changes nothing (41_bitcursor.md R90). -/
theorem readBits_exhausted (s : State) (n : Nat) (h : s.r.exhausted s.totalSeg) :
    s.readBits n = .raised s .bufferExhausted := if_pos h

theorem readBit_exhausted (s : State) (h : s.r.exhausted s.totalSeg) : s.readBit = .raised s .bufferExhausted := if_pos h

/-- Everything `readBits` can do through a well-placed cursor (41_bitcursor.md R95, R97). -/
theorem readBits_spec (s : State) (n : Nat) (hr : s.r.inv s.totalSeg) (h1 : 1 ≤ n) (hn : n ≤ 32) :
    ∃ t, s.PassedBits t n ∧
      s.readBits n = if s.r.pos + n < s.endPos then .done t (BitVec.ofNat 32 (s.streamField s.r.pos n))
        else .raised t .bufferExhausted := by
  by_cases hx : s.r.exhausted s.totalSeg
  · have he := eq_end_of_exhausted hr hx
    have hp : s.r.pos = s.endPos := by rw [he, pos_end]; rfl
    refine ⟨s, ⟨rfl, ?_⟩, ?_⟩
    · rw [if_neg (by omega)]; exact he
    · rw [if_neg (by omega)]; exact readBits_exhausted s n hx
  · have hlt := seg_lt_of_not_exhausted hx
    have hlt' : s.r.seg.toNat < s.totalSeg.toNat := hlt
    have hoff := off_lt s.r
    have hpos : s.r.pos = 64 * s.r.seg.toNat + s.r.off.toNat := rfl
    have hend : s.endPos = 64 * s.totalSeg.toNat := rfl
    have harr := arriveR_spec s hlt
    simp only [State.readBits, if_neg hx]
    by_cases hfit : n ≤ 64 - s.r.off.toNat
    · rw [if_pos hfit]
      have hv : s.getField s.r.off.toNat n = BitVec.ofNat 32 (s.streamField s.r.pos n) :=
        eq_streamField s _ n _ fun i => by rw [getLsbD_getField s _ n i hn (by omega), hpos]
      rw [hv]
      by_cases hlast : n < 64 - s.r.off.toNat
      · refine ⟨{ s with r := s.r.skip n }, ⟨rfl, ?_⟩, ?_⟩
        · rw [if_pos (by omega)]; exact pos_skip s.r n (by omega)
        · rw [if_pos hlast, if_pos (by omega)]
      · rw [if_neg hlast]
        by_cases hE : 64 * (s.r.seg.toNat + 1) < s.endPos
        · refine ⟨{ s with r := s.r.nextWord 0 }, ⟨rfl, ?_⟩, ?_⟩
          · rw [if_pos (by omega)]
            show (s.r.nextWord 0).pos = _
            rw [pos_nextWord s.r 0 s.totalSeg hlt (by omega)]; omega
          · rw [if_pos (by omega), harr.trans (if_pos hE)]; rfl
        · refine ⟨{ s with r := ⟨s.totalSeg, 0#6⟩ }, ⟨rfl, ?_⟩, ?_⟩
          · rw [if_neg (by omega)]
          · rw [if_neg (by omega), harr.trans (if_neg hE)]; rfl
    · rw [if_neg hfit]
      by_cases hE : 64 * (s.r.seg.toNat + 1) < s.endPos
      · obtain ⟨s1, hs1, h1r, h1fr, h1bit⟩ : ∃ s1, s.arriveR = .done s1 () ∧ s1.r = s.r.nextWord 0 ∧
            s1 = { s with r := s1.r } ∧ (∀ j, s1.streamBit j = s.streamBit j) :=
          ⟨_, harr.trans (if_pos hE), rfl, rfl, fun _ => rfl⟩
        have hseg1 : s1.r.seg.toNat = s.r.seg.toNat + 1 := by rw [h1r]; exact seg_nextWord s.r 0 s.totalSeg hlt
        have hoff1 : s1.r.off.toNat = 0 := by rw [h1r]; rfl
        rw [hs1, andThen_done]
        refine ⟨{ s1 with r := s1.r.skip (n - (64 - s.r.off.toNat)) }, ⟨?_, ?_⟩, ?_⟩
        · rw [h1fr]
        · rw [if_pos (by omega)]
          show (s1.r.skip _).pos = _
          rw [pos_skip s1.r _ (by omega), Cursor.pos, hseg1, hoff1]; omega
        · rw [if_pos (by omega)]
          congr 1
          refine eq_streamField s _ n _ fun i => ?_
          rw [BitVec.getLsbD_or, BitVec.getLsbD_shiftLeft, getLsbD_getField s _ _ i (by omega) (by omega),
            getLsbD_getField s1 _ _ _ (by omega) (by omega), h1bit, hseg1]
          by_cases hi : i < 64 - s.r.off.toNat
          · have : i < n := by omega
            simp only [hi, this, decide_true, Bool.not_true, Bool.and_false, Bool.false_and, Bool.false_or, Bool.true_and]
            rfl
          · by_cases hin : i < n
            · have h32 : i < 32 := by omega
              have hlt2 : i - (64 - s.r.off.toNat) < n - (64 - s.r.off.toNat) := by omega
              simp only [hi, hin, h32, hlt2, decide_true, decide_false, Bool.not_false, Bool.and_self, Bool.true_and,
                Bool.false_and, Bool.or_false]
              congr 1; omega
            · have hlt2 : ¬ i - (64 - s.r.off.toNat) < n - (64 - s.r.off.toNat) := by omega
              simp only [hi, hin, hlt2, decide_false, Bool.false_and, Bool.and_false, Bool.or_false]
      · rw [harr.trans (if_neg hE), andThen_raised]
        refine ⟨{ s with r := ⟨s.totalSeg, 0#6⟩ }, ⟨rfl, ?_⟩, ?_⟩
        · rw [if_neg (by omega)]
        · rw [if_neg (by omega)]

/-- `readBit` is `readBits` of one bit (41_bitcursor.md R96). -/
theorem readBit_eq_readBits (s : State) : s.readBit = (s.readBits 1).andThen fun t v => .done t (v.setWidth 1) := by
  have hoff := off_lt s.r
  simp only [State.readBit, State.readBits]
  by_cases hx : s.r.exhausted s.totalSeg
  · rw [if_pos hx, if_pos hx]; rfl
  · rw [if_neg hx, if_neg hx, if_pos (show 1 ≤ 64 - s.r.off.toNat by omega)]
    by_cases h : s.r.off.toNat < 63
    · rw [if_pos h, if_pos (show 1 < 64 - s.r.off.toNat by omega)]; rfl
    · rw [if_neg h, if_neg (show ¬ 1 < 64 - s.r.off.toNat by omega)]
      cases s.arriveR <;> rfl

/-- Everything `readBit` can do through a well-placed cursor (41_bitcursor.md R94, R97). -/
theorem readBit_spec (s : State) (hr : s.r.inv s.totalSeg) :
    ∃ t, s.PassedBits t 1 ∧
      s.readBit = if s.r.pos + 1 < s.endPos then .done t (BitVec.ofBool (s.streamBit s.r.pos))
        else .raised t .bufferExhausted := by
  obtain ⟨t, ht, he⟩ := readBits_spec s 1 hr (Nat.le_refl 1) (by omega)
  refine ⟨t, ht, ?_⟩
  rw [readBit_eq_readBits, he]
  by_cases hf : s.r.pos + 1 < s.endPos
  · rw [if_pos hf, if_pos hf, andThen_done]
    congr 1
    cases h : s.streamBit s.r.pos <;> simp [State.streamField, h]
  · rw [if_neg hf, if_neg hf]; rfl

/-! ## Composing reads -/

/-- A read leaves the read cursor well placed. -/
theorem passedBits_inv {s t : State} {n : Nat} (h : s.PassedBits t n) : t.r.inv s.totalSeg := by
  have h3 := h.2
  have hend : s.endPos = 64 * s.totalSeg.toNat := rfl
  by_cases hf : s.r.pos + n < s.endPos
  · rw [if_pos hf] at h3; exact inv_of_pos_lt (by omega)
  · rw [if_neg hf] at h3; rw [h3]; exact inv_end _

theorem passedBits_totalSeg {s t : State} {n : Nat} (h : s.PassedBits t n) : t.totalSeg = s.totalSeg := by rw [h.1]

theorem passedBits_endPos {s t : State} {n : Nat} (h : s.PassedBits t n) : t.endPos = s.endPos := by
  show 64 * t.totalSeg.toNat = _; rw [passedBits_totalSeg h]; rfl

/-- A read changes no stream bit. -/
theorem passedBits_streamBit {s t : State} {n : Nat} (h : s.PassedBits t n) (p : Nat) : t.streamBit p = s.streamBit p := by
  rw [h.1]; rfl

theorem passedBits_streamField {s t : State} {n : Nat} (h : s.PassedBits t n) (p m : Nat) :
    t.streamField p m = s.streamField p m := streamField_congr s t p m fun j _ _ => passedBits_streamBit h j

/-- A read that ran off the end is also the read of any longer field. -/
theorem passedBits_longer {s t : State} {n m : Nat} (h : s.PassedBits t n) (hend : s.endPos ≤ s.r.pos + n) (hm : n ≤ m) :
    s.PassedBits t m := by
  have h2 := h.2
  rw [if_neg (by omega)] at h2
  exact ⟨h.1, by rw [if_neg (by omega)]; exact h2⟩

/-- A read that fitted, then another, is one read of both. -/
theorem passedBits_append {s t u : State} {n m : Nat} (h1 : s.PassedBits t n) (hfit : s.r.pos + n < s.endPos)
    (h2 : t.PassedBits u m) : s.PassedBits u (n + m) := by
  have hp := h1.2
  rw [if_pos hfit] at hp
  have h3 := h2.2
  rw [hp, passedBits_endPos h1, passedBits_totalSeg h1] at h3
  refine ⟨?_, ?_⟩
  · have e2 := h2.1
    rw [h1.1] at e2; exact e2
  · by_cases hf : s.r.pos + n + m < s.endPos
    · rw [if_pos hf] at h3; rw [if_pos (by omega)]; omega
    · rw [if_neg hf] at h3; rw [if_neg (by omega)]; exact h3

end Sys2Proof.Machine
end

