-- ==== Sys2Proof/Laws/Codec.lean ====
section
/-! SUPPORT. Everything the codec's shared operations can do: `encodeU32` writes one item as one field, `decodeU32` reads one
(42_codec.md R111, R112; 30_encoding.md R61). -/

namespace Sys2Proof.Machine

/-! ## Bit length -/

theorem leadingZeros_le (v : Value) (n : Nat) : leadingZeros v n ≤ n := by
  induction n with
  | zero => exact Nat.le_refl 0
  | succ n ih => simp only [leadingZeros]; split <;> omega

theorem leadingZeros_eq (v : Value) (n : Nat) (h : leadingZeros v n = n) : ∀ i, i < n → v.getLsbD i = false := by
  induction n with
  | zero => intro i hi; omega
  | succ n ih =>
    intro i hi
    simp only [leadingZeros] at h
    split at h
    · omega
    · next hb =>
      by_cases he : i = n
      · rw [he]; simpa using hb
      · exact ih (by omega) i (by omega)

theorem leadingZeros_zero (n : Nat) : leadingZeros 0#32 n = n := by
  induction n with
  | zero => rfl
  | succ n ih => simp [leadingZeros, ih]

theorem bitLength_le (v : Value) : bitLength v ≤ 32 := Nat.sub_le _ _

/-- Zero is the only value with no payload (42_codec.md R111). -/
theorem bitLength_eq_zero (v : Value) : bitLength v = 0 ↔ v = 0#32 := by
  constructor
  · intro h
    have hle := leadingZeros_le v 32
    have h32 : leadingZeros v 32 = 32 := by simp only [bitLength, clz32] at h; omega
    apply BitVec.eq_of_getLsbD_eq
    intro i hi
    rw [leadingZeros_eq v 32 h32 i hi]; simp
  · rintro rfl; simp only [bitLength, clz32, leadingZeros_zero]

/-! ## encodeU32 -/

/-- An exhausted write cursor: `encodeU32` raises and changes nothing (60_exceptions.md R160). -/
theorem encodeU32_exhausted (s : State) (v : Value) (h : s.w.exhausted s.totalSeg) :
    s.encodeU32 v = .raised s .bufferExhausted := by
  simp only [State.encodeU32, writeBit_exhausted s _ h, andThen_raised, ite_self]

/-- Everything `encodeU32` can do through a well-placed cursor (42_codec.md R111): the item of `v`, as one field. -/
theorem encodeU32_spec (s : State) (v : Value) (hw : s.w.inv s.totalSeg) :
    ∃ t, s.WroteBits t (wireItem v) (itemBits v) ∧ RamKept s t ∧
      s.encodeU32 v = if s.w.pos + itemBits v < s.endPos then .done t () else .raised t .bufferExhausted := by
  by_cases hv : v = 0#32
  · have hn : bitLength v = 0 := (bitLength_eq_zero v).mpr hv
    simp only [State.encodeU32, if_pos hn, wireItem, itemBits, if_pos hv]
    exact writeBit_spec s 0#1 hw
  · have hn : bitLength v ≠ 0 := fun h => hv ((bitLength_eq_zero v).mp h)
    have hle := bitLength_le v
    simp only [State.encodeU32, if_neg hn, wireItem, itemBits, if_neg hv]
    generalize bitLength v = n at *
    generalize hitem : 1 + 2 * (n - 1) + 64 * v.toNat = item at *
    have hflag : ∀ i, i < 1 → (1#1).toNat.testBit i = item.testBit i := by
      intro i hi
      have : i = 0 := by omega
      subst this
      simp only [Nat.testBit_zero]
      rw [decide_eq_true (show (1#1).toNat % 2 = 1 by rfl), decide_eq_true (show item % 2 = 1 by omega)]
    have hlen : ∀ i, i < 5 → (BitVec.ofNat 32 (n - 1)).toNat.testBit i = (item >>> 1).testBit i := by
      intro i hi
      have h1 : item >>> 1 = (n - 1) + 2 ^ 5 * v.toNat := by rw [Nat.shiftRight_eq_div_pow]; omega
      have h2 : (BitVec.ofNat 32 (n - 1)).toNat = n - 1 := by rw [BitVec.toNat_ofNat]; omega
      rw [h1, h2, Nat.add_comm, Nat.testBit_two_pow_mul_add _ (by omega : n - 1 < 2 ^ 5), if_pos hi]
    have hpay : ∀ i, i < n → v.toNat.testBit i = (item >>> (1 + 5)).testBit i := by
      intro i _
      have h1 : item >>> (1 + 5) = v.toNat := by rw [Nat.shiftRight_eq_div_pow]; omega
      rw [h1]
    obtain ⟨t1, ht1, hk1, he1⟩ := writeBit_spec s 1#1 hw
    have ht1 := wroteBits_congr ht1 hflag
    rw [he1]
    by_cases hf1 : s.w.pos + 1 < s.endPos
    · rw [if_pos hf1, andThen_done]
      have hp1 : t1.w.pos = s.w.pos + 1 := by have := ht1.2.2; rwa [if_pos hf1] at this
      have hT1 := wroteBits_totalSeg ht1
      have hE1 := wroteBits_endPos ht1
      obtain ⟨t2, ht2, hk2, he2⟩ := writeBits_spec t1 (BitVec.ofNat 32 (n - 1)) 5
        (by rw [hT1]; exact wroteBits_inv ht1) (by omega) (by omega)
      have h2 := wroteBits_append ht1 hf1 (wroteBits_congr ht2 hlen)
      have hk2 := RamKept_trans hk1 hT1 hk2
      rw [he2, hp1, hE1]
      by_cases hf2 : s.w.pos + 1 + 5 < s.endPos
      · rw [if_pos hf2, andThen_done]
        have hp2 : t2.w.pos = s.w.pos + (1 + 5) := by have := h2.2.2; rwa [if_pos (by omega)] at this
        have hT2 := wroteBits_totalSeg h2
        have hE2 := wroteBits_endPos h2
        obtain ⟨t3, ht3, hk3, he3⟩ := writeBits_spec t2 v n (by rw [hT2]; exact wroteBits_inv h2) (by omega) (by omega)
        have h3 := wroteBits_append h2 (by omega) (wroteBits_congr ht3 hpay)
        refine ⟨t3, h3, RamKept_trans hk2 hT2 hk3, ?_⟩
        rw [he3, hp2, hE2]
        by_cases hf3 : s.w.pos + (1 + 5) + n < s.endPos
        · rw [if_pos hf3, if_pos (by omega)]
        · rw [if_neg hf3, if_neg (by omega)]
      · rw [if_neg hf2, andThen_raised]
        refine ⟨t2, wroteBits_longer h2 (by omega) (by omega), hk2, ?_⟩
        rw [if_neg (by omega)]
    · rw [if_neg hf1, andThen_raised]
      refine ⟨t1, wroteBits_longer ht1 (by omega) (by omega), hk1, ?_⟩
      rw [if_neg (by omega)]

/-! ## decodeU32 -/

/-- An exhausted read cursor: `decodeU32` raises and changes nothing (60_exceptions.md R160). -/
theorem decodeU32_exhausted (s : State) (h : s.r.exhausted s.totalSeg) : s.decodeU32 = .raised s .bufferExhausted := by
  simp only [State.decodeU32, readBit_exhausted s h, andThen_raised]

/-- Everything `decodeU32` can do through a well-placed cursor (42_codec.md R112): the item at the read position. -/
theorem decodeU32_spec (s : State) (hr : s.r.inv s.totalSeg) :
    ∃ t, s.PassedBits t (s.itemBitsAt s.r.pos) ∧
      s.decodeU32 = if s.r.pos + s.itemBitsAt s.r.pos < s.endPos then .done t (s.itemAt s.r.pos)
        else .raised t .bufferExhausted := by
  obtain ⟨t1, ht1, he1⟩ := readBit_spec s hr
  simp only [State.decodeU32, he1]
  cases hb : s.streamBit s.r.pos with
  | false =>
    have hbits : s.itemBitsAt s.r.pos = 1 := by simp [State.itemBitsAt, hb]
    rw [hbits]
    refine ⟨t1, ht1, ?_⟩
    by_cases hf1 : s.r.pos + 1 < s.endPos
    · rw [if_pos hf1, if_pos hf1, andThen_done]; simp [State.itemAt, hb]
    · rw [if_neg hf1, if_neg hf1, andThen_raised]
  | true =>
    have hbits : s.itemBitsAt s.r.pos = 6 + s.payloadBitsAt s.r.pos := by simp [State.itemBitsAt, hb]
    have hitem : s.itemAt s.r.pos = BitVec.ofNat 32 (s.streamField (s.r.pos + 6) (s.payloadBitsAt s.r.pos)) := by
      simp [State.itemAt, hb]
    have hpay : s.payloadBitsAt s.r.pos = s.streamField (s.r.pos + 1) 5 + 1 := rfl
    have hlt := streamField_lt s (s.r.pos + 1) 5
    rw [hbits, hitem]
    generalize s.payloadBitsAt s.r.pos = n at *
    by_cases hf1 : s.r.pos + 1 < s.endPos
    · rw [if_pos hf1, andThen_done, if_neg (by decide)]
      have hp1 : t1.r.pos = s.r.pos + 1 := by have := ht1.2; rwa [if_pos hf1] at this
      have hT1 := passedBits_totalSeg ht1
      have hE1 := passedBits_endPos ht1
      obtain ⟨t2, ht2, he2⟩ := readBits_spec t1 5 (by rw [hT1]; exact passedBits_inv ht1) (by omega) (by omega)
      have h2 := passedBits_append ht1 hf1 ht2
      rw [he2, hp1, hE1, passedBits_streamField ht1]
      by_cases hf2 : s.r.pos + 1 + 5 < s.endPos
      · rw [if_pos hf2, andThen_done]
        have hp2 : t2.r.pos = s.r.pos + (1 + 5) := by have := h2.2; rwa [if_pos (by omega)] at this
        have hT2 := passedBits_totalSeg h2
        have hE2 := passedBits_endPos h2
        have hlen : (BitVec.ofNat 32 (s.streamField (s.r.pos + 1) 5)).toNat + 1 = n := by
          rw [BitVec.toNat_ofNat]; omega
        rw [hlen]
        obtain ⟨t3, ht3, he3⟩ := readBits_spec t2 n (by rw [hT2]; exact passedBits_inv h2) (by omega) (by omega)
        refine ⟨t3, passedBits_append h2 (by omega) ht3, ?_⟩
        rw [he3, hp2, hE2, passedBits_streamField h2]
        by_cases hf3 : s.r.pos + (1 + 5) + n < s.endPos
        · rw [if_pos hf3, if_pos (by omega)]
        · rw [if_neg hf3, if_neg (by omega)]
      · rw [if_neg hf2, andThen_raised]
        refine ⟨t2, passedBits_longer h2 (by omega) (by omega), ?_⟩
        rw [if_neg (by omega)]
    · rw [if_neg hf1, andThen_raised]
      refine ⟨t1, passedBits_longer ht1 (by omega) (by omega), ?_⟩
      rw [if_neg (by omega)]

end Sys2Proof.Machine
end

