-- ==== Sys2Proof/Laws/PerInstr.lean ====
section
/-! SUPPORT. The statements made once per constructor of Instr. -/

namespace Sys2Proof.Laws

/-- The encoding of a well-formed command selects its own row of the opcode table (30_encoding.md R53). -/
def EncodeSelectsRow.Statement (i : Instr) : Prop := i.wf = true → i.row ∈ opcodeTable ∧ i.row.selects (encode i) = true

/-- Masking a command word masks its three fields. -/
theorem command_and (op opMask : BitVec 8) (aux auxMask : BitVec 24) (data dataMask : BitVec 32) :
    (op ++ aux ++ data) &&& (opMask ++ auxMask ++ dataMask) = (op &&& opMask) ++ (aux &&& auxMask) ++ (data &&& dataMask) := by
  rw [BitVec.and_append, BitVec.and_append]

/-- A row whose fixed bits agree with the three fields selects the word. -/
theorem selects_of_fields (i : Instr) (op : BitVec 8) (aux auxMask auxBits : BitVec 24) (data dataMask dataBits : BitVec 32)
    (hm : i.row.mask = 0xFF#8 ++ auxMask ++ dataMask) (hb : i.row.bits = op ++ auxBits ++ dataBits)
    (ha : aux &&& auxMask = auxBits) (hd : data &&& dataMask = dataBits) : i.row.selects (op ++ aux ++ data) = true := by
  simp only [OpcodeRow.selects, hm, hb, command_and, ha, hd, beq_iff_eq]
  rw [show (0xFF#8) = BitVec.allOnes 8 from rfl, BitVec.and_allOnes]

theorem EncodeSelectsRow.create (cap : Value) : EncodeSelectsRow.Statement (.create cap) := fun _ =>
  ⟨by simp [opcodeTable, Instr.row], selects_of_fields _ _ _ 0xFFFFFF#24 0 _ 0#32 0 (by rfl) (by rfl) (by simp) (by simp)⟩

theorem EncodeSelectsRow.setbuf (len : Value) : EncodeSelectsRow.Statement (.setbuf len) := fun _ =>
  ⟨by simp [opcodeTable, Instr.row], selects_of_fields _ _ _ 0xFFFFFF#24 0 _ 0#32 0 (by rfl) (by rfl) (by simp) (by simp)⟩

theorem EncodeSelectsRow.bufrd (addr : Value) : EncodeSelectsRow.Statement (.bufrd addr) := fun _ =>
  ⟨by simp [opcodeTable, Instr.row], selects_of_fields _ _ _ 0xFFFFFF#24 0 _ 0#32 0 (by rfl) (by rfl) (by simp) (by simp)⟩

theorem EncodeSelectsRow.bufwr (addr : Value) (byte : Byte) : EncodeSelectsRow.Statement (.bufwr addr byte) := fun _ =>
  ⟨by simp [opcodeTable, Instr.row], selects_of_fields _ _ _ (0xFFFF#16 ++ 0#8) 0 _ 0#32 0 (by rfl) (by rfl) (by rw [BitVec.and_append]; simp) (by simp)⟩

theorem EncodeSelectsRow.bytecnt : EncodeSelectsRow.Statement .bytecnt := fun _ =>
  ⟨by simp [opcodeTable, Instr.row], selects_of_fields _ _ _ 0xFFFFFF#24 0 _ 0xFFFFFFFF#32 0 (by rfl) (by rfl) (by simp) (by simp)⟩

theorem EncodeSelectsRow.reset : EncodeSelectsRow.Statement .reset := fun _ =>
  ⟨by simp [opcodeTable, Instr.row], selects_of_fields _ _ _ 0xFFFFFF#24 0 _ 0xFFFFFFFF#32 0 (by rfl) (by rfl) (by simp) (by simp)⟩

theorem EncodeSelectsRow.rdsr (n : BitVec 8) : EncodeSelectsRow.Statement (.rdsr n) := fun _ =>
  ⟨by simp [opcodeTable, Instr.row], selects_of_fields _ _ _ (0xFFFF#16 ++ 0#8) 0 _ 0xFFFFFFFF#32 0 (by rfl) (by rfl) (by rw [BitVec.and_append]; simp) (by simp)⟩

theorem EncodeSelectsRow.wrbit (bit : BitVec 1) : EncodeSelectsRow.Statement (.wrbit bit) := fun _ =>
  ⟨by simp [opcodeTable, Instr.row], selects_of_fields _ _ _ 0xFFFFFF#24 0 _ (0x7FFFFFFF#31 ++ 0#1) 0 (by rfl) (by rfl) (by simp) (by rw [BitVec.and_append]; simp)⟩

theorem EncodeSelectsRow.wrbits (n : BitVec 5) (bits : Value) : EncodeSelectsRow.Statement (.wrbits n bits) := fun _ =>
  ⟨by simp [opcodeTable, Instr.row], selects_of_fields _ _ _ (0x7FFFF#19 ++ 0#5) 0 _ 0#32 0 (by rfl) (by rfl) (by rw [BitVec.and_append]; simp) (by simp)⟩

theorem EncodeSelectsRow.rdbit : EncodeSelectsRow.Statement .rdbit := fun _ =>
  ⟨by simp [opcodeTable, Instr.row], selects_of_fields _ _ _ 0xFFFFFF#24 0 _ 0xFFFFFFFF#32 0 (by rfl) (by rfl) (by simp) (by simp)⟩

theorem EncodeSelectsRow.rdbits (n : BitVec 5) : EncodeSelectsRow.Statement (.rdbits n) := fun _ =>
  ⟨by simp [opcodeTable, Instr.row], selects_of_fields _ _ _ (0x7FFFF#19 ++ 0#5) 0 _ 0xFFFFFFFF#32 0 (by rfl) (by rfl) (by rw [BitVec.and_append]; simp) (by simp)⟩

theorem EncodeSelectsRow.wrbool (b : BitVec 1) : EncodeSelectsRow.Statement (.wrbool b) := fun _ =>
  ⟨by simp [opcodeTable, Instr.row], selects_of_fields _ _ _ 0xFFFFFF#24 0 _ (0x7FFFFFFF#31 ++ 0#1) 0 (by rfl) (by rfl) (by simp) (by rw [BitVec.and_append]; simp)⟩

theorem EncodeSelectsRow.wru32 (v : Value) : EncodeSelectsRow.Statement (.wru32 v) := fun _ =>
  ⟨by simp [opcodeTable, Instr.row], selects_of_fields _ _ _ 0xFFFFFF#24 0 _ 0#32 0 (by rfl) (by rfl) (by simp) (by simp)⟩

theorem EncodeSelectsRow.wri32 (v : Value) : EncodeSelectsRow.Statement (.wri32 v) := fun _ =>
  ⟨by simp [opcodeTable, Instr.row], selects_of_fields _ _ _ 0xFFFFFF#24 0 _ 0#32 0 (by rfl) (by rfl) (by simp) (by simp)⟩

theorem EncodeSelectsRow.rdbool : EncodeSelectsRow.Statement .rdbool := fun _ =>
  ⟨by simp [opcodeTable, Instr.row], selects_of_fields _ _ _ 0xFFFFFF#24 0 _ 0xFFFFFFFF#32 0 (by rfl) (by rfl) (by simp) (by simp)⟩

theorem EncodeSelectsRow.rdu32 : EncodeSelectsRow.Statement .rdu32 := fun _ =>
  ⟨by simp [opcodeTable, Instr.row], selects_of_fields _ _ _ 0xFFFFFF#24 0 _ 0xFFFFFFFF#32 0 (by rfl) (by rfl) (by simp) (by simp)⟩

theorem EncodeSelectsRow.rdi32 : EncodeSelectsRow.Statement .rdi32 := fun _ =>
  ⟨by simp [opcodeTable, Instr.row], selects_of_fields _ _ _ 0xFFFFFF#24 0 _ 0xFFFFFFFF#32 0 (by rfl) (by rfl) (by simp) (by simp)⟩

theorem EncodeSelectsRow.setprec (places : BitVec 4) : EncodeSelectsRow.Statement (.setprec places) := fun _ =>
  ⟨by simp [opcodeTable, Instr.row], selects_of_fields _ _ _ (0xFFFFF#20 ++ 0#4) 0 _ 0xFFFFFFFF#32 0 (by rfl) (by rfl) (by rw [BitVec.and_append]; simp) (by simp)⟩

theorem EncodeSelectsRow.wrf32 (f : Value) : EncodeSelectsRow.Statement (.wrf32 f) := fun _ =>
  ⟨by simp [opcodeTable, Instr.row], selects_of_fields _ _ _ 0xFFFFFF#24 0 _ 0#32 0 (by rfl) (by rfl) (by simp) (by simp)⟩

theorem EncodeSelectsRow.rdf32 : EncodeSelectsRow.Statement .rdf32 := fun _ =>
  ⟨by simp [opcodeTable, Instr.row], selects_of_fields _ _ _ 0xFFFFFF#24 0 _ 0xFFFFFFFF#32 0 (by rfl) (by rfl) (by simp) (by simp)⟩

end Sys2Proof.Laws
end

