-- ==== Sys2Proof/Tests/Slice0.lean ====
section
/-! SUPPORT. Tests: command words and results written out from spec/ (95_test_vectors.md where a vector is named), and for each
statement of Certificates/Slice0/Obligations.lean with hypotheses a state that meets them, at the boundary of each clause. -/

namespace Sys2Proof.Tests

open Sys2Proof Sys2Proof.Machine

set_option Elab.async false

/-! ## Helpers -/

/-- A fresh buffer of `n` words: the state right after `CREATE (8*n)` from reset. -/
def fresh (n : Nat) : State :=
  { State.reset with ram := Memory.zeroWords n [], totalSeg := BitVec.ofNat 29 n, response := some (.ok 0) }

/-- The state with its write cursor at `(seg, off)`. -/
def writeAt (s : State) (seg : SegIndex) (off : BitOffset) : State := { s with w := ⟨seg, off⟩ }

/-- The state with its read cursor at `(seg, off)`. -/
def readAt (s : State) (seg : SegIndex) (off : BitOffset) : State := { s with r := ⟨seg, off⟩ }

/-- The state with bytes stored from address 0 up. -/
def withBytes (s : State) (bytes : List Byte) : State :=
  { s with ram := (bytes.zipIdx.foldr (fun b m => Memory.store m b.2 b.1) s.ram) }

/-- The next state, if the outcome is one. -/
def nextOf : Host.Outcome State Fault Refusal → Option State
  | .next t => some t
  | .fault _ => none
  | .refused _ => none

/-- What the host sees of one command: the response, then a view of the state it leaves. -/
def after {α : Type} (i : Instr) (s : State) (view : State → α) : Option (Option Response × α) :=
  (nextOf (exec i s)).map fun t => (t.response, view t)

/-- The bytes at addresses `0 .. n-1`. -/
def bytes (n : Nat) (s : State) : List Nat := (List.range n).map fun a => (s.byteAt a).toNat

/-- Both cursors as `(W.seg, W.off, R.seg, R.off)`. -/
def cursors (s : State) : Nat × Nat × Nat × Nat := (s.w.seg.toNat, s.w.off.toNat, s.r.seg.toNat, s.r.off.toNat)

/-! ## Well-formedness -/

theorem test_rdsr_six_is_ill_formed : (Instr.rdsr 6).wf = false := by decide

theorem test_rdsr_five_is_well_formed : (Instr.rdsr 5).wf = true := by decide

/-! ## Decoding, each word written out from 30_encoding.md R50 and R52 (V1.1, V1.2) -/

theorem test_decode_create : decode 0x010000000000000C#64 = .ok (.create 12) := by rfl
theorem test_decode_setbuf : decode 0x0200000000000010#64 = .ok (.setbuf 16) := by rfl
theorem test_decode_bufrd : decode 0x0300000000000009#64 = .ok (.bufrd 9) := by rfl
theorem test_decode_bufwr : decode 0x040000AB00000009#64 = .ok (.bufwr 9 0xAB) := by rfl
theorem test_decode_bytecnt : decode 0x0500000000000000#64 = .ok .bytecnt := by rfl
theorem test_decode_reset : decode 0x0600000000000000#64 = .ok .reset := by rfl
theorem test_decode_rdsr : decode 0x0700000400000000#64 = .ok (.rdsr 4) := by rfl
theorem test_decode_wrbit : decode 0x1000000000000001#64 = .ok (.wrbit 1) := by rfl
theorem test_decode_wrbits : decode 0x1100001D2AAAAAAA#64 = .ok (.wrbits 29 0x2AAAAAAA) := by rfl
theorem test_decode_rdbit : decode 0x1800000000000000#64 = .ok .rdbit := by rfl
theorem test_decode_rdbits : decode 0x1900001F00000000#64 = .ok (.rdbits 31) := by rfl
theorem test_decode_wrbool : decode 0x2000000000000001#64 = .ok (.wrbool 1) := by rfl
theorem test_decode_wru32 : decode 0x21000000FFFFFFFF#64 = .ok (.wru32 0xFFFFFFFF) := by rfl
theorem test_decode_wri32 : decode 0x22000000FFFFFFFE#64 = .ok (.wri32 0xFFFFFFFE) := by rfl
theorem test_decode_rdbool : decode 0x2800000000000000#64 = .ok .rdbool := by rfl
theorem test_decode_rdu32 : decode 0x2900000000000000#64 = .ok .rdu32 := by rfl
theorem test_decode_rdi32 : decode 0x2A00000000000000#64 = .ok .rdi32 := by rfl
theorem test_decode_setprec : decode 0x3000000200000000#64 = .ok (.setprec 2) := by rfl
theorem test_decode_wrf32 : decode 0x3100000040490FD0#64 = .ok (.wrf32 0x40490FD0) := by rfl
theorem test_decode_rdf32 : decode 0x3900000000000000#64 = .ok .rdf32 := by rfl

/-- V3.5: the bits of WRBITS above its length are ignored, not checked. -/
theorem test_decode_wrbits_upper_bits : decode 0x11000003FFFFFFF5#64 = .ok (.wrbits 3 0xFFFFFFF5) := by rfl

/-- V1.2: words with an unknown opcode. -/
theorem test_decode_unknown_opcodes :
    [0x0000000000000000#64, 0x0800000000000000#64, 0x1200000000000000#64, 0x3200000000000000#64, 0x3800000000000000#64,
      0xFF00000000000000#64].all (fun cw => decide ((decode cw).toOption = none) && !legalWord cw) = true := by decide

/-- V1.2: words with a must-be-zero bit set, or RDSR with `n = 6`. -/
theorem test_decode_reserved_bits :
    [0x0100000100000008#64, 0x0300000100000000#64, 0x0400010000000000#64, 0x0500000000000001#64, 0x0600000100000000#64,
      0x0700000600000000#64, 0x0700000000000001#64, 0x1000000000000002#64, 0x1100002000000001#64, 0x1800000000000001#64,
      0x1900002000000000#64, 0x2000000000000003#64, 0x2100000100000005#64, 0x2800000100000000#64, 0x3000001000000000#64,
      0x3000000200000001#64, 0x3100000100000000#64, 0x3900000000000001#64].all
      (fun cw => decide ((decode cw).toOption = none) && !legalWord cw) = true := by decide

theorem test_table_rows_are_distinct : (opcodeTable.map OpcodeRow.mnemonic).Nodup := by decide

theorem test_table_word_decodes : decodeTableWord 64 0x2200000000000005 = some (.wri32 5) := by decide

/-! ## Commands -/

/-- V2.2: `CREATE 9` makes two words. -/
theorem test_create_rounds_up :
    after (.create 9) (writeAt (fresh 1) 0 5) (fun s => (s.totalSeg.toNat, s.w.off.toNat, bytes 16 s)) =
      some (some (.ok 0), 2, 0, List.replicate 16 0) := by decide +kernel

/-- V2.2: `CREATE 65` with 8 words of RAM; `CREATE 0xFFFFFFFF` does not wrap. -/
theorem test_create_too_large :
    after (.create 65) (fresh 8) (·.totalSeg) = some (some (.error .invalidBuffer), 8) ∧
    after (.create 0xFFFFFFFF) (fresh 8) (·.totalSeg) = some (some (.error .invalidBuffer), 8) := by decide +kernel

/-- V2.4: SETBUF keeps RAM and resets both cursors. -/
theorem test_setbuf_keeps_ram :
    after (.setbuf 8) (readAt (writeAt (withBytes (fresh 2) [0xFF, 0x3F]) 0 38) 0 1)
      (fun s => (s.totalSeg.toNat, s.w.off.toNat + s.r.off.toNat, bytes 3 s)) =
      some (some (.ok 0), 1, 0, [0xFF, 0x3F, 0]) := by decide +kernel

/-- S8, V2.3: lengths 7, 12 and 72 (9 words of 8) are refused and change nothing. -/
theorem test_setbuf_invalid :
    [7, 12, 72, 0].map (fun len => after (.setbuf len) (writeAt (fresh 2) 0 38) (fun s => (s.totalSeg.toNat, s.w.off.toNat))) =
      List.replicate 4 (some (some (.error .invalidBuffer), 2, 38)) := by decide +kernel

/-- V2.5: `BUFRD 9` answers the byte, `BUFRD 16` of a 16-byte buffer does not exist. -/
theorem test_bufrd :
    after (.bufrd 1) (withBytes (fresh 2) [0, 0xAB]) (·.r.off) = some (some (.ok 0xAB), 0) ∧
    after (.bufrd 16) (fresh 2) (·.r.off) = some (some (.error .badAddress), 0) := by decide +kernel

/-- V2.5: BUFWR changes its byte alone; outside the buffer nothing is written. -/
theorem test_bufwr :
    after (.bufwr 9 0xAB) (fresh 2) (fun s => (s.wordRead 0, s.wordRead 1)) = some (some (.ok 0), 0, 0xAB00) ∧
    after (.bufwr 16 0xFF) (fresh 2) (fun s => s.ram.length) = some (some (.error .badAddress), 16) := by decide +kernel

/-- V2.6: BYTECNT by write cursor. -/
theorem test_bytecnt :
    [((0 : SegIndex), (0 : BitOffset)), (0, 1), (0, 7), (0, 8), (0, 17), (0, 63), (1, 0), (1, 34)].map
      (fun c => after .bytecnt (writeAt (fresh 2) c.1 c.2) (fun _ => ())) =
      [1, 1, 1, 2, 3, 8, 9, 13].map (fun v => some (some (.ok v), ())) := by decide +kernel

theorem test_reset_command :
    after .reset (readAt (writeAt (withBytes (fresh 1) [0xFF]) 1 0) 0 63) (fun s => (cursors s, bytes 1 s)) =
      some (some (.ok 0), (0, 0, 0, 0), [0xFF]) := by decide +kernel

theorem test_rdsr_each_register :
    [0, 1, 2, 3, 4, 5].map (fun n => after (.rdsr n) { readAt (writeAt (fresh 8) 3 17) 2 9 with factor := 1000 } (fun _ => ())) =
      [8, 3, 17, 2, 9, 1000].map (fun v => some (some (.ok v), ())) := by decide +kernel

/-- P3 step 5: the 64th bit of a 1-word buffer is stored and the command fails. -/
theorem test_wrbit_last_bit :
    after (.wrbit 1) (writeAt (fresh 1) 0 63) (fun s => (cursors s, bytes 8 s)) =
      some (some (.error .bufferExhausted), (1, 0, 0, 0), [0, 0, 0, 0, 0, 0, 0, 0x80]) := by decide +kernel

/-- V3.4: a field across a word boundary. -/
theorem test_wrbits_straddle :
    after (.wrbits 7 0xA5) (writeAt (fresh 2) 0 60) (fun s => (cursors s, s.byteAt 7, s.byteAt 8)) =
      some (some (.ok 0), (1, 4, 0, 0), 0x50, 0x0A) := by decide +kernel

/-- V3.1: a write replaces, it does not or. V3.3: a straddle off the end stores the low part only. -/
theorem test_wrbits_replaces_and_runs_off :
    after (.wrbits 3 0x5) (withBytes (fresh 1) [0xFF]) (bytes 1) = some (some (.ok 0), [0xF5]) ∧
    after (.wrbits 7 0xFF) (writeAt (fresh 1) 0 60) (fun s => (cursors s, s.byteAt 7)) =
      some (some (.error .bufferExhausted), (1, 0, 0, 0), 0xF0) := by decide +kernel

/-- P1 step 7's bit, and P3 step 10: the last bit cannot be read. -/
theorem test_rdbit :
    after .rdbit (withBytes (fresh 1) [0x83]) cursors = some (some (.ok 1), 0, 0, 0, 1) ∧
    after .rdbit (readAt (fresh 1) 0 63) cursors = some (some (.error .bufferExhausted), 0, 0, 1, 0) := by decide +kernel

/-- V3.4 read back; V2.5: exact fill of a word that is not the last succeeds. -/
theorem test_rdbits :
    after (.rdbits 7) (readAt (withBytes (fresh 2) [0, 0, 0, 0, 0, 0, 0, 0x50, 0x0A]) 0 60) cursors = some (some (.ok 0xA5), 0, 0, 1, 4) ∧
    after (.rdbits 31) (readAt (fresh 2) 0 32) cursors = some (some (.ok 0), 0, 0, 1, 0) := by decide +kernel

/-- S2. -/
theorem test_wrbool : after (.wrbool 1) (fresh 1) (fun s => (cursors s, bytes 1 s)) = some (some (.ok 0), (0, 1, 0, 0), [1]) := by
  decide +kernel

/-- V4.1. -/
theorem test_wru32 :
    after (.wru32 0x12345678) (fresh 1) (fun s => (cursors s, bytes 5 s)) =
      some (some (.ok 0), (0, 35, 0, 0), [0x39, 0x9E, 0x15, 0x8D, 0x04]) := by decide +kernel

/-- V4.3, V4.4: an item cut short by the end, and one that ends on the last bit. -/
theorem test_wru32_at_the_end :
    after (.wru32 0xFF) (writeAt (fresh 1) 0 60) (fun s => (s.w.seg, s.w.off, s.byteAt 7)) =
      some (some (.error .bufferExhausted), 1, 0, 0xF0) ∧
    after (.wru32 1) (writeAt (fresh 1) 0 57) (fun s => (s.w.seg, s.w.off, s.byteAt 7)) =
      some (some (.error .bufferExhausted), 1, 0, 0x82) := by decide +kernel

/-- V4.2. -/
theorem test_wri32 :
    after (.wri32 0xFFFE1DC0) (fresh 1) (fun s => (cursors s, bytes 4 s)) =
      some (some (.ok 0), (0, 24, 0, 0), [0xE3, 0x1F, 0xF1, 0]) := by decide +kernel

theorem test_rdbool : after .rdbool (withBytes (fresh 1) [0x83]) cursors = some (some (.ok 1), 0, 0, 0, 1) := by decide +kernel

/-- P1 step 8, and the non-canonical item of V4.5. -/
theorem test_rdu32 :
    after .rdu32 (readAt (withBytes (fresh 1) [0x83, 0x86, 0x01]) 0 1) cursors = some (some (.ok 1), 0, 0, 0, 8) ∧
    after .rdu32 (withBytes (fresh 1) [0x4B, 0x00]) cursors = some (some (.ok 1), 0, 0, 0, 12) := by decide +kernel

/-- P1 step 10. -/
theorem test_rdi32 :
    after .rdi32 (readAt (withBytes (fresh 1) [0x83, 0x86, 0x01]) 0 9) cursors = some (some (.ok 0xFFFFFFFE), 0, 0, 0, 17) := by
  decide +kernel

/-- V5.1. -/
theorem test_setprec :
    [0, 1, 2, 3, 6, 9].map (fun p => after (.setprec p) (fresh 1) (·.factor)) =
      [1, 10, 100, 1000, 1000000, 1000000000].map (fun v => some (some (.ok 0), v)) := by decide +kernel

/-- P4 step 5. -/
theorem test_wrf32 :
    after (.wrf32 0x40490FD0) { fresh 1 with factor := 100 } (fun s => (cursors s, bytes 3 s)) =
      some (some (.ok 0), (0, 16, 0, 0), [0x13, 0x9D, 0]) := by decide +kernel

/-- P4 step 7; V5.4: without a factor the command fails first. -/
theorem test_rdf32 :
    after .rdf32 (withBytes { fresh 1 with factor := 100 } [0x13, 0x9D]) cursors = some (some (.ok 0x4048F5C3), 0, 0, 0, 16) ∧
    after .rdf32 State.reset cursors = some (some (.error .precisionNotConfigured), 0, 0, 0, 0) := by decide +kernel

/-! ## Functions -/

/-- V5.2: the exact product truncated, the row 0.29 among them, and the unspecified rows. -/
theorem test_quantize :
    [(0x40490FD0, 100), (0xBF80A3D7, 100), (0x3E947AE1, 100), (0x80000000, 100), (0x00000001, 1000000000), (0x4B800000, 1),
      (0xC009705F, 1000000000), (0x40200000, 1000000000), (0x7F800000, 1), (0x7FC00000, 1)].map (fun p => quantize p.1 p.2) =
      [some 314, some (-100), some 28, some 0, some 0, some 16777216, some (-2147483587), none, none, none] := by decide +kernel

/-- V5.3. -/
theorem test_dequantize :
    [(314, 100), (-100, 100), (0, 100), (1, 10), (1, 1000000000), (0x7FFFFFFF, 1), (0x80000000, 1), (16777217, 1)].map
      (fun p => dequantize p.1 p.2) =
      [0x4048F5C3, 0xBF800000, 0, 0x3DCCCCCD, 0x3089705F, 0x4F000000, 0xCF000000, 0x4B800000] := by decide +kernel

/-- S3 and R113's extremes. -/
theorem test_zigzag :
    [0, 0xFFFFFFFF, 1, 0xFFFFFFFE, 2, 0x7FFFFFFF, 0x80000000].map zigzag = [0, 1, 2, 3, 4, 0xFFFFFFFE, 0xFFFFFFFF] := by decide

/-- R110. -/
theorem test_bitLength :
    [0, 1, 2, 3, 255, 256, 0x7FFFFFFF, 0x80000000, 0xFFFFFFFF].map bitLength = [0, 1, 2, 2, 8, 9, 31, 32, 32] := by decide +kernel

/-- R57: a decimal literal, a length, and R58's LOADBUF. -/
theorem test_assemble :
    assemble (.wrf32 (.decimal false 314159 5)) = some [.wrf32 0x40490FD0] ∧
    assemble (.wrbits 30 0x2AAAAAAA) = some [.wrbits 29 0x2AAAAAAA] ∧ assemble (.wrbits 33 0) = none ∧
    assemble (.loadbuf [0x4B, 0]) = some [.setbuf 2, .bufwr 0 0x4B, .bufwr 1 0] ∧
    assemble (.wri32 (-2)) = some [.wri32 0xFFFFFFFE] ∧ assemble (.dumpbuf 2) = some [.bufrd 0, .bufrd 1] := by decide +kernel

/-- The response word of `BufferExhausted` carries code 2. -/
theorem test_response_word : (Response.error .bufferExhausted).word 7 = 0x0200000007#40 := by decide

/-! ## Steps -/

theorem test_step_illegal_word :
    (nextOf (step (State.reset.withFetchWord 64 0))).map (fun s => (s.response, s.inbox)) =
      some (some (.error .illegalCommand), []) := by decide

theorem test_step_first_command :
    (nextOf (step (State.reset.withFetchWord 64 0x0500000000000000))).map (·.response) = some (some (.ok 1)) := by decide

/-- R171: hardware reset clears `FACTOR`, and the RAM it leaves is not the RAM before. -/
theorem test_step_hardware_reset :
    (nextOf (step { fresh 1 with factor := 100, inbox := [.hardwareReset] })).map
      (fun s => (s.factor, s.totalSeg, s.ram.length, s.resets)) = some (0, 0, 0, 1) := by decide

/-! ## Witnesses: a state and operands that meet the hypotheses of each statement -/

theorem witness_DecodeInvertsEncode : (Instr.rdsr 5).wf = true := by decide

theorem witness_EncodeInvertsDecode : decode 0x0700000500000000#64 = .ok (.rdsr 5) := by rfl

/-- R57's ranges at their ends: the largest operand in range and the smallest out of it, for each kind of operand. -/
theorem witness_AssembledLinesAreWellFormed :
    (assemble (.create 0xFFFFFFFF)).isSome = true ∧ assemble (.create 0x100000000) = none ∧
    (assemble (.bufwr 0 255)).isSome = true ∧ assemble (.bufwr 0 256) = none ∧
    (assemble (.wrbits 32 0)).isSome = true ∧ assemble (.wrbits 33 0) = none ∧ assemble (.wrbits 0 0) = none ∧
    (assemble (.wri32 (-2147483648))).isSome = true ∧ assemble (.wri32 (-2147483649)) = none ∧
    assemble (.wri32 2147483648) = none ∧ (assemble (.setprec 15)).isSome = true ∧ assemble (.setprec 16) = none ∧
    (assemble (.loadbuf [255])).isSome = true ∧ assemble (.loadbuf [256]) = none ∧ assemble (.rdsr 6) = none := by decide +kernel

theorem witness_StepRunsDecodedCommand :
    decode 0x1000000000000001#64 = .ok (.wrbit 1) ∧
    ((fresh 1).issue 0x1000000000000001#64).inbox = .command 0x1000000000000001#64 :: [] := ⟨rfl, rfl⟩

theorem witness_IllegalWordChangesNothing :
    ((fresh 1).issue 0x0700000600000000#64).inbox = .command 0x0700000600000000#64 :: [] ∧
    legalWord 0x0700000600000000#64 = false := by decide

theorem witness_SilentHostChangesNothing : (fresh 1).inbox = [] := by decide

theorem witness_HardwareResetClearsTheBlock :
    ({ fresh 1 with inbox := [.hardwareReset, .command 5] } : State).inbox = .hardwareReset :: [.command 5] := by decide

theorem witness_NoBufferAnswers :
    State.reset.totalSeg = 0 ∧ State.reset.w = ⟨0, 0⟩ ∧ State.reset.r = ⟨0, 0⟩ ∧ State.reset.factor = 0 ∧
    isWriter (.wru32 5) = true ∧ .precisionNotConfigured ∉ raisable (.wru32 5) ∧
    isReader .rdi32 = true ∧ .precisionNotConfigured ∉ raisable .rdi32 ∧ (5#8).toNat ≤ 5 := by decide

/-- A buffer of all the RAM, the write cursor exhausted, and a command waiting. -/
theorem witness_StepKeepsInvariant :
    ((writeAt (fresh 8) 8 0).issue 0x1000000000000001#64).Inv ∧
    ∃ t, step ((writeAt (fresh 8) 8 0).issue 0x1000000000000001#64) = .next t := ⟨by decide +kernel, _, rfl⟩

theorem witness_CursorsNeverMoveBack :
    rewindsCursors (.wrbits 31 0) = false ∧ (nextOf (exec (.wrbits 31 0) (writeAt (fresh 2) 0 63))).isSome = true := by
  decide +kernel

theorem witness_WritersIgnoreReadCursor :
    isWriter (.wrf32 0x3F800000) = true ∧ ∃ t, exec (.wrf32 0x3F800000) (fresh 1) = .next t := ⟨by decide, _, rfl⟩

theorem witness_ReadersIgnoreWriteCursor : isReader .rdbit = true ∧ ∃ t, exec .rdbit State.reset = .next t := ⟨by decide, _, rfl⟩

theorem witness_StateWrittenOnlyByNamedCommands :
    (∃ t, exec .bytecnt (fresh 1) = .next t) ∧ (∀ cap, Instr.bytecnt ≠ .create cap) ∧ (∀ len, Instr.bytecnt ≠ .setbuf len) ∧
    (∀ places, Instr.bytecnt ≠ .setprec places) ∧ (∀ addr byte, Instr.bytecnt ≠ .bufwr addr byte) ∧
    isWriter .bytecnt = false ∧ isReader .bytecnt = false ∧ rewindsCursors .bytecnt = false :=
  ⟨⟨_, rfl⟩, nofun, nofun, nofun, nofun, rfl, rfl, rfl⟩

/-- Word 1 lies outside a buffer of one word. -/
theorem witness_WordsOutsideBufferKept :
    (∀ cap, Instr.setbuf 16 ≠ .create cap) ∧ (∃ t, exec (.setbuf 16) (fresh 1) = .next t) ∧ 8 * (fresh 1).totalSeg.toNat ≤ 8 :=
  ⟨nofun, ⟨_, rfl⟩, by decide⟩

/-- Bytes 0 and 2 lie outside an 8-bit field at position 8. -/
theorem witness_WritersKeepOtherBytes :
    isWriter (.wrbits 7 0xFF) = true ∧ (nextOf (exec (.wrbits 7 0xFF) (writeAt (fresh 1) 0 8))).isSome = true ∧
    8 * 0 + 8 ≤ (writeAt (fresh 1) 0 8).w.pos ∧
    (writeAt (fresh 1) 0 8).w.pos + movedBits (writeAt (fresh 1) 0 8) (.wrbits 7 0xFF) ≤ 8 * 2 := by decide +kernel

theorem witness_ErrorsComeOnlyFromNamedCommands :
    (Instr.bufrd 8).wf = true ∧
    (nextOf (exec (.bufrd 8) (fresh 1))).map (·.response) = some (some (.error .badAddress)) := by decide +kernel

theorem witness_PreciseErrorsChangeNothing :
    (nextOf (exec (.setbuf 7) (fresh 1))).map (·.response) = some (some (.error .invalidBuffer)) ∧
    ErrorKind.invalidBuffer ≠ .bufferExhausted := by decide +kernel

theorem witness_ExhaustionLeavesCursorAtEnd :
    (writeAt (fresh 1) 0 63).w.inv (fresh 1).totalSeg ∧ (writeAt (fresh 1) 0 63).r.inv (fresh 1).totalSeg ∧
    (nextOf (exec (.wrbit 1) (writeAt (fresh 1) 0 63))).map (·.response) = some (some (.error .bufferExhausted)) ∧
    isWriter (.wrbit 1) = true ∧
    (readAt (fresh 1) 0 63).w.inv (fresh 1).totalSeg ∧ (readAt (fresh 1) 0 63).r.inv (fresh 1).totalSeg ∧
    (nextOf (exec .rdbit (readAt (fresh 1) 0 63))).map (·.response) = some (some (.error .bufferExhausted)) ∧
    isReader .rdbit = true := by decide +kernel

theorem witness_ExhaustedCursorStaysExhausted :
    .precisionNotConfigured ∉ raisable (.wrbit 1) ∧ isWriter (.wrbit 1) = true ∧
    (writeAt (fresh 1) 1 0).w.exhausted (fresh 1).totalSeg ∧
    ({ readAt (fresh 1) 1 0 with factor := 1 } : State).factor ≠ 0 ∧ isReader .rdf32 = true ∧
    (readAt (fresh 1) 1 0).r.exhausted (fresh 1).totalSeg := by decide

/-- Nine places are the most that cure it. -/
theorem witness_FloatCommandsNeedFactor : (fresh 1).factor = 0 ∧ (9#4).toNat ≤ 9 := by decide

/-- Capacities 1 and 64 fit 8 words; 0 and 65 do not. -/
theorem witness_CreateMakesZeroedBuffer :
    1 ≤ ((1 : Value).toNat + 7) / 8 ∧ ((64 : Value).toNat + 7) / 8 ≤ (fresh 1).maxSegments.toNat ∧
    (0 : Value).toNat = 0 ∧ (fresh 1).maxSegments.toNat < ((65 : Value).toNat + 7) / 8 := by decide

/-- Lengths 8 and 64 conform; 0, 7 and 72 do not. -/
theorem witness_SetbufDeclaresBuffer :
    ((64 : Value).toNat ≠ 0 ∧ (64 : Value).toNat % 8 = 0 ∧ (64 : Value).toNat / 8 ≤ (fresh 1).maxSegments.toNat) ∧
    (0 : Value).toNat = 0 ∧ (7 : Value).toNat % 8 ≠ 0 ∧ (fresh 1).maxSegments.toNat < (72 : Value).toNat / 8 := by decide

/-- Addresses 7 and 8 of a buffer of one word. -/
theorem witness_BufrdAnswersByte :
    (7 : Value).toNat < 8 * (fresh 1).totalSeg.toNat ∧ 8 * (fresh 1).totalSeg.toNat ≤ (8 : Value).toNat := by decide

theorem witness_BufwrStoresByte :
    (7 : Value).toNat < 8 * (fresh 1).totalSeg.toNat ∧ 8 * (fresh 1).totalSeg.toNat ≤ (8 : Value).toNat := by decide

theorem witness_BytecntAnswersFormula : (writeAt (fresh 1) 0x10000000 0).w.seg.toNat ≤ 2 ^ 28 := by decide

/-- Offsets 63 and 8: off and on a byte boundary. -/
theorem witness_BytecntOvercountsOnByteBoundary :
    (∃ t, exec .bytecnt (writeAt (fresh 1) 0 63) = .next t) ∧ (writeAt (fresh 1) 0 63).w.seg.toNat ≤ 2 ^ 28 ∧
    (writeAt (fresh 1) 0 63).w.off.toNat % 8 ≠ 0 ∧ (∃ t, exec .bytecnt (writeAt (fresh 1) 0 8) = .next t) ∧
    (writeAt (fresh 1) 0 8).w.seg.toNat ≤ 2 ^ 28 ∧ (writeAt (fresh 1) 0 8).w.off.toNat % 8 = 0 :=
  ⟨⟨_, rfl⟩, by decide, by decide, ⟨_, rfl⟩, by decide, by decide⟩

theorem witness_RdsrAnswersRegister : 5 < (6#8).toNat := by decide

/-- Eight bytes conform; one byte does not. -/
theorem witness_LoadbufFillsBuffer :
    (assemble (.loadbuf [1, 2, 3, 4, 5, 6, 7, 8])).isSome = true ∧ [1, 2, 3, 4, 5, 6, 7, 8].length % 8 = 0 ∧
    [1, 2, 3, 4, 5, 6, 7, 8].length / 8 ≤ (fresh 1).maxSegments.toNat ∧
    (assemble (.loadbuf [1])).isSome = true ∧ [1].length % 8 ≠ 0 := by decide +kernel

/-- All eight bytes of a buffer of one word. -/
theorem witness_DumpbufAnswersBytes :
    (assemble (.dumpbuf 8)).isSome = true ∧ 8 ≤ 8 * (fresh 1).totalSeg.toNat := by decide +kernel

theorem witness_ByteAndWordViewsAreOneStorage : 7 < 8 := by decide

theorem witness_MemReadGivesWhatMemWriteWrote : 0 < 1 ∧ 1 + 1 ≤ 2 := by decide

/-- Positions 62 and 63 of a buffer of one word: one bit fits, one bit ends it. -/
theorem witness_OneBitWritesStoreTheirBit :
    (writeAt (fresh 1) 0 62).w.inv (fresh 1).totalSeg ∧ (writeAt (fresh 1) 0 62).w.pos + 1 < (fresh 1).endPos ∧
    (writeAt (fresh 1) 0 63).w.inv (fresh 1).totalSeg ∧ (fresh 1).endPos ≤ (writeAt (fresh 1) 0 63).w.pos + 1 := by decide

/-- Lengths 31 and 32 at position 32 of a buffer of one word. -/
theorem witness_WrbitsStoresField :
    (writeAt (fresh 1) 0 32).w.inv (fresh 1).totalSeg ∧
    (writeAt (fresh 1) 0 32).w.pos + ((30#5).toNat + 1) < (writeAt (fresh 1) 0 32).endPos ∧
    (writeAt (fresh 1) 0 32).endPos ≤ (writeAt (fresh 1) 0 32).w.pos + ((31#5).toNat + 1) := by decide

theorem witness_OneBitReadsAnswerTheirBit :
    (readAt (fresh 1) 0 62).r.inv (fresh 1).totalSeg ∧ (readAt (fresh 1) 0 62).r.pos + 1 < (fresh 1).endPos ∧
    (readAt (fresh 1) 0 63).r.inv (fresh 1).totalSeg ∧ (fresh 1).endPos ≤ (readAt (fresh 1) 0 63).r.pos + 1 := by decide

theorem witness_RdbitsAnswersField :
    (readAt (fresh 1) 0 32).r.inv (fresh 1).totalSeg ∧
    (readAt (fresh 1) 0 32).r.pos + ((30#5).toNat + 1) < (readAt (fresh 1) 0 32).endPos ∧
    (readAt (fresh 1) 0 32).endPos ≤ (readAt (fresh 1) 0 32).r.pos + ((31#5).toNat + 1) := by decide

theorem witness_BitLengthBoundsValue : (1 : Value) ≠ 0 := by decide

/-- The 7-bit item of 1 at positions 56 and 57 of a buffer of one word (V4.4). -/
theorem witness_Wru32StoresItem :
    (writeAt (fresh 1) 0 56).w.inv (fresh 1).totalSeg ∧ (writeAt (fresh 1) 0 56).w.pos + itemBits 1 < (fresh 1).endPos ∧
    (writeAt (fresh 1) 0 57).w.inv (fresh 1).totalSeg ∧ (fresh 1).endPos ≤ (writeAt (fresh 1) 0 57).w.pos + itemBits 1 := by
  decide +kernel

/-- The 7-bit item of -1 at the same positions. -/
theorem witness_Wri32StoresZigzagItem :
    (writeAt (fresh 1) 0 56).w.inv (fresh 1).totalSeg ∧
    (writeAt (fresh 1) 0 56).w.pos + itemBits (zigzag 0xFFFFFFFF) < (fresh 1).endPos ∧
    (writeAt (fresh 1) 0 57).w.inv (fresh 1).totalSeg ∧
    (fresh 1).endPos ≤ (writeAt (fresh 1) 0 57).w.pos + itemBits (zigzag 0xFFFFFFFF) := by decide +kernel

/-- In a zero-filled buffer an item takes one bit, which fits at position 62 and not at 63. -/
theorem witness_Rdu32AnswersItem :
    (readAt (fresh 1) 0 62).r.inv (fresh 1).totalSeg ∧ (readAt (fresh 1) 0 62).r.pos + (fresh 1).itemBitsAt 62 < (fresh 1).endPos ∧
    (readAt (fresh 1) 0 63).r.inv (fresh 1).totalSeg ∧
    (fresh 1).endPos ≤ (readAt (fresh 1) 0 63).r.pos + (fresh 1).itemBitsAt 63 := by decide +kernel

theorem witness_Rdi32AnswersUnzigzagItem :
    (readAt (fresh 1) 0 62).r.inv (fresh 1).totalSeg ∧ (readAt (fresh 1) 0 62).r.pos + (fresh 1).itemBitsAt 62 < (fresh 1).endPos ∧
    (readAt (fresh 1) 0 63).r.inv (fresh 1).totalSeg ∧
    (fresh 1).endPos ≤ (readAt (fresh 1) 0 63).r.pos + (fresh 1).itemBitsAt 63 := by decide +kernel

theorem witness_WrittenItemsReadBack :
    (fresh 1).w.inv (fresh 1).totalSeg ∧ (fresh 1).r = (fresh 1).w ∧
    (execAllOk ([Item.bool 1, .i32 0xFFFFFFFE, .field 3 0xF5].map Item.writer) (fresh 1)).isSome = true := by decide +kernel

theorem witness_SetprecSetsPowerOfTen : (9#4).toNat ≤ 9 ∧ 10 ≤ (10#4).toNat := by decide

theorem witness_QuantizeTruncatesExactProduct : floatSpecial 0x7F800000 ∧ ¬ floatSpecial 0x7F7FFFFF := by decide

theorem witness_QuantizeIsOdd : quantize 0x3F800000 100 = some 100 ∧ (100 : Value) ≠ 0x80000000 := by decide +kernel

/-- -1.005 with factor 100 (R134's example of truncation for a negative value). -/
theorem witness_QuantizeLosesLessThanOneStep : (100 : Value) ≠ 0 ∧ quantize 0xBF80A3D7 100 = some (-100) := by decide +kernel

theorem witness_DequantizeIsNearestEven :
    (1 : Value) ≠ 0 ∧ (0 : Value) = 0 ∧ (16777217 : Value) ≠ 0 ∧ ¬ floatSpecial 0x4B800001 := by decide

/-- 1.0 with factor 100: the 14-bit item of 200 at positions 49 and 50. -/
theorem witness_Wrf32StoresQuantizedItem :
    ({ writeAt (fresh 1) 0 49 with factor := 100 } : State).factor ≠ 0 ∧ quantize 0x3F800000 100 = some 100 ∧
    (writeAt (fresh 1) 0 49).w.inv (fresh 1).totalSeg ∧
    (writeAt (fresh 1) 0 49).w.pos + itemBits (zigzag 100) < (fresh 1).endPos ∧
    (writeAt (fresh 1) 0 50).w.inv (fresh 1).totalSeg ∧
    (fresh 1).endPos ≤ (writeAt (fresh 1) 0 50).w.pos + itemBits (zigzag 100) := by decide +kernel

theorem witness_Wrf32GoesOnWithUnspecifiedInteger :
    (fresh 1).w.inv (fresh 1).totalSeg ∧ ({ fresh 1 with factor := 100 } : State).factor ≠ 0 ∧ quantize 0x7FC00000 100 = none := by
  decide +kernel

theorem witness_Rdf32AnswersQuotient :
    (fresh 1).factor = 0 ∧ ({ readAt (fresh 1) 0 62 with factor := 100 } : State).factor ≠ 0 ∧ (readAt (fresh 1) 0 62).r.inv (fresh 1).totalSeg ∧
    (readAt (fresh 1) 0 62).r.pos + (fresh 1).itemBitsAt 62 < (fresh 1).endPos ∧
    (readAt (fresh 1) 0 63).r.inv (fresh 1).totalSeg ∧
    (fresh 1).endPos ≤ (readAt (fresh 1) 0 63).r.pos + (fresh 1).itemBitsAt 63 := by decide +kernel

theorem witness_FloatReadsBackQuantized :
    ({ fresh 1 with factor := 100 } : State).w.inv (fresh 1).totalSeg ∧ (fresh 1).r = (fresh 1).w ∧
    ({ fresh 1 with factor := 100 } : State).factor ≠ 0 ∧ quantize 0xBF80A3D7 100 = some (-100) ∧
    (fresh 1).w.pos + itemBits (zigzag (-100)) < (fresh 1).endPos := by decide +kernel

/-- The decimal 0.1, and the largest finite value. -/
theorem witness_DecimalLiteralIsNearestFloat :
    |(if false then -1 else 1) * (((1 : Nat) : Rat) / 10 ^ 1)| ≤ (2 ^ 24 - 1) * 2 ^ 104 ∧
    |(if true then -1 else 1) * ((((2 ^ 24 - 1) * 2 ^ 104 : Nat) : Rat) / 10 ^ 0)| ≤ (2 ^ 24 - 1) * 2 ^ 104 := by
  norm_num

end Sys2Proof.Tests
end

section
/-! SUPPORT. Proofs about steps and the invariant (00_scope.md R5, R6; 10_state.md R11, R12, R15). The invariant is carried through
the operations that commands share, then through each command, then through the step that takes an event from the port. -/

namespace Sys2Proof.Machine

/-! ## What a step does with each event -/

theorem nextEvent_nil {s : State} (h : s.inbox = []) : s.nextEvent = none := by
  simp only [State.nextEvent, h]

theorem nextEvent_cons {s : State} {e : HostEvent} {rest : List HostEvent} (h : s.inbox = e :: rest) :
    s.nextEvent = some (e, { s with inbox := rest }) := by
  simp only [State.nextEvent, h]

theorem step_silent {s : State} (h : s.inbox = []) : step s = .next s := by
  simp only [step, nextEvent_nil h]

theorem step_hardwareReset {s : State} {rest : List HostEvent} (h : s.inbox = .hardwareReset :: rest) :
    step s = .next (State.hardwareReset { s with inbox := rest }) := by
  simp only [step, nextEvent_cons h]

theorem step_command_ok {s : State} {cw : CommandWord} {rest : List HostEvent} {i : Instr}
    (h : s.inbox = .command cw :: rest) (hd : decode cw = .ok i) : step s = exec i { s with inbox := rest } := by
  simp only [step, nextEvent_cons h, hd]

theorem step_command_error {s : State} {cw : CommandWord} {rest : List HostEvent} {e : DecodeError}
    (h : s.inbox = .command cw :: rest) (hd : decode cw = .error e) :
    step s = .next (State.refuseWord { s with inbox := rest }) := by
  simp only [step, nextEvent_cons h, hd]

/-- A table word given in all its 64 bits is that command word. -/
theorem tableWord_toNat (cw : CommandWord) : tableWord 64 cw.toNat = cw := by
  rw [tableWord, Nat.mod_eq_of_lt cw.isLt, BitVec.ofNat_toNat, BitVec.setWidth_eq]

/-- The inbox of a state whose host issues a whole 64-bit table word next. -/
theorem withFetchWord_inbox (s : State) (cw : CommandWord) :
    (s.withFetchWord 64 cw.toNat).inbox = .command cw :: s.inbox := by
  rw [State.withFetchWord, tableWord_toNat, issue_inbox]

/-! ## The state that part of a command leaves -/

/-- The state that a part of a command left, whether it went on or raised. -/
def Result.state {α : Type} : Result α → State
  | .done s _ => s
  | .raised s _ => s

/-- Where success and failure leave one state, as the laws of the primitives say, that is the state left. -/
theorem state_ite {α : Type} (c : Prop) [Decidable c] (t : State) (v : α) (e : ErrorKind) :
    (if c then Result.done t v else .raised t e).state = t := by
  split <;> rfl

/-- Converting the value read leaves the same state. -/
theorem state_andThen_done {α β : Type} (x : Result α) (f : α → β) :
    (x.andThen fun s v => .done s (f v)).state = x.state := by
  cases x <;> rfl

/-! ## The invariant and changes of the state -/

/-- A cursor at `(0,0)` is well placed in every buffer. -/
theorem inv_zero (total : SegIndex) : (⟨0#29, 0#6⟩ : Cursor).inv total := ⟨Nat.zero_le _, fun _ => rfl⟩

theorem State.Inv.w_inv {s : State} (h : s.Inv) : s.w.inv s.totalSeg := by
  obtain ⟨-, -, -, hw, -, -, -⟩ := h
  exact hw

theorem State.Inv.r_inv {s : State} (h : s.Inv) : s.r.inv s.totalSeg := by
  obtain ⟨-, -, -, -, hr, -, -⟩ := h
  exact hr

theorem State.Inv.ram_wf {s : State} (h : s.Inv) : s.ram.wf = true := by
  obtain ⟨-, -, -, -, -, hwf, -⟩ := h
  exact hwf

theorem State.Inv.ram_below {s : State} (h : s.Inv) : s.ram.below (8 * s.maxSegments.toNat) = true := by
  obtain ⟨-, -, -, -, -, -, hbelow⟩ := h
  exact hbelow

/-- What a change within the same buffer owes the invariant: both cursors well placed and RAM's form kept. -/
theorem Inv_of_sameBuffer {s t : State} (h : s.Inv) (hm : t.maxSegments = s.maxSegments) (hT : t.totalSeg = s.totalSeg)
    (hw : t.w.inv s.totalSeg) (hr : t.r.inv s.totalSeg) (hk : RamKept s t) : t.Inv := by
  obtain ⟨hpos, hmax, htotal, -, -, hwf, hbelow⟩ := h
  obtain ⟨keepWf, keepBelow⟩ := hk
  rw [State.Inv, hm, hT]
  exact ⟨hpos, hmax, htotal, hw, hr, keepWf hwf, keepBelow _ htotal hbelow⟩

theorem Inv_wroteBits {s t : State} {bits n : Nat} (h : s.Inv) (ht : s.WroteBits t bits n) (hk : RamKept s t) : t.Inv := by
  exact Inv_of_sameBuffer h (by rw [ht.1]) (wroteBits_totalSeg ht) (wroteBits_inv ht) (by rw [ht.1]; exact h.r_inv) hk

theorem Inv_passedBits {s t : State} {n : Nat} (h : s.Inv) (ht : s.PassedBits t n) : t.Inv := by
  have hk : RamKept s t := by rw [ht.1]; exact RamKept_refl s
  exact Inv_of_sameBuffer h (by rw [ht.1]) (passedBits_totalSeg ht) (by rw [ht.1]; exact h.w_inv) (passedBits_inv ht) hk

/-- A new buffer of `n` words that RAM can hold, over RAM contents `m` in canonical form, with both cursors rewound. -/
theorem Inv_newBuffer {s : State} {n : Nat} {m : Memory} (h : s.Inv) (hn : n ≤ s.maxSegments.toNat) (hwf : m.wf = true)
    (hbelow : m.below (8 * s.maxSegments.toNat) = true) :
    (State.rewind { s with totalSeg := BitVec.ofNat 29 n, ram := m }).Inv := by
  obtain ⟨hpos, hmax, -, -, -, -, -⟩ := h
  have htotal : BitVec.ofNat 29 n ≤ s.maxSegments := by
    rw [BitVec.le_def, BitVec.toNat_ofNat]
    exact Nat.le_trans (Nat.mod_le _ _) hn
  exact ⟨hpos, hmax, htotal, inv_zero _, inv_zero _, hwf, hbelow⟩

theorem Inv_rewind {s : State} (h : s.Inv) : s.rewind.Inv := by
  obtain ⟨hpos, hmax, htotal, -, -, hwf, hbelow⟩ := h
  exact ⟨hpos, hmax, htotal, inv_zero _, inv_zero _, hwf, hbelow⟩

theorem Inv_hardwareReset {s : State} (h : s.Inv) : s.hardwareReset.Inv := by
  obtain ⟨hpos, hmax, -, -, -, -, -⟩ := h
  exact ⟨hpos, hmax, Nat.zero_le _, inv_zero _, inv_zero _, reset_ram_wf, rfl⟩

/-- A write of one byte inside the buffer. -/
theorem Inv_memWrite_byte {s : State} (h : s.Inv) (addr : Value) (byte : Byte) (ha : s.inBuffer addr) :
    (s.memWrite addr.toNat 1 byte).Inv := by
  have hk : RamKept s (s.memWrite addr.toNat 1 byte) :=
    ⟨write_wf _ _ _ _, fun k hk hb => write_below _ _ _ _ hb (by omega)⟩
  exact Inv_of_sameBuffer h rfl rfl h.w_inv h.r_inv hk

/-- Drawing a free integer only counts the draw. -/
theorem Inv_quantized {s : State} (h : s.Inv) (f : Value) : (s.quantized f).1.Inv := by
  rw [State.quantized]
  split
  · exact h
  · exact h

/-! ## The invariant and the shared operations on the stream -/

theorem Inv_writeBits {s : State} (h : s.Inv) (v : Value) (n : Nat) (h1 : 1 ≤ n) (hn : n ≤ 32) :
    (s.writeBits v n).state.Inv := by
  obtain ⟨t, ht, hk, he⟩ := writeBits_spec s v n h.w_inv h1 hn
  rw [he, state_ite]
  exact Inv_wroteBits h ht hk

theorem Inv_writeBit {s : State} (h : s.Inv) (b : BitVec 1) : (s.writeBit b).state.Inv := by
  rw [writeBit_eq_writeBits]
  exact Inv_writeBits h _ 1 (Nat.le_refl 1) (by decide)

theorem Inv_encodeU32 {s : State} (h : s.Inv) (v : Value) : (s.encodeU32 v).state.Inv := by
  obtain ⟨t, ht, hk, he⟩ := encodeU32_spec s v h.w_inv
  rw [he, state_ite]
  exact Inv_wroteBits h ht hk

theorem Inv_readBits {s : State} (h : s.Inv) (n : Nat) (h1 : 1 ≤ n) (hn : n ≤ 32) : (s.readBits n).state.Inv := by
  obtain ⟨t, ht, he⟩ := readBits_spec s n h.r_inv h1 hn
  rw [he, state_ite]
  exact Inv_passedBits h ht

theorem Inv_readBit {s : State} (h : s.Inv) : s.readBit.state.Inv := by
  rw [readBit_eq_readBits, state_andThen_done]
  exact Inv_readBits h 1 (Nat.le_refl 1) (by decide)

theorem Inv_decodeU32 {s : State} (h : s.Inv) : s.decodeU32.state.Inv := by
  obtain ⟨t, ht, he⟩ := decodeU32_spec s h.r_inv
  rw [he, state_ite]
  exact Inv_passedBits h ht

/-- The length of a raw field is a length the primitives are meant for (41_bitcursor.md R93, R95). -/
theorem fieldLength_bounds (lenMinusOne : BitVec 5) : 1 ≤ fieldLength lenMinusOne ∧ fieldLength lenMinusOne ≤ 32 :=
  ⟨Nat.le_add_left _ _, lenMinusOne.isLt⟩

/-! ## The invariant and the commands -/

/-- The state an outcome goes on with, if any, has the invariant. -/
def LeavesInv (o : Host.Outcome State Fault Refusal) : Prop := ∀ t, o = .next t → t.Inv

theorem leavesInv_next {s : State} (h : s.Inv) : LeavesInv (.next s) := by
  rintro t ⟨⟩
  exact h

/-- Ending a command only sets the response, which is no part of the invariant. -/
theorem leavesInv_finish {x : Result Value} (h : x.state.Inv) : LeavesInv x.finish := by
  cases x with
  | done s v => exact leavesInv_next h
  | raised s e => exact leavesInv_next h

theorem leavesInv_finishUnit {x : Result Unit} (h : x.state.Inv) : LeavesInv x.finishUnit := by
  cases x with
  | done s v => exact leavesInv_next h
  | raised s e => exact leavesInv_next h

/-- Ending a command with a converted value, as the readers do. -/
theorem leavesInv_finish_andThen {α : Type} {x : Result α} (f : α → Value) (h : x.state.Inv) :
    LeavesInv (x.andThen fun s v => .done s (f v)).finish :=
  leavesInv_finish (by rw [state_andThen_done]; exact h)

section
variable {s : State} (h : s.Inv)
include h

theorem leavesInv_execCreate (cap : Value) : LeavesInv (execCreate cap s) := by
  simp only [execCreate]
  split
  · exact leavesInv_next h
  · next hfits =>
    have hn : segmentsFor cap ≤ s.maxSegments.toNat := by omega
    have hzero := zeroWords_below s.ram _ h.ram_below (Nat.mul_le_mul_left 8 hn)
    have hnew := Inv_newBuffer h hn (zeroWords_wf _ _ h.ram_wf) hzero
    exact leavesInv_next hnew

theorem leavesInv_execSetbuf (len : Value) : LeavesInv (execSetbuf len s) := by
  rw [execSetbuf]
  split
  · exact leavesInv_next h
  · split
    · exact leavesInv_next h
    · next hfits =>
      have hnew := Inv_newBuffer h (Nat.le_of_not_lt hfits) h.ram_wf h.ram_below
      exact leavesInv_next hnew

theorem leavesInv_execBufrd (addr : Value) : LeavesInv (execBufrd addr s) := by
  rw [execBufrd]
  split
  · exact leavesInv_next h
  · exact leavesInv_next h

theorem leavesInv_execBufwr (addr : Value) (byte : Byte) : LeavesInv (execBufwr addr byte s) := by
  rw [execBufwr]
  split
  · next ha => exact leavesInv_next (Inv_memWrite_byte h addr byte ha)
  · exact leavesInv_next h

theorem leavesInv_execRdsr (n : BitVec 8) : LeavesInv (execRdsr n s) := by
  rw [execRdsr]
  split
  · exact leavesInv_next h
  · exact leavesInv_next h

theorem leavesInv_execSetprec (places : BitVec 4) : LeavesInv (execSetprec places s) := by
  rw [execSetprec]
  split
  · exact leavesInv_next h
  · exact leavesInv_next h

theorem leavesInv_execWrf32 (f : Value) : LeavesInv (execWrf32 f s) := by
  rw [execWrf32]
  split
  · exact leavesInv_next h
  · exact leavesInv_finishUnit (Inv_encodeU32 (Inv_quantized h f) _)

theorem leavesInv_execRdf32 : LeavesInv (execRdf32 s) := by
  rw [execRdf32]
  split
  · exact leavesInv_next h
  · exact leavesInv_finish_andThen _ (Inv_decodeU32 h)

/-- Every command keeps the invariant. -/
theorem leavesInv_exec (i : Instr) : LeavesInv (exec i s) := by
  cases i with
  | create cap => exact leavesInv_execCreate h cap
  | setbuf len => exact leavesInv_execSetbuf h len
  | bufrd addr => exact leavesInv_execBufrd h addr
  | bufwr addr byte => exact leavesInv_execBufwr h addr byte
  | bytecnt => exact leavesInv_next h
  | reset =>
    have hrewind := Inv_rewind h
    exact leavesInv_next hrewind
  | rdsr n => exact leavesInv_execRdsr h n
  | wrbit bit => exact leavesInv_finishUnit (Inv_writeBit h bit)
  | wrbits lenMinusOne bits =>
    obtain ⟨h1, hn⟩ := fieldLength_bounds lenMinusOne
    exact leavesInv_finishUnit (Inv_writeBits h bits _ h1 hn)
  | rdbit => exact leavesInv_finish_andThen _ (Inv_readBit h)
  | rdbits lenMinusOne =>
    obtain ⟨h1, hn⟩ := fieldLength_bounds lenMinusOne
    exact leavesInv_finish (Inv_readBits h _ h1 hn)
  | wrbool b => exact leavesInv_finishUnit (Inv_writeBit h b)
  | wru32 v => exact leavesInv_finishUnit (Inv_encodeU32 h v)
  | wri32 v => exact leavesInv_finishUnit (Inv_encodeU32 h (zigzag v))
  | rdbool => exact leavesInv_finish_andThen _ (Inv_readBit h)
  | rdu32 => exact leavesInv_finish (Inv_decodeU32 h)
  | rdi32 => exact leavesInv_finish_andThen _ (Inv_decodeU32 h)
  | setprec places => exact leavesInv_execSetprec h places
  | wrf32 f => exact leavesInv_execWrf32 h f
  | rdf32 => exact leavesInv_execRdf32 h

/-- Every event of the port keeps the invariant, and so does a silent host; what waits in the inbox is no part of it. -/
theorem leavesInv_step : LeavesInv (step s) := by
  cases hin : s.inbox with
  | nil => rw [step_silent hin]; exact leavesInv_next h
  | cons e rest =>
    have hrest : State.Inv { s with inbox := rest } := h
    cases e with
    | hardwareReset => rw [step_hardwareReset hin]; exact leavesInv_next (Inv_hardwareReset hrest)
    | command cw =>
      cases hd : decode cw with
      | ok i => rw [step_command_ok hin hd]; exact leavesInv_exec hrest i
      | error e => rw [step_command_error hin hd]; exact leavesInv_next hrest

end

/-! ## The obligations on steps and the invariant -/

/-- Settles O14: the invariant is carried through every command (`leavesInv_exec`) and every event (`leavesInv_step`). -/
theorem stepKeepsInvariant : Obligations.StepKeepsInvariant :=
  fun _ t h ht => leavesInv_step h t ht

/-- Settles O7: a word put in front of the port is taken from it again before it is executed. -/
theorem stepRunsDecodedCommand : Obligations.StepRunsDecodedCommand := by
  intro s cw i hd
  have hissued : step (s.withFetchWord 64 cw.toNat) = exec i s := step_command_ok (withFetchWord_inbox s cw) hd
  exact ⟨fun _ hin => step_command_ok hin hd, hissued⟩

/-- Settles O9: with no event in the port there is nothing to take. -/
theorem silentHostChangesNothing : Obligations.SilentHostChangesNothing :=
  fun _ hin => step_silent hin

/-- Settles O15: no buffer, both cursors at `(0,0)`, no byte of RAM listed, and the model's `MAX_SEGMENTS` of 8 in range. -/
theorem resetMeetsInvariant : Obligations.ResetMeetsInvariant := by
  have hmax : 1 ≤ State.reset.maxSegments.toNat ∧ State.reset.maxSegments.toNat ≤ 2 ^ 28 := by decide
  obtain ⟨hpos, hle⟩ := hmax
  exact ⟨hpos, hle, Nat.zero_le _, inv_zero _, inv_zero _, reset_ram_wf, rfl⟩

end Sys2Proof.Machine
end

section
/-! SUPPORT. Proofs about the state (10_state.md): the values of hardware reset, what each command can change of the block, and
that each side of the stream is blind to the other side's cursor. What a command can do is said once, in `exec_effect`. -/

namespace Sys2Proof.Machine

/-! ## RAM after hardware reset -/

theorem byteAt_reset (a : Nat) : State.reset.byteAt a = Config.ramAtReset 0 a := rfl

theorem byteAt_hardwareReset (s : State) (a : Nat) : s.hardwareReset.byteAt a = Config.ramAtReset (s.resets + 1) a := rfl

/-! ## What moving bits through a cursor can change -/

/-- The eight stream bits of a byte determine it (20_memory.md R33). -/
theorem byteAt_eq_of_streamBit {s t : State} {a : Nat} (h : ∀ j, 8 * a ≤ j → j < 8 * a + 8 → t.streamBit j = s.streamBit j) :
    t.byteAt a = s.byteAt a := by
  refine BitVec.eq_of_getLsbD_eq fun i hi => ?_
  have hbit := h (8 * a + i) (by omega) (by omega)
  rw [State.streamBit, State.streamBit] at hbit
  rwa [show (8 * a + i) / 8 = a by omega, show (8 * a + i) % 8 = i by omega] at hbit

/-- A cursor that the entry guard lets through is well placed, whatever the state it stands in. -/
theorem inv_of_not_exhausted {c : Cursor} {total : SegIndex} (h : ¬ c.exhausted total) : c.inv total :=
  inv_of_pos_lt (by
    have hseg : c.seg.toNat < total.toNat := seg_lt_of_not_exhausted h
    have hoff := off_lt c
    rw [Cursor.pos]; omega)

/-- `t` is `s` after a part of a write-side command: only RAM inside the buffer and `W` have changed, and `W` has not moved
back. -/
structure MovedW (s t : State) : Prop where
  frame : t = { s with ram := t.ram, w := t.w }
  pos_le : s.w.pos ≤ t.w.pos
  outside : ∀ a, 8 * s.totalSeg.toNat ≤ a → t.byteAt a = s.byteAt a

/-- `t` is `s` after a part of a read-side command: only `R` has changed, and it has not moved back. -/
structure MovedR (s t : State) : Prop where
  frame : t = { s with r := t.r }
  pos_le : s.r.pos ≤ t.r.pos

theorem MovedW_refl (s : State) : MovedW s s := ⟨rfl, Nat.le_refl _, fun _ _ => rfl⟩

theorem MovedR_refl (s : State) : MovedR s s := ⟨rfl, Nat.le_refl _⟩

/-- The law of the position (41_bitcursor.md R97) moves no well-placed cursor back. -/
theorem pos_le_of_moved {c d : Cursor} {total : SegIndex} {n : Nat} (hc : c.inv total)
    (h : if c.pos + n < 64 * total.toNat then d.pos = c.pos + n else d = ⟨total, 0#6⟩) : c.pos ≤ d.pos := by
  split at h
  · omega
  · rw [h, pos_end]; exact pos_le_end hc

theorem MovedW_of_wroteBits {s t : State} {bits n : Nat} (hw : s.w.inv s.totalSeg) (h : s.WroteBits t bits n) :
    MovedW s t := by
  obtain ⟨hframe, hbits, hmove⟩ := h
  refine ⟨hframe, pos_le_of_moved hw hmove, fun a ha => byteAt_eq_of_streamBit fun j hj _ => ?_⟩
  have hend : s.endPos ≤ j := by rw [State.endPos]; omega
  rw [hbits, if_neg (by omega)]

theorem MovedR_of_passedBits {s t : State} {n : Nat} (hr : s.r.inv s.totalSeg) (h : s.PassedBits t n) : MovedR s t := by
  obtain ⟨hframe, hmove⟩ := h
  exact ⟨hframe, pos_le_of_moved hr hmove⟩

theorem MovedW_writeBits (s : State) (v : Value) (n : Nat) (h1 : 1 ≤ n) (hn : n ≤ 32) : MovedW s (s.writeBits v n).state := by
  by_cases hx : s.w.exhausted s.totalSeg
  · rw [writeBits_exhausted s v n hx]; exact MovedW_refl s
  · have hw := inv_of_not_exhausted hx
    obtain ⟨t, ht, -, he⟩ := writeBits_spec s v n hw h1 hn
    rw [he, state_ite]
    exact MovedW_of_wroteBits hw ht

theorem MovedW_writeBit (s : State) (b : BitVec 1) : MovedW s (s.writeBit b).state := by
  rw [writeBit_eq_writeBits]
  exact MovedW_writeBits s _ 1 (Nat.le_refl 1) (by decide)

theorem MovedW_encodeU32 (s : State) (v : Value) : MovedW s (s.encodeU32 v).state := by
  by_cases hx : s.w.exhausted s.totalSeg
  · rw [encodeU32_exhausted s v hx]; exact MovedW_refl s
  · have hw := inv_of_not_exhausted hx
    obtain ⟨t, ht, -, he⟩ := encodeU32_spec s v hw
    rw [he, state_ite]
    exact MovedW_of_wroteBits hw ht

theorem MovedR_readBits (s : State) (n : Nat) (h1 : 1 ≤ n) (hn : n ≤ 32) : MovedR s (s.readBits n).state := by
  by_cases hx : s.r.exhausted s.totalSeg
  · rw [readBits_exhausted s n hx]; exact MovedR_refl s
  · have hr := inv_of_not_exhausted hx
    obtain ⟨t, ht, he⟩ := readBits_spec s n hr h1 hn
    rw [he, state_ite]
    exact MovedR_of_passedBits hr ht

theorem MovedR_readBit (s : State) : MovedR s s.readBit.state := by
  rw [readBit_eq_readBits, state_andThen_done]
  exact MovedR_readBits s 1 (Nat.le_refl 1) (by decide)

theorem MovedR_decodeU32 (s : State) : MovedR s s.decodeU32.state := by
  by_cases hx : s.r.exhausted s.totalSeg
  · rw [decodeU32_exhausted s hx]; exact MovedR_refl s
  · have hr := inv_of_not_exhausted hx
    obtain ⟨t, ht, he⟩ := decodeU32_spec s hr
    rw [he, state_ite]
    exact MovedR_of_passedBits hr ht

/-! ## What each command can change -/

/-- Everything a command can do to the block, up to the values it computes: it only answers, or it changes the elements the spec
names it for. -/
inductive Effect (s : State) : Instr → State → Prop where
  /-- A query, or an error raised before anything was done. -/
  | answered (i : Instr) (response : Option Response) : Effect s i { s with response := response }
  /-- CREATE (40_buffer.md R70). -/
  | created (cap : Value) (total : SegIndex) (ram : Memory) (response : Option Response) :
      Effect s (.create cap) { s.rewind with totalSeg := total, ram := ram, response := response }
  /-- SETBUF (40_buffer.md R71). -/
  | declared (len : Value) (total : SegIndex) (response : Option Response) :
      Effect s (.setbuf len) { s.rewind with totalSeg := total, response := response }
  /-- RESET (40_buffer.md R75). -/
  | rewound (response : Option Response) : Effect s .reset { s.rewind with response := response }
  /-- BUFWR of a byte of the buffer (40_buffer.md R73). -/
  | stored (addr : Value) (byte : Byte) (response : Option Response) (haddr : s.inBuffer addr) :
      Effect s (.bufwr addr byte) { s.memWrite addr.toNat 1 byte with response := response }
  /-- SETPREC (43_quantizer.md R131). -/
  | configured (places : BitVec 4) (factor : Value) (draws : Nat) (response : Option Response) :
      Effect s (.setprec places) { s with factor := factor, draws := draws, response := response }
  /-- A write-side command, which may first draw a free integer (43_quantizer.md R132). -/
  | wrote (i : Instr) (t : State) (draws : Nat) (response : Option Response) (hi : isWriter i = true)
      (hmoved : MovedW { s with draws := draws } t) : Effect s i { t with response := response }
  /-- A read-side command. -/
  | passed (i : Instr) (t : State) (response : Option Response) (hi : isReader i = true) (hmoved : MovedR s t) :
      Effect s i { t with response := response }

/-- The outcome `o` of command `i` is a next state with an effect the command may have. -/
def HasEffect (s : State) (i : Instr) (o : Host.Outcome State Fault Refusal) : Prop := ∃ t, o = .next t ∧ Effect s i t

theorem hasEffect_next {s t : State} {i : Instr} (h : Effect s i t) : HasEffect s i (.next t) := ⟨t, rfl, h⟩

/-- A write-side command ends in the state its last part left. -/
theorem hasEffect_finishUnit {s : State} {i : Instr} {x : Result Unit} (draws : Nat) (hi : isWriter i = true)
    (h : MovedW { s with draws := draws } x.state) : HasEffect s i x.finishUnit := by
  cases x with
  | done t v => exact hasEffect_next (.wrote i t draws _ hi h)
  | raised t e => exact hasEffect_next (.wrote i t draws _ hi h)

/-- A read-side command ends in the state its last part left. -/
theorem hasEffect_finish {s : State} {i : Instr} {x : Result Value} (hi : isReader i = true) (h : MovedR s x.state) :
    HasEffect s i x.finish := by
  cases x with
  | done t v => exact hasEffect_next (.passed i t _ hi h)
  | raised t e => exact hasEffect_next (.passed i t _ hi h)

/-- Ending a read-side command with a converted value. -/
theorem hasEffect_finish_andThen {α : Type} {s : State} {i : Instr} {x : Result α} (f : α → Value) (hi : isReader i = true)
    (h : MovedR s x.state) : HasEffect s i (x.andThen fun s v => .done s (f v)).finish :=
  hasEffect_finish hi (by rw [state_andThen_done]; exact h)

/-- Drawing a free integer changes nothing but the count of draws. -/
theorem quantized_frame (s : State) (f : Value) : (s.quantized f).1 = { s with draws := (s.quantized f).1.draws } := by
  rw [State.quantized]
  split
  · rfl
  · rfl

section
variable (s : State)

theorem hasEffect_execCreate (cap : Value) : HasEffect s (.create cap) (execCreate cap s) := by
  simp only [execCreate]
  split
  · exact hasEffect_next (.answered _ _)
  · exact hasEffect_next (.created cap _ _ _)

theorem hasEffect_execSetbuf (len : Value) : HasEffect s (.setbuf len) (execSetbuf len s) := by
  rw [execSetbuf]
  split
  · exact hasEffect_next (.answered _ _)
  · split
    · exact hasEffect_next (.answered _ _)
    · exact hasEffect_next (.declared len _ _)

theorem hasEffect_execBufrd (addr : Value) : HasEffect s (.bufrd addr) (execBufrd addr s) := by
  rw [execBufrd]
  split
  · exact hasEffect_next (.answered _ _)
  · exact hasEffect_next (.answered _ _)

theorem hasEffect_execBufwr (addr : Value) (byte : Byte) : HasEffect s (.bufwr addr byte) (execBufwr addr byte s) := by
  rw [execBufwr]
  split
  · next haddr => exact hasEffect_next (.stored addr byte _ haddr)
  · exact hasEffect_next (.answered _ _)

theorem hasEffect_execRdsr (n : BitVec 8) : HasEffect s (.rdsr n) (execRdsr n s) := by
  rw [execRdsr]
  split
  · exact hasEffect_next (.answered _ _)
  · exact hasEffect_next (.answered _ _)

theorem hasEffect_execSetprec (places : BitVec 4) : HasEffect s (.setprec places) (execSetprec places s) := by
  rw [execSetprec]
  split
  · exact hasEffect_next (.configured places _ s.draws _)
  · exact hasEffect_next (.configured places _ _ _)

theorem hasEffect_execWrf32 (f : Value) : HasEffect s (.wrf32 f) (execWrf32 f s) := by
  rw [execWrf32]
  split
  · exact hasEffect_next (.answered _ _)
  · have hmoved := MovedW_encodeU32 (s.quantized f).1 (zigzag (s.quantized f).2)
    exact hasEffect_finishUnit (s.quantized f).1.draws rfl (by rwa [← quantized_frame])

theorem hasEffect_execRdf32 : HasEffect s .rdf32 (execRdf32 s) := by
  rw [execRdf32]
  split
  · exact hasEffect_next (.answered _ _)
  · exact hasEffect_finish_andThen _ rfl (MovedR_decodeU32 s)

/-- Every command answers with a next state, and with an effect it may have. -/
theorem hasEffect_exec (i : Instr) : HasEffect s i (exec i s) := by
  cases i with
  | create cap => exact hasEffect_execCreate s cap
  | setbuf len => exact hasEffect_execSetbuf s len
  | bufrd addr => exact hasEffect_execBufrd s addr
  | bufwr addr byte => exact hasEffect_execBufwr s addr byte
  | bytecnt => exact hasEffect_next (.answered _ _)
  | reset => exact hasEffect_next (.rewound _)
  | rdsr n => exact hasEffect_execRdsr s n
  | wrbit bit => exact hasEffect_finishUnit s.draws rfl (MovedW_writeBit s bit)
  | wrbits lenMinusOne bits =>
    obtain ⟨h1, hn⟩ := fieldLength_bounds lenMinusOne
    exact hasEffect_finishUnit s.draws rfl (MovedW_writeBits s bits _ h1 hn)
  | rdbit => exact hasEffect_finish_andThen _ rfl (MovedR_readBit s)
  | rdbits lenMinusOne =>
    obtain ⟨h1, hn⟩ := fieldLength_bounds lenMinusOne
    exact hasEffect_finish rfl (MovedR_readBits s _ h1 hn)
  | wrbool b => exact hasEffect_finishUnit s.draws rfl (MovedW_writeBit s b)
  | wru32 v => exact hasEffect_finishUnit s.draws rfl (MovedW_encodeU32 s v)
  | wri32 v => exact hasEffect_finishUnit s.draws rfl (MovedW_encodeU32 s (zigzag v))
  | rdbool => exact hasEffect_finish_andThen _ rfl (MovedR_readBit s)
  | rdu32 => exact hasEffect_finish rfl (MovedR_decodeU32 s)
  | rdi32 => exact hasEffect_finish_andThen _ rfl (MovedR_decodeU32 s)
  | setprec places => exact hasEffect_execSetprec s places
  | wrf32 f => exact hasEffect_execWrf32 s f
  | rdf32 => exact hasEffect_execRdf32 s

end

/-- The inversion of `exec`: the next state of a command has one of the effects the command may have. -/
theorem exec_effect {s t : State} {i : Instr} (h : exec i s = .next t) : Effect s i t := by
  obtain ⟨u, hu, heffect⟩ := hasEffect_exec s i
  rw [hu] at h
  cases h
  exact heffect

/-! ## Changes of the state that a part of a command cannot see -/

/-- Change the state that a part of a command left. -/
def Result.mapState {α : Type} (f : State → State) : Result α → Result α
  | .done s v => .done (f s) v
  | .raised s e => .raised (f s) e

/-- A change that the next part cannot see passes through the joined command. -/
theorem andThen_mapState {α β : Type} {f : State → State} {g g' : State → α → Result β}
    (hg : ∀ s v, g' (f s) v = (g s v).mapState f) (x : Result α) :
    (x.mapState f).andThen g' = (x.andThen g).mapState f := by
  cases x with
  | done s v => exact hg s v
  | raised s e => rfl

/-- The change touches no response and does not depend on it. -/
def KeepsResponse (f : State → State) : Prop :=
  ∀ (s : State) (response : Option Response), f { s with response := response } = { f s with response := response }

theorem finishUnit_mapState {f : State → State} (hf : KeepsResponse f) {x y : Result Unit} {t : State}
    (hy : y = x.mapState f) (h : x.finishUnit = .next t) : y.finishUnit = .next (f t) := by
  subst hy
  cases x with
  | done s v => cases h; exact congrArg _ (hf s _).symm
  | raised s e => cases h; exact congrArg _ (hf s _).symm

theorem finish_mapState {f : State → State} (hf : KeepsResponse f) {x y : Result Value} {t : State}
    (hy : y = x.mapState f) (h : x.finish = .next t) : y.finish = .next (f t) := by
  subst hy
  cases x with
  | done s v => cases h; exact congrArg _ (hf s _).symm
  | raised s e => cases h; exact congrArg _ (hf s _).symm

/-- The state with another read cursor. -/
def State.withR (s : State) (c : Cursor) : State := { s with r := c }

/-- The state with another write cursor. -/
def State.withW (s : State) (c : Cursor) : State := { s with w := c }

theorem keepsResponse_withR (c : Cursor) : KeepsResponse (·.withR c) := fun _ _ => rfl

theorem keepsResponse_withW (c : Cursor) : KeepsResponse (·.withW c) := fun _ _ => rfl

/-! ## The write side does not see the read cursor -/

section
variable (c : Cursor) (s : State)

@[simp] theorem withR_totalSeg : (s.withR c).totalSeg = s.totalSeg := rfl
@[simp] theorem withR_w : (s.withR c).w = s.w := rfl
@[simp] theorem withR_r : (s.withR c).r = c := rfl
@[simp] theorem withR_factor : (s.withR c).factor = s.factor := rfl
@[simp] theorem withR_putField (off n : Nat) (v : Value) : (s.withR c).putField off n v = (s.putField off n v).withR c := rfl

/-- The arrival of the write cursor looks at that cursor and at `TOTALSEG` only. -/
theorem arriveW_eq : s.arriveW =
    if (s.w.nextWord 0).seg = s.totalSeg then .raised { s with w := s.w.nextWord 0 } .bufferExhausted
    else .done { s with w := s.w.nextWord 0 } () := rfl

theorem arriveW_withR : (s.withR c).arriveW = s.arriveW.mapState (·.withR c) := by
  rw [arriveW_eq s, apply_ite (Result.mapState _)]
  rfl

theorem writeBits_withR (v : Value) (n : Nat) : (s.withR c).writeBits v n = (s.writeBits v n).mapState (·.withR c) := by
  simp only [State.writeBits, withR_w, withR_totalSeg, withR_putField, arriveW_withR]
  split
  · rfl
  · split
    · split
      · rfl
      · rfl
    · exact andThen_mapState (fun _ _ => rfl) _

theorem writeBit_withR (b : BitVec 1) : (s.withR c).writeBit b = (s.writeBit b).mapState (·.withR c) := by
  rw [writeBit_eq_writeBits, writeBit_eq_writeBits, writeBits_withR]

theorem encodeU32_withR (v : Value) : (s.withR c).encodeU32 v = (s.encodeU32 v).mapState (·.withR c) := by
  simp only [State.encodeU32]
  split
  · exact writeBit_withR c s _
  · rw [writeBit_withR]
    refine andThen_mapState (fun s1 _ => ?_) _
    rw [writeBits_withR]
    exact andThen_mapState (fun s2 _ => writeBits_withR c s2 _ _) _

theorem quantized_withR (f : Value) :
    (s.withR c).quantized f = ((s.quantized f).1.withR c, (s.quantized f).2) := by
  simp only [State.quantized, withR_factor]
  split
  · rfl
  · rfl

end

theorem execWrf32_withR {s t : State} {f : Value} (c : Cursor) (h : execWrf32 f s = .next t) :
    execWrf32 f (s.withR c) = .next (t.withR c) := by
  rw [execWrf32] at h
  split at h
  · next hunset => cases h; exact if_pos hunset
  · next hset =>
    have hencode : ((s.withR c).quantized f).1.encodeU32 (zigzag ((s.withR c).quantized f).2) =
        ((s.quantized f).1.encodeU32 (zigzag (s.quantized f).2)).mapState (·.withR c) := by
      rw [quantized_withR, encodeU32_withR]
    calc execWrf32 f (s.withR c)
      _ = _ := if_neg hset
      _ = .next (t.withR c) := finishUnit_mapState (keepsResponse_withR c) hencode h

/-- A write-side command does the same from a state with another read cursor, and leaves that cursor there. -/
theorem exec_withR {i : Instr} {s t : State} (c : Cursor) (hi : isWriter i = true) (h : exec i s = .next t) :
    exec i (s.withR c) = .next (t.withR c) := by
  have hf := keepsResponse_withR c
  cases i with
  | wrbit bit => exact finishUnit_mapState hf (writeBit_withR c s bit) h
  | wrbits lenMinusOne bits => exact finishUnit_mapState hf (writeBits_withR c s bits _) h
  | wrbool b => exact finishUnit_mapState hf (writeBit_withR c s b) h
  | wru32 v => exact finishUnit_mapState hf (encodeU32_withR c s v) h
  | wri32 v => exact finishUnit_mapState hf (encodeU32_withR c s (zigzag v)) h
  | wrf32 f => exact execWrf32_withR c h
  | _ => exact absurd hi Bool.false_ne_true

/-! ## The read side does not see the write cursor -/

section
variable (c : Cursor) (s : State)

@[simp] theorem withW_totalSeg : (s.withW c).totalSeg = s.totalSeg := rfl
@[simp] theorem withW_w : (s.withW c).w = c := rfl
@[simp] theorem withW_r : (s.withW c).r = s.r := rfl
@[simp] theorem withW_getField (off n : Nat) : (s.withW c).getField off n = s.getField off n := rfl

/-- The arrival of the read cursor looks at that cursor and at `TOTALSEG` only. -/
theorem arriveR_eq : s.arriveR =
    if (s.r.nextWord 0).seg = s.totalSeg then .raised { s with r := s.r.nextWord 0 } .bufferExhausted
    else .done { s with r := s.r.nextWord 0 } () := rfl

theorem arriveR_withW : (s.withW c).arriveR = s.arriveR.mapState (·.withW c) := by
  rw [arriveR_eq s, apply_ite (Result.mapState _)]
  rfl

theorem readBits_withW (n : Nat) : (s.withW c).readBits n = (s.readBits n).mapState (·.withW c) := by
  simp only [State.readBits, withW_r, withW_totalSeg, withW_getField, arriveR_withW]
  split
  · rfl
  · split
    · split
      · rfl
      · exact andThen_mapState (fun _ _ => rfl) _
    · exact andThen_mapState (fun _ _ => rfl) _

theorem readBit_withW : (s.withW c).readBit = s.readBit.mapState (·.withW c) := by
  rw [readBit_eq_readBits, readBit_eq_readBits, readBits_withW]
  exact andThen_mapState (fun _ _ => rfl) _

theorem decodeU32_withW : (s.withW c).decodeU32 = s.decodeU32.mapState (·.withW c) := by
  simp only [State.decodeU32, readBit_withW]
  refine andThen_mapState (fun s1 flag => ?_) _
  split
  · rfl
  · rw [readBits_withW]
    exact andThen_mapState (fun s2 lenMinusOne => readBits_withW c s2 (lenMinusOne.toNat + 1)) _

end

/-- A read-side command that converts what it read. -/
theorem finish_andThen_withW {α : Type} {x y : Result α} {t : State} (c : Cursor) (g : α → Value)
    (hy : y = x.mapState (·.withW c)) (h : (x.andThen fun s v => .done s (g v)).finish = .next t) :
    (y.andThen fun s v => .done s (g v)).finish = .next (t.withW c) := by
  subst hy
  exact finish_mapState (keepsResponse_withW c) (andThen_mapState (fun _ _ => rfl) x) h

theorem execRdf32_withW {s t : State} (c : Cursor) (h : execRdf32 s = .next t) :
    execRdf32 (s.withW c) = .next (t.withW c) := by
  rw [execRdf32] at h
  split at h
  · next hunset => cases h; exact if_pos hunset
  · next hset =>
    calc execRdf32 (s.withW c)
      _ = _ := if_neg hset
      _ = .next (t.withW c) := finish_andThen_withW c _ (decodeU32_withW c s) h

/-- A read-side command does the same from a state with another write cursor, and leaves that cursor there. -/
theorem exec_withW {i : Instr} {s t : State} (c : Cursor) (hi : isReader i = true) (h : exec i s = .next t) :
    exec i (s.withW c) = .next (t.withW c) := by
  have hf := keepsResponse_withW c
  cases i with
  | rdbit => exact finish_andThen_withW c _ (readBit_withW c s) h
  | rdbits lenMinusOne => exact finish_mapState hf (readBits_withW c s _) h
  | rdbool => exact finish_andThen_withW c _ (readBit_withW c s) h
  | rdu32 => exact finish_mapState hf (decodeU32_withW c s) h
  | rdi32 => exact finish_andThen_withW c _ (decodeU32_withW c s) h
  | rdf32 => exact execRdf32_withW c h
  | _ => exact absurd hi Bool.false_ne_true

/-- No command is on both sides of the stream (10_state.md R13, R14). -/
theorem isWriter_eq_false_of_isReader {i : Instr} (hi : isReader i = true) : isWriter i = false := by
  cases i with
  | rdbit | rdbits | rdbool | rdu32 | rdi32 | rdf32 => rfl
  | _ => exact absurd hi Bool.false_ne_true

/-! ## The obligations on the state -/

/-- Settles O16: of the effects a command can have, only CREATE, SETBUF and RESET put a cursor anywhere but forward. -/
theorem cursorsNeverMoveBack : Obligations.CursorsNeverMoveBack := by
  intro i s t hi h
  cases exec_effect h with
  | answered | stored | configured => exact ⟨Nat.le_refl _, Nat.le_refl _⟩
  | created | declared | rewound => exact absurd hi Bool.noConfusion
  | wrote _ u draws response hw hmoved =>
    obtain ⟨hframe, hpos, -⟩ := hmoved
    exact ⟨hpos, by rw [hframe]⟩
  | passed _ u response hr hmoved =>
    obtain ⟨hframe, hpos⟩ := hmoved
    exact ⟨by rw [hframe], hpos⟩

/-- Settles O17: putting back the read cursor that is there shows that it is not written. -/
theorem writersIgnoreReadCursor : Obligations.WritersIgnoreReadCursor := by
  intro i s t c hi h
  have hsame : exec i s = .next (t.withR s.r) := exec_withR s.r hi h
  have hkept : t = t.withR s.r := by rw [h] at hsame; exact Host.Outcome.next.inj hsame
  exact ⟨by rw [hkept, withR_r], exec_withR c hi h⟩

/-- Settles O19: each effect changes only elements that its own commands are named for. -/
theorem stateWrittenOnlyByNamedCommands : Obligations.StateWrittenOnlyByNamedCommands := by
  intro i s t h
  cases exec_effect h with
  | answered =>
    exact ⟨fun _ _ => rfl, fun _ => rfl, fun _ _ => rfl, fun _ _ => rfl, fun _ _ _ => rfl, rfl, rfl, rfl⟩
  | created cap =>
    exact ⟨fun hc _ => absurd rfl (hc cap), fun _ => rfl, fun _ hi => absurd hi Bool.noConfusion,
      fun _ hi => absurd hi Bool.noConfusion, fun _ hc _ => absurd rfl (hc cap), rfl, rfl, rfl⟩
  | declared len =>
    exact ⟨fun _ hd => absurd rfl (hd len), fun _ => rfl, fun _ hi => absurd hi Bool.noConfusion,
      fun _ hi => absurd hi Bool.noConfusion, fun _ _ _ => rfl, rfl, rfl, rfl⟩
  | rewound =>
    exact ⟨fun _ _ => rfl, fun _ => rfl, fun _ hi => absurd hi Bool.noConfusion,
      fun _ hi => absurd hi Bool.noConfusion, fun _ _ _ => rfl, rfl, rfl, rfl⟩
  | stored addr byte =>
    exact ⟨fun _ _ => rfl, fun _ => rfl, fun _ _ => rfl, fun _ _ => rfl,
      fun _ _ hb => absurd rfl (hb addr byte), rfl, rfl, rfl⟩
  | configured places =>
    exact ⟨fun _ _ => rfl, fun hp => absurd rfl (hp places), fun _ _ => rfl, fun _ _ => rfl, fun _ _ _ => rfl, rfl, rfl, rfl⟩
  | wrote _ u draws response hw hmoved =>
    have hframe := hmoved.frame
    rw [hframe]
    exact ⟨fun _ _ => rfl, fun _ => rfl, fun hi _ => absurd hw (Bool.eq_false_iff.mp hi), fun _ _ => rfl,
      fun hi _ _ => absurd hw (Bool.eq_false_iff.mp hi), rfl, rfl, rfl⟩
  | passed _ u response hr hmoved =>
    have hframe := hmoved.frame
    rw [hframe]
    exact ⟨fun _ _ => rfl, fun _ => rfl, fun _ _ => rfl, fun hi _ => absurd hr (Bool.eq_false_iff.mp hi),
      fun _ _ _ => rfl, rfl, rfl, rfl⟩

/-- Settles O18: the write cursor as in O17, and RAM because no read-side command is one of its writers (O19). -/
theorem readersIgnoreWriteCursor : Obligations.ReadersIgnoreWriteCursor := by
  intro i s t c hi h
  have hsame : exec i s = .next (t.withW s.w) := exec_withW s.w hi h
  have hkept : t = t.withW s.w := by rw [h] at hsame; exact Host.Outcome.next.inj hsame
  obtain ⟨-, -, -, -, ramKept, -⟩ := stateWrittenOnlyByNamedCommands i s t h
  have hram : t.ram = s.ram :=
    ramKept (isWriter_eq_false_of_isReader hi) (by rintro cap rfl; cases hi) (by rintro addr byte rfl; cases hi)
  exact ⟨by rw [hkept, withW_w], hram, exec_withW c hi h⟩

/-- Settles O20: besides CREATE only BUFWR and the write-side commands touch RAM, each inside the buffer. -/
theorem wordsOutsideBufferKept : Obligations.WordsOutsideBufferKept := by
  intro i s t a hc h ha
  cases exec_effect h with
  | answered | declared | rewound | configured => rfl
  | created cap => exact absurd rfl (hc cap)
  | stored addr byte response haddr =>
    calc (s.memWrite addr.toNat 1 byte).byteAt a
      _ = _ := byteAt_memWrite s addr.toNat 1 byte a
      _ = s.byteAt a := if_neg (by omega)
  | wrote _ u draws response hw hmoved => exact hmoved.outside a ha
  | passed _ u response hr hmoved => exact byteAt_congr (by rw [hmoved.frame]) (by rw [hmoved.frame]) a

/-- Settles O10: the event is taken from the port and applied to the state it leaves. -/
theorem hardwareResetClearsTheBlock : Obligations.HardwareResetClearsTheBlock := by
  intro s rest hin
  exact ⟨_, step_hardwareReset hin, rfl, rfl, rfl, rfl, byteAt_hardwareReset _, rfl, rfl, rfl, rfl⟩

/-- Settles O11: the reset state is a literal, and no byte of its RAM is listed (`byteAt_reset`). -/
theorem resetStateHoldsSpecValues : Obligations.ResetStateHoldsSpecValues :=
  ⟨rfl, rfl, rfl, rfl, byteAt_reset⟩

end Sys2Proof.Machine
end

section
/-! SUPPORT. Proofs about RAM (20_memory.md): the byte view, the word view and the stream of bits are one storage, and a write-side
command changes no bit of it outside the field it moves. -/

namespace Sys2Proof.Machine

/-! ## Bytes of what was read and written -/

/-- Bit `i` of byte `a` is stream bit `8 * a + i` (20_memory.md R33). -/
theorem streamBit_of_byte (s : State) (a i : Nat) (h : i < 8) : s.streamBit (8 * a + i) = (s.byteAt a).getLsbD i := by
  rw [State.streamBit, show (8 * a + i) / 8 = a by omega, show (8 * a + i) % 8 = i by omega]

/-- Byte lane `k` of `MemRead` is the byte at `addr + k` (20_memory.md R32). -/
theorem extractLsb'_memRead (s : State) (addr n k : Nat) (h : k < n) :
    (s.memRead addr n).extractLsb' (8 * k) 8 = s.byteAt (addr + k) := by
  refine BitVec.eq_of_getLsbD_eq fun i hi => ?_
  calc ((s.memRead addr n).extractLsb' (8 * k) 8).getLsbD i
    _ = (s.memRead addr n).getLsbD (8 * k + i) := by rw [BitVec.getLsbD_extractLsb', decide_eq_true hi, Bool.true_and]
    _ = s.streamBit (8 * addr + (8 * k + i)) := getLsbD_memRead s addr n _ (by omega)
    _ = s.streamBit (8 * (addr + k) + i) := by congr 1; omega
    _ = (s.byteAt (addr + k)).getLsbD i := streamBit_of_byte s _ i hi

/-- Byte lane `k` of word `i` is byte `8 * i + k` (20_memory.md R30). -/
theorem extractLsb'_wordRead (s : State) (i k : Nat) (h : k < 8) :
    (s.wordRead i).extractLsb' (8 * k) 8 = s.byteAt (8 * i + k) :=
  extractLsb'_memRead s (8 * i) 8 k h

/-- Byte `k` of what `MemWrite` stores (20_memory.md R32). -/
theorem byteAt_memWrite_inside (s : State) (addr n k : Nat) (v : BitVec (8 * n)) (h : k < n) :
    (s.memWrite addr n v).byteAt (addr + k) = v.extractLsb' (8 * k) 8 := by
  rw [byteAt_memWrite, if_pos (by omega), Nat.add_sub_cancel_left]

theorem byteAt_memWrite_outside (s : State) (addr n a : Nat) (v : BitVec (8 * n)) (h : a < addr ∨ addr + n ≤ a) :
    (s.memWrite addr n v).byteAt a = s.byteAt a := by
  rw [byteAt_memWrite, if_neg (by omega)]

/-- A byte write is read back whole. -/
theorem byteAt_memWrite_byte (s : State) (a : Nat) (b : Byte) : (s.memWrite a 1 b).byteAt a = b :=
  (byteAt_memWrite_inside s a 1 0 b Nat.one_pos).trans (BitVec.extractLsb'_eq_self (x := b))

/-- Bit `i` of what `MemWrite` stores, as a bit of the stream. -/
theorem streamBit_memWrite_inside (s : State) (addr n i : Nat) (v : BitVec (8 * n)) (h : i < 8 * n) :
    (s.memWrite addr n v).streamBit (8 * addr + i) = v.getLsbD i := by
  have hmod : i % 8 < 8 := Nat.mod_lt _ (by decide)
  calc (s.memWrite addr n v).streamBit (8 * addr + i)
    _ = (s.memWrite addr n v).streamBit (8 * (addr + i / 8) + i % 8) := by congr 1; omega
    _ = ((s.memWrite addr n v).byteAt (addr + i / 8)).getLsbD (i % 8) := streamBit_of_byte _ _ _ hmod
    _ = (v.extractLsb' (8 * (i / 8)) 8).getLsbD (i % 8) := by rw [byteAt_memWrite_inside _ _ _ _ _ (by omega)]
    _ = v.getLsbD i := by
      rw [BitVec.getLsbD_extractLsb', decide_eq_true hmod, Bool.true_and, Nat.div_add_mod]

/-- Reading where a write of the same width was made gives the value back (20_memory.md R32, R40). -/
theorem memRead_memWrite (s : State) (addr n : Nat) (v : BitVec (8 * n)) : (s.memWrite addr n v).memRead addr n = v := by
  refine BitVec.eq_of_getLsbD_eq fun i hi => ?_
  rw [getLsbD_memRead _ _ _ _ hi, streamBit_memWrite_inside _ _ _ _ _ hi]

/-! ## The bits a write-side command leaves alone -/

/-- The states `s` and `t` agree on every stream bit but the `n` from position `p` up. -/
def AgreeOutside (p n : Nat) (s t : State) : Prop := ∀ j, j < p ∨ p + n ≤ j → t.streamBit j = s.streamBit j

theorem agreeOutside_refl (p n : Nat) (s : State) : AgreeOutside p n s s := fun _ _ => rfl

/-- A byte that holds none of the bits in question reads the same in both states. -/
theorem byteAt_of_agreeOutside {p n a : Nat} {s t : State} (h : AgreeOutside p n s t) (ha : 8 * a + 8 ≤ p ∨ p + n ≤ 8 * a) :
    t.byteAt a = s.byteAt a :=
  byteAt_eq_of_streamBit fun j _ _ => h j (by omega)

/-- Cut short by the end of the buffer or not, a write stays within its field (41_bitcursor.md R97). -/
theorem agreeOutside_of_wroteBits {s t : State} {bits n : Nat} (h : s.WroteBits t bits n) : AgreeOutside s.w.pos n s t := by
  obtain ⟨-, hbits, -⟩ := h
  intro j hj
  rw [hbits, if_neg (by omega)]

theorem agreeOutside_writeBits (s : State) (v : Value) (n : Nat) (h1 : 1 ≤ n) (hn : n ≤ 32) :
    AgreeOutside s.w.pos n s (s.writeBits v n).state := by
  by_cases hx : s.w.exhausted s.totalSeg
  · rw [writeBits_exhausted s v n hx]; exact agreeOutside_refl _ _ s
  · obtain ⟨t, ht, -, he⟩ := writeBits_spec s v n (inv_of_not_exhausted hx) h1 hn
    rw [he, state_ite]
    exact agreeOutside_of_wroteBits ht

theorem agreeOutside_writeBit (s : State) (b : BitVec 1) : AgreeOutside s.w.pos 1 s (s.writeBit b).state := by
  rw [writeBit_eq_writeBits]
  exact agreeOutside_writeBits s _ 1 (Nat.le_refl 1) (by decide)

theorem agreeOutside_encodeU32 (s : State) (v : Value) : AgreeOutside s.w.pos (itemBits v) s (s.encodeU32 v).state := by
  by_cases hx : s.w.exhausted s.totalSeg
  · rw [encodeU32_exhausted s v hx]; exact agreeOutside_refl _ _ s
  · obtain ⟨t, ht, -, he⟩ := encodeU32_spec s v (inv_of_not_exhausted hx)
    rw [he, state_ite]
    exact agreeOutside_of_wroteBits ht

/-- The item of a quantized float, whose drawing changes neither RAM nor the write cursor. -/
theorem agreeOutside_encodeU32_quantized (s : State) (f v : Value) :
    AgreeOutside s.w.pos (itemBits v) s ((s.quantized f).1.encodeU32 v).state := by
  rw [quantized_frame]
  exact agreeOutside_encodeU32 { s with draws := (s.quantized f).1.draws } v

/-- Ending a command sets only the response. -/
theorem agreeOutside_finishUnit {p n : Nat} {s t : State} {x : Result Unit} (hx : AgreeOutside p n s x.state)
    (h : x.finishUnit = .next t) : AgreeOutside p n s t := by
  cases x with
  | done u v => cases h; exact hx
  | raised u e => cases h; exact hx

theorem agreeOutside_execWrf32 {s t : State} {f : Value} (h : execWrf32 f s = .next t) :
    AgreeOutside s.w.pos (itemBits (zigzag (s.quantized f).2)) s t := by
  rw [execWrf32] at h
  split at h
  · cases h; exact agreeOutside_refl _ _ s
  · exact agreeOutside_finishUnit (agreeOutside_encodeU32_quantized s f _) h

/-- The frame of the write-side commands, by bits (20_memory.md R35, 41_bitcursor.md R97). -/
theorem agreeOutside_exec {i : Instr} {s t : State} (hi : isWriter i = true) (h : exec i s = .next t) :
    AgreeOutside s.w.pos (movedBits s i) s t := by
  cases i with
  | wrbit bit => exact agreeOutside_finishUnit (agreeOutside_writeBit s bit) h
  | wrbits lenMinusOne bits =>
    obtain ⟨h1, hn⟩ := fieldLength_bounds lenMinusOne
    exact agreeOutside_finishUnit (agreeOutside_writeBits s bits _ h1 hn) h
  | wrbool b => exact agreeOutside_finishUnit (agreeOutside_writeBit s b) h
  | wru32 v => exact agreeOutside_finishUnit (agreeOutside_encodeU32 s v) h
  | wri32 v => exact agreeOutside_finishUnit (agreeOutside_encodeU32 s (zigzag v)) h
  | wrf32 f => exact agreeOutside_execWrf32 h
  | create | setbuf | bufrd | bufwr | bytecnt | reset | rdsr | setprec => exact absurd hi Bool.noConfusion
  | rdbit | rdbits | rdbool | rdu32 | rdi32 | rdf32 => exact absurd hi Bool.noConfusion

/-! ## The obligations -/

/-- Settles O21: the eight bits of such a byte all lie outside the field the command moves. -/
theorem writersKeepOtherBytes : Obligations.WritersKeepOtherBytes :=
  fun _ _ _ _ hi h ha => byteAt_of_agreeOutside (agreeOutside_exec hi h) ha

/-- Settles O37: byte lane `k` of word `i` is byte `8 * i + k` in every state, the states after the two writes among them. -/
theorem byteAndWordViewsAreOneStorage : Obligations.ByteAndWordViewsAreOneStorage := by
  intro s i k hk
  refine ⟨extractLsb'_wordRead s i k hk, fun v => ⟨?_, ?_⟩, fun b => ?_⟩
  · exact byteAt_memWrite_inside s (8 * i) 8 k v hk
  · exact memRead_memWrite s (8 * i) 8 v
  · rw [extractLsb'_wordRead _ i k hk, byteAt_memWrite_byte]

/-- Settles O38, from what `MemWrite` does to the bits inside and to the bytes outside. -/
theorem memReadGivesWhatMemWriteWrote : Obligations.MemReadGivesWhatMemWriteWrote :=
  fun s addr n v => ⟨memRead_memWrite s addr n v, fun a ha => byteAt_memWrite_outside s addr n a v ha⟩

end Sys2Proof.Machine
end

section
/-! SUPPORT. Proofs about command and response words (30_encoding.md R50 to R54). A word is its three fields, so that the decoder,
the encoder and the rows of the opcode table are compared field by field. -/

namespace Sys2Proof

/-! ## A word and its fields -/

section
variable {m n : Nat}

/-- A field whose high part must be zero is that zero above its low part. -/
theorem zero_append_extractLsb' {x : BitVec (m + n)} (h : x.extractLsb' n m = 0#m) : 0#m ++ x.extractLsb' 0 n = x := by
  rw [← h, BitVec.extractLsb'_append_extractLsb'_eq_extractLsb' (Nat.zero_add n).symm, BitVec.extractLsb'_eq_self]

/-- The same, where the high part is tested by masking off the low one. -/
theorem eq_zero_append_of_and {x : BitVec (m + n)} (h : x &&& (BitVec.allOnes m ++ 0#n) = 0#(m + n)) :
    x = 0#m ++ x.extractLsb' 0 n := by
  have hhigh := congrArg (BitVec.extractLsb' n m) h
  rw [BitVec.extractLsb'_and, BitVec.extractLsb'_append_eq_left, BitVec.and_allOnes, BitVec.extractLsb'_zero] at hhigh
  exact (zero_append_extractLsb' hhigh).symm

theorem toNat_zero_append (x : BitVec n) : (0#m ++ x).toNat = x.toNat := by
  rw [BitVec.toNat_append, BitVec.toNat_ofNat, Nat.zero_mod, Nat.zero_shiftLeft, Nat.zero_or]

theorem eq_zero_of_and_allOnes {x : BitVec n} (h : x &&& BitVec.allOnes n = 0#n) : x = 0#n := by
  rwa [BitVec.and_allOnes] at h

end

section
variable (op : BitVec 8) (aux : BitVec 24) (data : Value)

theorem opField_append : opField (op ++ aux ++ data) = op := by
  have hhigh : (op ++ aux ++ data).extractLsb' 56 8 = (op ++ aux).extractLsb' 24 8 :=
    BitVec.extractLsb'_append_eq_of_le (by decide)
  exact hhigh.trans BitVec.extractLsb'_append_eq_left

theorem auxField_append : auxField (op ++ aux ++ data) = aux := by
  have hhigh : (op ++ aux ++ data).extractLsb' 32 24 = (op ++ aux).extractLsb' 0 24 :=
    BitVec.extractLsb'_append_eq_of_le (Nat.le_refl 32)
  exact hhigh.trans BitVec.extractLsb'_append_eq_right

theorem dataField_append : dataField (op ++ aux ++ data) = data := BitVec.extractLsb'_append_eq_right

end

/-- A command word is its three fields, one above the other (30_encoding.md R50). -/
theorem append_fields (cw : CommandWord) : opField cw ++ auxField cw ++ dataField cw = cw := by
  have hhigh : opField cw ++ auxField cw = cw.extractLsb' 32 32 :=
    BitVec.extractLsb'_append_extractLsb'_eq_extractLsb' rfl
  have hcw : cw.extractLsb' 32 32 ++ dataField cw = cw.extractLsb' 0 64 :=
    BitVec.extractLsb'_append_extractLsb'_eq_extractLsb' rfl
  rw [hhigh, hcw, BitVec.extractLsb'_eq_self]

/-! ## The fields of an encoded command -/

/-- `op` of the command's word (30_encoding.md R53). -/
def Instr.opcode : Instr → BitVec 8
  | .create _ => 0x01#8
  | .setbuf _ => 0x02#8
  | .bufrd _ => 0x03#8
  | .bufwr _ _ => 0x04#8
  | .bytecnt => 0x05#8
  | .reset => 0x06#8
  | .rdsr _ => 0x07#8
  | .wrbit _ => 0x10#8
  | .wrbits _ _ => 0x11#8
  | .rdbit => 0x18#8
  | .rdbits _ => 0x19#8
  | .wrbool _ => 0x20#8
  | .wru32 _ => 0x21#8
  | .wri32 _ => 0x22#8
  | .rdbool => 0x28#8
  | .rdu32 => 0x29#8
  | .rdi32 => 0x2A#8
  | .setprec _ => 0x30#8
  | .wrf32 _ => 0x31#8
  | .rdf32 => 0x39#8

/-- `aux` of the command's word: the small operand, if it has one (30_encoding.md R52). -/
def Instr.aux : Instr → BitVec 24
  | .bufwr _ byte => 0#16 ++ byte
  | .rdsr n => 0#16 ++ n
  | .wrbits lenMinusOne _ | .rdbits lenMinusOne => 0#19 ++ lenMinusOne
  | .setprec places => 0#20 ++ places
  | _ => 0#24

/-- `data` of the command's word: the main operand, if it has one (30_encoding.md R52). -/
def Instr.data : Instr → Value
  | .create v | .setbuf v | .bufrd v | .bufwr v _ | .wrbits _ v | .wru32 v | .wri32 v | .wrf32 v => v
  | .wrbit b | .wrbool b => 0#31 ++ b
  | _ => 0#32

theorem encode_eq_append (i : Instr) : encode i = i.opcode ++ i.aux ++ i.data := by
  cases i with
  | _ => rfl

/-- The word `cw` has the three fields of the command `i`. -/
structure HasFields (cw : CommandWord) (i : Instr) : Prop where
  op : opField cw = i.opcode
  aux : auxField cw = i.aux
  data : dataField cw = i.data

theorem hasFields_encode (i : Instr) : HasFields (encode i) i := by
  rw [encode_eq_append]
  exact ⟨opField_append _ _ _, auxField_append _ _ _, dataField_append _ _ _⟩

theorem HasFields.encode_eq {cw : CommandWord} {i : Instr} (h : HasFields cw i) : encode i = cw := by
  rw [encode_eq_append, ← h.op, ← h.aux, ← h.data, append_fields]

/-! ## Decoding and encoding -/

theorem requireZero_eq_ok_iff {mbz : Bool} {i j : Instr} : requireZero mbz i = .ok j ↔ mbz = true ∧ i = j := by
  cases mbz with
  | true => exact ⟨fun h => ⟨rfl, Except.ok.inj h⟩, fun ⟨_, h⟩ => congrArg _ h⟩
  | false => exact ⟨nofun, nofun⟩

theorem requireRegister_eq_ok_iff {n : BitVec 8} {j : Instr} :
    requireRegister n = .ok j ↔ n.toNat ≤ 5 ∧ .rdsr n = j := by
  rw [requireRegister]
  split
  · next hn => exact ⟨fun h => ⟨hn, Except.ok.inj h⟩, fun ⟨_, h⟩ => congrArg _ h⟩
  · next hn => exact ⟨nofun, fun ⟨h, _⟩ => absurd h hn⟩

/-- The high part of a short operand passes its must-be-zero test. -/
theorem mbz_zero_append {n : Nat} (m : Nat) (x : BitVec n) : ((0#m ++ x).extractLsb' n m == 0#m) = true :=
  beq_iff_eq.mpr BitVec.extractLsb'_append_eq_left

/-- A short operand is read back from its field, where the field's other bits are zero. -/
theorem requireZero_zero_append {m n : Nat} (c : BitVec n → Instr) (x : BitVec n) :
    requireZero ((0#m ++ x).extractLsb' n m == 0#m) (c ((0#m ++ x).extractLsb' 0 n)) = .ok (c x) :=
  requireZero_eq_ok_iff.mpr ⟨mbz_zero_append m x, congrArg c BitVec.extractLsb'_append_eq_right⟩

/-- The same for a command whose `data` must be zero, and is. -/
theorem requireZero_zero_append_and {m n : Nat} (c : BitVec n → Instr) (x : BitVec n) :
    requireZero ((0#m ++ x).extractLsb' n m == 0#m && true) (c ((0#m ++ x).extractLsb' 0 n)) = .ok (c x) := by
  rw [Bool.and_true, requireZero_zero_append]

/-- Every must-be-zero bit of an encoded command is zero, and its operands stand where the decoder reads them. -/
theorem decode_encode {i : Instr} (h : i.wf = true) : decode (encode i) = .ok i := by
  obtain ⟨hop, haux, hdata⟩ := hasFields_encode i
  rw [decode, hop, haux, hdata]
  cases i with
  | create | setbuf | bufrd | wru32 | wri32 | wrf32 => rfl
  | bytecnt | reset | rdbit | rdbool | rdu32 | rdi32 | rdf32 => rfl
  | wrbit b => exact requireZero_zero_append .wrbit b
  | wrbool b => exact requireZero_zero_append .wrbool b
  | bufwr addr byte => exact requireZero_zero_append (.bufwr addr) byte
  | wrbits lenMinusOne bits => exact requireZero_zero_append (.wrbits · bits) lenMinusOne
  | rdbits lenMinusOne => exact requireZero_zero_append_and .rdbits lenMinusOne
  | setprec places => exact requireZero_zero_append_and .setprec places
  | rdsr n =>
    have hn : (0#16 ++ n).extractLsb' 0 8 = n := BitVec.extractLsb'_append_eq_right
    have hmbz := Bool.and_eq_true_iff.mpr ⟨mbz_zero_append 16 n, beq_self_eq_true 0#32⟩
    exact (if_pos hmbz).trans (requireRegister_eq_ok_iff.mpr ⟨hn.symm ▸ of_decide_eq_true h, congrArg _ hn⟩)

/-- `op` as a number determines it. -/
theorem opField_eq {cw : CommandWord} {k : Nat} (h : (opField cw).toNat = k) : opField cw = BitVec.ofNat 8 k := by
  rw [← h, BitVec.ofNat_toNat, BitVec.setWidth_eq]

/-- An accepted word has the fields of the command it decodes to: the decoder reads all of a word's bits, those that must be zero
among them. -/
theorem hasFields_of_decode {cw : CommandWord} {i : Instr} (h : decode cw = .ok i) : HasFields cw i ∧ i.wf = true := by
  simp only [decode] at h
  split at h
  case h_1 hop | h_2 hop | h_3 hop | h_13 hop | h_14 hop | h_19 hop =>
    obtain ⟨haux, rfl⟩ := requireZero_eq_ok_iff.mp h
    exact ⟨⟨opField_eq hop, eq_of_beq haux, rfl⟩, rfl⟩
  case h_5 hop | h_6 hop | h_10 hop | h_15 hop | h_16 hop | h_17 hop | h_20 hop =>
    obtain ⟨hmbz, rfl⟩ := requireZero_eq_ok_iff.mp h
    obtain ⟨haux, hdata⟩ := Bool.and_eq_true_iff.mp hmbz
    exact ⟨⟨opField_eq hop, eq_of_beq haux, eq_of_beq hdata⟩, rfl⟩
  case h_8 hop | h_12 hop =>
    obtain ⟨hmbz, rfl⟩ := requireZero_eq_ok_iff.mp h
    obtain ⟨haux, hdata⟩ := Bool.and_eq_true_iff.mp hmbz
    exact ⟨⟨opField_eq hop, eq_of_beq haux, (zero_append_extractLsb' (eq_of_beq hdata)).symm⟩, rfl⟩
  case h_4 hop | h_9 hop =>
    obtain ⟨haux, rfl⟩ := requireZero_eq_ok_iff.mp h
    exact ⟨⟨opField_eq hop, (zero_append_extractLsb' (eq_of_beq haux)).symm, rfl⟩, rfl⟩
  case h_11 hop | h_18 hop =>
    obtain ⟨hmbz, rfl⟩ := requireZero_eq_ok_iff.mp h
    obtain ⟨haux, hdata⟩ := Bool.and_eq_true_iff.mp hmbz
    exact ⟨⟨opField_eq hop, (zero_append_extractLsb' (eq_of_beq haux)).symm, eq_of_beq hdata⟩, rfl⟩
  case h_7 hop =>
    split at h
    · next hmbz =>
      obtain ⟨haux, hdata⟩ := Bool.and_eq_true_iff.mp hmbz
      obtain ⟨hn, rfl⟩ := requireRegister_eq_ok_iff.mp h
      exact ⟨⟨opField_eq hop, (zero_append_extractLsb' (eq_of_beq haux)).symm, eq_of_beq hdata⟩, decide_eq_true hn⟩
    · cases h
  case h_21 => cases h

/-! ## The rows of the opcode table -/

/-- The word of every well-formed command selects its own row, which is in the table. -/
theorem encodeSelectsRow (i : Instr) : Laws.EncodeSelectsRow.Statement i := by
  cases i with
  | create cap => exact Laws.EncodeSelectsRow.create cap
  | setbuf len => exact Laws.EncodeSelectsRow.setbuf len
  | bufrd addr => exact Laws.EncodeSelectsRow.bufrd addr
  | bufwr addr byte => exact Laws.EncodeSelectsRow.bufwr addr byte
  | bytecnt => exact Laws.EncodeSelectsRow.bytecnt
  | reset => exact Laws.EncodeSelectsRow.reset
  | rdsr n => exact Laws.EncodeSelectsRow.rdsr n
  | wrbit bit => exact Laws.EncodeSelectsRow.wrbit bit
  | wrbits lenMinusOne bits => exact Laws.EncodeSelectsRow.wrbits lenMinusOne bits
  | rdbit => exact Laws.EncodeSelectsRow.rdbit
  | rdbits lenMinusOne => exact Laws.EncodeSelectsRow.rdbits lenMinusOne
  | wrbool b => exact Laws.EncodeSelectsRow.wrbool b
  | wru32 v => exact Laws.EncodeSelectsRow.wru32 v
  | wri32 v => exact Laws.EncodeSelectsRow.wri32 v
  | rdbool => exact Laws.EncodeSelectsRow.rdbool
  | rdu32 => exact Laws.EncodeSelectsRow.rdu32
  | rdi32 => exact Laws.EncodeSelectsRow.rdi32
  | setprec places => exact Laws.EncodeSelectsRow.setprec places
  | wrf32 f => exact Laws.EncodeSelectsRow.wrf32 f
  | rdf32 => exact Laws.EncodeSelectsRow.rdf32

/-- The constraint of the RDSR row, the only row that has one. -/
def OpcodeRow.constraint (row : OpcodeRow) (cw : CommandWord) : Prop := row.mnemonic = "RDSR" → (auxField cw).toNat ≤ 5

theorem legalWord_iff (cw : CommandWord) :
    legalWord cw = true ↔ ∃ row ∈ opcodeTable, row.selects cw = true ∧ row.constraint cw := by
  simp only [legalWord, List.any_eq_true, Bool.and_eq_true, Bool.or_eq_true, bne_iff_ne, decide_eq_true_eq,
    OpcodeRow.constraint, ← imp_iff_not_or, ne_eq]

/-- The number of a well-formed RDSR is the whole of its `aux` field. -/
theorem constraint_encode {i : Instr} (h : i.wf = true) : i.row.constraint (encode i) := by
  intro hm
  rw [(hasFields_encode i).aux]
  cases i with
  | rdsr n => 
    have hn : n.toNat ≤ 5 := of_decide_eq_true h
    rwa [Instr.aux, toNat_zero_append]
  | _ => simp [Instr.row] at hm

theorem row_bits (i : Instr) : i.row.bits = i.opcode ++ 0#24 ++ 0#32 := by
  cases i with
  | _ => rw [Instr.row, Instr.opcode]; rfl

/-- A row fixes the whole opcode, and of the other fields only that some of their bits are zero. -/
theorem fields_of_selects {i : Instr} {cw : CommandWord} (auxMask : BitVec 24) (dataMask : BitVec 32)
    (hm : i.row.mask = 0xFF#8 ++ auxMask ++ dataMask) (h : i.row.selects cw = true) :
    opField cw = i.opcode ∧ auxField cw &&& auxMask = 0#24 ∧ dataField cw &&& dataMask = 0#32 := by
  have hw : (opField cw &&& 0xFF#8) ++ (auxField cw &&& auxMask) ++ (dataField cw &&& dataMask) =
      i.opcode ++ 0#24 ++ 0#32 := by
    rw [← Laws.command_and, append_fields, ← hm, ← row_bits]
    exact eq_of_beq h
  refine ⟨?_, ?_, ?_⟩
  · have := congrArg opField hw
    rwa [opField_append, opField_append, show 0xFF#8 = BitVec.allOnes 8 from rfl, BitVec.and_allOnes] at this
  · have := congrArg auxField hw
    rwa [auxField_append, auxField_append] at this
  · have := congrArg dataField hw
    rwa [dataField_append, dataField_append] at this

/-- The command of the same kind with the operands that stand in the fields of `cw`. -/
def Instr.withOperands (cw : CommandWord) : Instr → Instr
  | .create _ => .create (dataField cw)
  | .setbuf _ => .setbuf (dataField cw)
  | .bufrd _ => .bufrd (dataField cw)
  | .bufwr _ _ => .bufwr (dataField cw) ((auxField cw).extractLsb' 0 8)
  | .bytecnt => .bytecnt
  | .reset => .reset
  | .rdsr _ => .rdsr ((auxField cw).extractLsb' 0 8)
  | .wrbit _ => .wrbit ((dataField cw).extractLsb' 0 1)
  | .wrbits _ _ => .wrbits ((auxField cw).extractLsb' 0 5) (dataField cw)
  | .rdbit => .rdbit
  | .rdbits _ => .rdbits ((auxField cw).extractLsb' 0 5)
  | .wrbool _ => .wrbool ((dataField cw).extractLsb' 0 1)
  | .wru32 _ => .wru32 (dataField cw)
  | .wri32 _ => .wri32 (dataField cw)
  | .rdbool => .rdbool
  | .rdu32 => .rdu32
  | .rdi32 => .rdi32
  | .setprec _ => .setprec ((auxField cw).extractLsb' 0 4)
  | .wrf32 _ => .wrf32 (dataField cw)
  | .rdf32 => .rdf32

/-- A word that selects a row has the fields of a command of that row. -/
theorem hasFields_of_selects {i : Instr} {cw : CommandWord} (h : i.row.selects cw = true) :
    HasFields cw (i.withOperands cw) := by
  cases i with
  | create | setbuf | bufrd | wru32 | wri32 | wrf32 =>
    obtain ⟨hop, haux, -⟩ := fields_of_selects (BitVec.allOnes 24) 0#32 rfl h
    exact ⟨hop, eq_zero_of_and_allOnes haux, rfl⟩
  | bytecnt | reset | rdbit | rdbool | rdu32 | rdi32 | rdf32 =>
    obtain ⟨hop, haux, hdata⟩ := fields_of_selects (BitVec.allOnes 24) (BitVec.allOnes 32) rfl h
    exact ⟨hop, eq_zero_of_and_allOnes haux, eq_zero_of_and_allOnes hdata⟩
  | wrbit | wrbool =>
    obtain ⟨hop, haux, hdata⟩ := fields_of_selects (BitVec.allOnes 24) (BitVec.allOnes 31 ++ 0#1) rfl h
    exact ⟨hop, eq_zero_of_and_allOnes haux, eq_zero_append_of_and hdata⟩
  | bufwr =>
    obtain ⟨hop, haux, -⟩ := fields_of_selects (BitVec.allOnes 16 ++ 0#8) 0#32 rfl h
    exact ⟨hop, eq_zero_append_of_and haux, rfl⟩
  | wrbits =>
    obtain ⟨hop, haux, -⟩ := fields_of_selects (BitVec.allOnes 19 ++ 0#5) 0#32 rfl h
    exact ⟨hop, eq_zero_append_of_and haux, rfl⟩
  | rdsr =>
    obtain ⟨hop, haux, hdata⟩ := fields_of_selects (BitVec.allOnes 16 ++ 0#8) (BitVec.allOnes 32) rfl h
    exact ⟨hop, eq_zero_append_of_and haux, eq_zero_of_and_allOnes hdata⟩
  | rdbits =>
    obtain ⟨hop, haux, hdata⟩ := fields_of_selects (BitVec.allOnes 19 ++ 0#5) (BitVec.allOnes 32) rfl h
    exact ⟨hop, eq_zero_append_of_and haux, eq_zero_of_and_allOnes hdata⟩
  | setprec =>
    obtain ⟨hop, haux, hdata⟩ := fields_of_selects (BitVec.allOnes 20 ++ 0#4) (BitVec.allOnes 32) rfl h
    exact ⟨hop, eq_zero_append_of_and haux, eq_zero_of_and_allOnes hdata⟩

theorem wf_withOperands {i : Instr} {cw : CommandWord} (h : i.row.constraint cw) : (i.withOperands cw).wf = true := by
  cases i with
  | rdsr => 
    have haux : (auxField cw).toNat ≤ 5 := h rfl
    have hlow : ((auxField cw).extractLsb' 0 8).toNat ≤ (auxField cw).toNat := by
      rw [BitVec.extractLsb'_toNat]
      exact Nat.mod_le _ _
    exact decide_eq_true (hlow.trans haux)
  | _ => rfl

end Sys2Proof

namespace Sys2Proof.Machine

/-- The status of an error stands above whatever its `rdata` is (30_encoding.md R51). -/
theorem extractLsb'_word_error (unspecified : Value) (e : ErrorKind) :
    ((Response.error e).word unspecified).extractLsb' 32 8 = e.code := BitVec.extractLsb'_append_eq_left

/-! ## The obligations -/

/-- Settles O1, constructor by constructor in `decode_encode`. -/
theorem decodeInvertsEncode : Obligations.DecodeInvertsEncode := fun _ h => decode_encode h

/-- Settles O2: the command's fields are those of the word, and a word is its fields. -/
theorem encodeInvertsDecode : Obligations.EncodeInvertsDecode := by
  intro cw i h
  obtain ⟨hfields, hwf⟩ := hasFields_of_decode h
  exact ⟨hwf, hfields.encode_eq⟩

/-- Settles O3: an accepted word is an encoded command (O2), which selects its own row; a word that selects a row is the encoding
of a command of that row, which decodes (O1). -/
theorem decodeAcceptsExactlyTheTable : Obligations.DecodeAcceptsExactlyTheTable := by
  intro cw
  rw [legalWord_iff]
  constructor
  · rintro ⟨i, h⟩
    obtain ⟨hwf, rfl⟩ := encodeInvertsDecode cw i h
    obtain ⟨hmem, hsel⟩ := encodeSelectsRow i hwf
    exact ⟨i.row, hmem, hsel, constraint_encode hwf⟩
  · rintro ⟨row, hmem, hsel, hc⟩
    obtain ⟨i, -, rfl⟩ := List.mem_map.mp hmem
    have hdecode := decode_encode (wf_withOperands hc)
    rw [(hasFields_of_selects hsel).encode_eq] at hdecode
    exact ⟨_, hdecode⟩

/-- Settles O4: the legal samples are encodings (O1), the illegal ones each fail one test of the decoder. -/
theorem sampleWordsDecode : Obligations.SampleWordsDecode :=
  ⟨decode_encode (i := .create 12) rfl, decode_encode (i := .bufwr 9 0xAB) rfl, decode_encode (i := .rdsr 4) rfl,
    decode_encode (i := .wrbits 29 0x2AAAAAAA) rfl, decode_encode (i := .rdbits 31) rfl,
    decode_encode (i := .wri32 0xFFFFFFFE) rfl, decode_encode (i := .setprec 2) rfl,
    decode_encode (i := .wrf32 0x40490FD0) rfl, rfl, rfl, rfl⟩

/-- Settles O6: the status is the high part of the word, the data the low part. -/
theorem responseWordHasStatusAndData : Obligations.ResponseWordHasStatusAndData :=
  ⟨fun _ _ => rfl, extractLsb'_word_error, rfl⟩

end Sys2Proof.Machine
end

section
/-! SUPPORT. Proofs about the assembler's lines (30_encoding.md R57, R58): what each line expands to, and what the expansions of
LOADBUF and DUMPBUF do when the host issues them. -/

namespace Sys2Proof.Machine

/-! ## The number of a command word -/

/-- Appending is adding where the low part is shorter than the shift. -/
theorem toNat_append_eq_add {m n : Nat} (x : BitVec m) (y : BitVec n) : (x ++ y).toNat = x.toNat * 2 ^ n + y.toNat := by
  rw [BitVec.toNat_append, ← Nat.shiftLeft_add_eq_or_of_lt y.isLt, Nat.shiftLeft_eq]

theorem toNat_encode (i : Instr) : (encode i).toNat = wordNumber i.opcode.toNat i.aux.toNat i.data.toNat := by
  rw [encode_eq_append, toNat_append_eq_add, toNat_append_eq_add, wordNumber]
  omega

/-! The commands whose `aux` is a short operand. -/

theorem toNat_encode_bufwr (addr : Value) (byte : Byte) :
    (encode (.bufwr addr byte)).toNat = wordNumber 0x04 byte.toNat addr.toNat :=
  (toNat_encode _).trans (congrArg (wordNumber 0x04 · _) (toNat_zero_append byte))

theorem toNat_encode_rdsr (n : BitVec 8) : (encode (.rdsr n)).toNat = wordNumber 0x07 n.toNat 0 :=
  (toNat_encode _).trans (congrArg (wordNumber 0x07 · 0) (toNat_zero_append n))

theorem toNat_encode_wrbits (n : BitVec 5) (bits : Value) :
    (encode (.wrbits n bits)).toNat = wordNumber 0x11 n.toNat bits.toNat :=
  (toNat_encode _).trans (congrArg (wordNumber 0x11 · _) (toNat_zero_append n))

theorem toNat_encode_rdbits (n : BitVec 5) : (encode (.rdbits n)).toNat = wordNumber 0x19 n.toNat 0 :=
  (toNat_encode _).trans (congrArg (wordNumber 0x19 · 0) (toNat_zero_append n))

theorem toNat_encode_setprec (places : BitVec 4) : (encode (.setprec places)).toNat = wordNumber 0x30 places.toNat 0 :=
  (toNat_encode _).trans (congrArg (wordNumber 0x30 · 0) (toNat_zero_append places))

/-! ## Operands -/

/-- An operand in its range is kept as it is, any other is refused; `p` is the range as R57 writes it. -/
theorem map_operand {α : Type} {w n : Nat} {p : Prop} [Decidable p] (hp : p ↔ n < 2 ^ w) (f : BitVec w → α) :
    (operand w n).map f = if p then some (f (BitVec.ofNat w n)) else none := by
  rw [operand, apply_ite (Option.map f)]
  exact if_congr hp.symm rfl rfl

theorem map_lengthOperand {α : Type} (n : Nat) (f : BitVec 5 → α) :
    (lengthOperand n).map f = if 1 ≤ n ∧ n ≤ 32 then some (f (BitVec.ofNat 5 (n - 1))) else none :=
  apply_ite (Option.map f) _ _ _

theorem map_signedOperand {α : Type} (v : Int) (f : Value → α) :
    (signedOperand v).map f = if -(2 ^ 31) ≤ v ∧ v ≤ 2 ^ 31 - 1 then some (f (BitVec.ofInt 32 v)) else none :=
  apply_ite (Option.map f) _ _ _

/-- Two operands are both in range or the line is refused. -/
theorem bind_ite_ite {α β : Type} {p q : Prop} [Decidable p] [Decidable q] (a : α) (f : α → β) :
    ((if p then some a else none).bind fun v => if q then some (f v) else none) = if p ∧ q then some (f a) else none := by
  by_cases hp : p
  · simp only [hp, if_true, true_and, Option.bind_some]
  · simp only [hp, if_false, false_and, Option.bind_none]

theorem toNat_ofNat_of_lt {w n : Nat} (h : n < 2 ^ w) : (BitVec.ofNat w n).toNat = n := by
  rw [BitVec.toNat_ofNat, Nat.mod_eq_of_lt h]

/-- A signed operand in two's complement, as R57 words it. -/
theorem toNat_ofInt_of_signed {v : Int} (h : -(2 ^ 31) ≤ v ∧ v ≤ 2 ^ 31 - 1) :
    (BitVec.ofInt 32 v).toNat = (if 0 ≤ v then v else v + 2 ^ 32).toNat := by
  rw [BitVec.toNat_ofInt]
  split <;> omega

/-! ## Lines of one command -/

/-- A line that stands for one command. -/
theorem assemblesTo_one {l : AsmLine} {i : Instr} {word : Nat} (hl : assemble l = some [i]) (hwf : i.wf = true)
    (hword : (encode i).toNat = word) : AssemblesTo l [word] :=
  ⟨[i], hl, List.forall_mem_singleton.mpr hwf, congrArg (fun n => [n]) hword⟩

/-- A line that stands for one command when its operands are in range, and is refused otherwise. -/
theorem assemblesTo_ite {l : AsmLine} {i : Instr} {word : Nat} {p : Prop} [Decidable p]
    (hl : assemble l = if p then some [i] else none) (hwf : p → i.wf = true) (hword : p → (encode i).toNat = word) :
    if p then AssemblesTo l [word] else assemble l = none := by
  split at hl
  · next h => rw [if_pos h]; exact assemblesTo_one hl (hwf h) (hword h)
  · next h => rw [if_neg h]; exact hl

/-- A line whose one operand is the command's `data`. -/
theorem assemblesTo_data {l : AsmLine} {n : Nat} (op : Nat) (c : Value → Instr)
    (hl : assemble l = (operand 32 n).map fun v => [c v]) (hwf : ∀ v, (c v).wf = true)
    (hword : ∀ v, (encode (c v)).toNat = wordNumber op 0 v.toNat) :
    if n < 2 ^ 32 then AssemblesTo l [wordNumber op 0 n] else assemble l = none := by
  refine assemblesTo_ite (hl.trans (map_operand Iff.rfl _)) (fun _ => hwf _) fun h => ?_
  rw [hword, toNat_ofNat_of_lt h]

/-- A line whose one operand is a bit, in the lowest bit of `data`. -/
theorem assemblesTo_bit {l : AsmLine} {n : Nat} (op : Nat) (c : BitVec 1 → Instr)
    (hl : assemble l = (operand 1 n).map fun b => [c b]) (hwf : ∀ b, (c b).wf = true)
    (hword : ∀ b, (encode (c b)).toNat = wordNumber op 0 (0#31 ++ b).toNat) :
    if n ≤ 1 then AssemblesTo l [wordNumber op 0 n] else assemble l = none := by
  refine assemblesTo_ite (hl.trans (map_operand (by omega) _)) (fun _ => hwf _) fun h => ?_
  rw [hword, toNat_zero_append, toNat_ofNat_of_lt (by omega)]

theorem assemblesTo_bufwr (a b : Nat) :
    if a < 2 ^ 32 ∧ b ≤ 255 then AssemblesTo (.bufwr a b) [wordNumber 0x04 b a] else assemble (.bufwr a b) = none := by
  have hbyte (v : Value) : ((operand 8 b).map fun u => [Instr.bufwr v u]) = _ :=
    map_operand (p := b ≤ 255) (by omega) _
  refine assemblesTo_ite ((congrArg _ (funext hbyte)).trans (bind_ite_ite _ _)) (fun _ => rfl) fun ⟨ha, hb⟩ => ?_
  exact (toNat_encode_bufwr _ _).trans (by rw [toNat_ofNat_of_lt ha, toNat_ofNat_of_lt (by omega)])

theorem assemblesTo_rdsr (n : Nat) :
    if n ≤ 5 then AssemblesTo (.rdsr n) [wordNumber 0x07 n 0] else assemble (.rdsr n) = none := by
  refine assemblesTo_ite rfl (fun h => ?_) fun h => ?_
  · exact decide_eq_true (by rwa [toNat_ofNat_of_lt (by omega)])
  · exact (toNat_encode_rdsr _).trans (by rw [toNat_ofNat_of_lt (by omega)])

theorem assemblesTo_rdsrNamed (name : StatusReg) :
    AssemblesTo (.rdsrNamed name) [wordNumber 0x07 (statusNumber name).toNat 0] :=
  assemblesTo_one rfl (by cases name <;> rfl) (toNat_encode_rdsr _)

theorem assemblesTo_wrbits (length bits : Nat) :
    if 1 ≤ length ∧ length ≤ 32 ∧ bits < 2 ^ 32
    then AssemblesTo (.wrbits length bits) [wordNumber 0x11 (length - 1) bits] else assemble (.wrbits length bits) = none := by
  have hbits (n : BitVec 5) : ((operand 32 bits).map fun v => [Instr.wrbits n v]) = _ := map_operand Iff.rfl _
  have hline : assemble (.wrbits length bits) = if 1 ≤ length ∧ length ≤ 32 ∧ bits < 2 ^ 32
      then some [.wrbits (BitVec.ofNat 5 (length - 1)) (BitVec.ofNat 32 bits)] else none :=
    ((congrArg _ (funext hbits)).trans (bind_ite_ite _ _)).trans (if_congr and_assoc rfl rfl)
  refine assemblesTo_ite hline (fun _ => rfl) fun ⟨h1, h32, hb⟩ => ?_
  exact (toNat_encode_wrbits _ _).trans (by rw [toNat_ofNat_of_lt (by omega), toNat_ofNat_of_lt hb])

theorem assemblesTo_rdbits (length : Nat) :
    if 1 ≤ length ∧ length ≤ 32 then AssemblesTo (.rdbits length) [wordNumber 0x19 (length - 1) 0]
    else assemble (.rdbits length) = none := by
  refine assemblesTo_ite (map_lengthOperand length _) (fun _ => rfl) fun ⟨h1, h32⟩ => ?_
  exact (toNat_encode_rdbits _).trans (by rw [toNat_ofNat_of_lt (by omega)])

theorem assemblesTo_wri32 (v : Int) :
    if -(2 ^ 31) ≤ v ∧ v ≤ 2 ^ 31 - 1
    then AssemblesTo (.wri32 v) [wordNumber 0x22 0 (if 0 ≤ v then v else v + 2 ^ 32).toNat]
    else assemble (.wri32 v) = none := by
  refine assemblesTo_ite (map_signedOperand v _) (fun _ => rfl) fun h => ?_
  exact (toNat_encode _).trans (congrArg (wordNumber 0x22 0) (toNat_ofInt_of_signed h))

theorem assemblesTo_setprec (places : Nat) :
    if places ≤ 15 then AssemblesTo (.setprec places) [wordNumber 0x30 places 0] else assemble (.setprec places) = none := by
  refine assemblesTo_ite (map_operand (by omega) _) (fun _ => rfl) fun h => ?_
  exact (toNat_encode_setprec _).trans (by rw [toNat_ofNat_of_lt (by omega)])

/-! ## LOADBUF and DUMPBUF -/

/-- The BUFWR commands of LOADBUF for the bytes from address `k` up, their operands in range. -/
def storeCommands : Nat → List Nat → List Instr
  | _, [] => []
  | k, b :: bs => .bufwr (BitVec.ofNat 32 k) (BitVec.ofNat 8 b) :: storeCommands (k + 1) bs

/-- The addresses of a LOADBUF in range leave only the bytes to be refused. -/
theorem storeBytes_eq (k : Nat) (bytes : List Nat) (h : k + bytes.length ≤ 2 ^ 32) :
    storeBytes k bytes = if ∀ b ∈ bytes, b ≤ 255 then some (storeCommands k bytes) else none := by
  induction bytes generalizing k with
  | nil => rfl
  | cons b bs ih =>
    rw [List.length_cons] at h
    have haddr : operand 32 k = some (BitVec.ofNat 32 k) := if_pos (by omega)
    have hbyte : operand 8 b = if b ≤ 255 then some (BitVec.ofNat 8 b) else none := if_congr (by omega) rfl rfl
    have hrest (byte : Byte) : ((storeBytes (k + 1) bs).map fun rest => Instr.bufwr (BitVec.ofNat 32 k) byte :: rest) = _ :=
      (congrArg _ (ih (k + 1) (by omega))).trans (apply_ite (Option.map _) _ _ _)
    rw [storeBytes, haddr, Option.bind_some, hbyte]
    have hall := List.forall_mem_cons (p := (· ≤ 255)) (a := b) (l := bs)
    exact ((congrArg _ (funext hrest)).trans (bind_ite_ite _ _)).trans (if_congr hall.symm rfl rfl)

theorem wf_storeCommands (k : Nat) (bytes : List Nat) : ∀ i ∈ storeCommands k bytes, i.wf = true := by
  induction bytes generalizing k with
  | nil => exact List.forall_mem_nil _
  | cons b bs ih => exact List.forall_mem_cons.mpr ⟨rfl, ih (k + 1)⟩

theorem map_encode_storeCommands (k : Nat) (bytes : List Nat) (h : k + bytes.length ≤ 2 ^ 32)
    (hb : ∀ b ∈ bytes, b ≤ 255) :
    (storeCommands k bytes).map (fun i => (encode i).toNat) = bytes.mapIdx fun j b => wordNumber 0x04 b (k + j) := by
  induction bytes generalizing k with
  | nil => rfl
  | cons b bs ih =>
    rw [List.length_cons] at h
    obtain ⟨hbyte, hrest⟩ := List.forall_mem_cons.mp hb
    rw [storeCommands, List.map_cons, List.mapIdx_cons, ih (k + 1) (by omega) hrest, toNat_encode_bufwr,
      toNat_ofNat_of_lt (by omega), toNat_ofNat_of_lt (by omega)]
    simp only [Nat.add_zero, Nat.add_assoc, Nat.add_comm 1]

/-- What LOADBUF stands for (30_encoding.md R58). -/
theorem assemble_loadbuf (bytes : List Nat) :
    assemble (.loadbuf bytes) = if bytes.length < 2 ^ 32 ∧ ∀ b ∈ bytes, b ≤ 255
      then some (.setbuf (BitVec.ofNat 32 bytes.length) :: storeCommands 0 bytes) else none := by
  by_cases hlen : bytes.length < 2 ^ 32
  · have hrest := storeBytes_eq 0 bytes (by omega)
    simp only [assemble, operand, hlen, hrest, if_true, true_and, Option.bind_some, apply_ite (Option.map _), Option.map_some,
      Option.map_none]
  · simp only [assemble, operand, hlen, if_false, false_and, Option.bind_none]

theorem assemblesTo_loadbuf (bytes : List Nat) :
    if bytes.length < 2 ^ 32 ∧ ∀ b ∈ bytes, b ≤ 255
    then AssemblesTo (.loadbuf bytes) (wordNumber 0x02 0 bytes.length :: bytes.mapIdx fun k b => wordNumber 0x04 b k)
    else assemble (.loadbuf bytes) = none := by
  split
  · next h =>
    obtain ⟨hlen, hb⟩ := h
    have hwords := map_encode_storeCommands 0 bytes (by omega) hb
    have hline := (assemble_loadbuf bytes).trans (if_pos ⟨hlen, hb⟩)
    refine ⟨_, hline, List.forall_mem_cons.mpr ⟨rfl, wf_storeCommands 0 bytes⟩, ?_⟩
    simp only [Nat.zero_add] at hwords
    rw [List.map_cons, hwords, toNat_encode]
    exact congrArg (wordNumber 0x02 0 · :: _) (toNat_ofNat_of_lt hlen)
  · next h => rw [assemble_loadbuf, if_neg h]

theorem assemblesTo_dumpbuf (n : Nat) :
    if n ≤ 2 ^ 32 then AssemblesTo (.dumpbuf n) ((List.range n).map fun k => wordNumber 0x03 0 k)
    else assemble (.dumpbuf n) = none := by
  split
  · next h =>
    refine ⟨_, if_pos h, List.forall_mem_map.mpr fun _ _ => rfl, ?_⟩
    rw [List.map_map]
    refine List.map_congr_left fun k hk => ?_
    have hk : k < 2 ^ 32 := Nat.lt_of_lt_of_le (List.mem_range.mp hk) h
    exact (toNat_encode _).trans (congrArg (wordNumber 0x03 0) (toNat_ofNat_of_lt hk))
  · next h => exact if_neg h

/-! ## Runs of commands -/

theorem execUntilError_respond {i : Instr} {is : List Instr} {s t : State} {v : Value} (h : exec i s = .next (t.respond v)) :
    execUntilError (i :: is) s = execUntilError is (t.respond v) := by
  rw [execUntilError, h]; rfl

theorem execUntilError_raise {i : Instr} {is : List Instr} {s t : State} {e : ErrorKind} (h : exec i s = .next (t.raise e)) :
    execUntilError (i :: is) s = .next (t.raise e) := by
  rw [execUntilError, h]; rfl

theorem execOk_respond {i : Instr} {s t : State} {v : Value} (h : exec i s = .next (t.respond v)) :
    execOk i s = some (v, t.respond v) := by
  rw [execOk, h]; rfl

/-! ## The commands the expansions are made of -/

/-- A length SETBUF accepts: whole words, at least one and no more than RAM has (40_buffer.md R71). -/
theorem exec_setbuf_conforming {s : State} {len : Value} (h0 : len.toNat ≠ 0) (h8 : len.toNat % 8 = 0)
    (hmax : len.toNat / 8 ≤ s.maxSegments.toNat) :
    exec (.setbuf len) s = .next ((State.rewind { s with totalSeg := BitVec.ofNat 29 (len.toNat / 8) }).respond 0#32) := by
  rw [exec, execSetbuf, if_neg (by omega), if_neg (by omega)]

theorem exec_setbuf_refused {s : State} {len : Value}
    (h : len.toNat = 0 ∨ len.toNat % 8 ≠ 0 ∨ s.maxSegments.toNat < len.toNat / 8) :
    exec (.setbuf len) s = .next (s.raise .invalidBuffer) := by
  rw [exec, execSetbuf]
  split
  · rfl
  · exact if_pos (by omega)

/-- A byte address in the buffer, as the 32-bit operand that carries it (20_memory.md R38). -/
theorem inBuffer_ofNat {s : State} {k : Nat} (h : k < 8 * s.totalSeg.toNat) :
    (BitVec.ofNat 32 k).toNat = k ∧ s.inBuffer (BitVec.ofNat 32 k) := by
  have hk : (BitVec.ofNat 32 k).toNat = k := toNat_ofNat_of_lt (by have := s.totalSeg.isLt; omega)
  exact ⟨hk, by rw [State.inBuffer, hk]; exact h⟩

theorem memRead_one (s : State) (a : Nat) : s.memRead a 1 = s.byteAt a :=
  (BitVec.extractLsb'_eq_self (x := s.memRead a 1)).symm.trans (extractLsb'_memRead s a 1 0 Nat.one_pos)

theorem exec_bufrd_inside {s : State} {k : Nat} (h : k < 8 * s.totalSeg.toNat) :
    exec (.bufrd (BitVec.ofNat 32 k)) s = .next (s.respond ((s.byteAt k).setWidth 32)) := by
  obtain ⟨hk, hin⟩ := inBuffer_ofNat h
  rw [exec, execBufrd, if_pos hin, hk, memRead_one]

theorem exec_bufwr_inside {s : State} {k : Nat} (b : Byte) (h : k < 8 * s.totalSeg.toNat) :
    exec (.bufwr (BitVec.ofNat 32 k) b) s = .next ((s.memWrite k 1 b).respond 0#32) := by
  obtain ⟨hk, hin⟩ := inBuffer_ofNat h
  rw [exec, execBufwr, if_pos hin, hk]

/-! ## What the expansions do -/

/-- The BUFWR commands of LOADBUF store their bytes one after the other and leave everything else as it was. -/
theorem execUntilError_storeCommands (bytes : List Nat) (k : Nat) {s : State} (hr : s.response = some (.ok 0))
    (hk : k + bytes.length ≤ 8 * s.totalSeg.toNat) (hb : ∀ b ∈ bytes, b ≤ 255) :
    ∃ t, execUntilError (storeCommands k bytes) s = .next t ∧ t = { s with ram := t.ram } ∧
      (∀ a < k, t.byteAt a = s.byteAt a) ∧ ∀ j, (t.byteAt (k + j)).toNat = (bytes[j]?).getD (s.byteAt (k + j)).toNat := by
  induction bytes generalizing k s with
  | nil => exact ⟨s, rfl, rfl, fun _ _ => rfl, fun _ => rfl⟩
  | cons b bs ih =>
    rw [List.length_cons] at hk
    obtain ⟨hbyte, hrest⟩ := List.forall_mem_cons.mp hb
    obtain ⟨t, hrun, hframe, hbelow, hbytes⟩ :=
      ih (k + 1) (s := (s.memWrite k 1 (BitVec.ofNat 8 b)).respond 0) rfl
        (by rw [respond_totalSeg, memWrite_totalSeg]; omega) hrest
    refine ⟨t, (execUntilError_respond (exec_bufwr_inside _ (by omega))).trans hrun, ?_, fun a ha => ?_, fun j => ?_⟩
    · exact hframe.trans (congrArg (fun response => { s with ram := t.ram, response := response }) hr.symm)
    · rw [hbelow a (by omega), respond_byteAt, byteAt_memWrite_outside _ _ _ _ _ (by omega)]
    · cases j with
      | zero =>
        rw [Nat.add_zero, hbelow k (by omega), respond_byteAt, byteAt_memWrite_byte]
        exact toNat_ofNat_of_lt (by omega)
      | succ j =>
        have hj := hbytes j
        rwa [respond_byteAt, byteAt_memWrite_outside _ _ _ _ _ (by omega), Nat.add_right_comm] at hj

/-- BUFRD commands inside the buffer answer its bytes in order and change nothing but the response. -/
theorem execAllOk_bufrd (ks : List Nat) {s : State} (h : ∀ k ∈ ks, k < 8 * s.totalSeg.toNat) :
    ∃ t, execAllOk (ks.map fun k => .bufrd (BitVec.ofNat 32 k)) s = some (ks.map fun k => (s.byteAt k).setWidth 32, t) ∧
      t = { s with response := t.response } := by
  induction ks generalizing s with
  | nil => exact ⟨s, rfl, rfl⟩
  | cons k ks ih =>
    obtain ⟨hk, hks⟩ := List.forall_mem_cons.mp h
    obtain ⟨t, hrun, hframe⟩ := ih (s := s.respond ((s.byteAt k).setWidth 32)) hks
    refine ⟨t, ?_, hframe⟩
    rw [List.map_cons, execAllOk, execOk_respond (exec_bufrd_inside hk), Option.bind_some, hrun]
    rfl

/-! ## The obligations -/

/-- Settles O5, line by line: each operand is a field of the one command, or the line is one of the two pseudo-commands. -/
theorem assembledLinesAreWellFormed : Obligations.AssembledLinesAreWellFormed := by
  have hnamed : ∀ p ∈ [(StatusReg.totalSeg, 0), (.wSeg, 1), (.wOff, 2), (.rSeg, 3), (.rOff, 4), (.factor, 5)],
      p.2 = (statusNumber p.1).toNat := by decide
  exact ⟨fun n => assemblesTo_data 0x01 .create rfl (fun _ => rfl) (fun _ => toNat_encode _),
    fun n => assemblesTo_data 0x02 .setbuf rfl (fun _ => rfl) (fun _ => toNat_encode _),
    fun a => assemblesTo_data 0x03 .bufrd rfl (fun _ => rfl) (fun _ => toNat_encode _),
    assemblesTo_bufwr,
    assemblesTo_one rfl rfl (toNat_encode _),
    assemblesTo_one rfl rfl (toNat_encode _),
    assemblesTo_rdsr,
    fun p hp => hnamed p hp ▸ assemblesTo_rdsrNamed p.1,
    fun b => assemblesTo_bit 0x10 .wrbit rfl (fun _ => rfl) (fun _ => toNat_encode _),
    assemblesTo_wrbits,
    assemblesTo_one rfl rfl (toNat_encode _),
    assemblesTo_rdbits,
    fun b => assemblesTo_bit 0x20 .wrbool rfl (fun _ => rfl) (fun _ => toNat_encode _),
    fun v => assemblesTo_data 0x21 .wru32 rfl (fun _ => rfl) (fun _ => toNat_encode _),
    assemblesTo_wri32,
    assemblesTo_one rfl rfl (toNat_encode _),
    assemblesTo_one rfl rfl (toNat_encode _),
    assemblesTo_one rfl rfl (toNat_encode _),
    assemblesTo_setprec,
    fun f => assemblesTo_data 0x31 .wrf32 rfl (fun _ => rfl) (fun _ => toNat_encode _),
    fun negative digits places => ⟨roundFloat negative digits (10 ^ places), assemblesTo_one rfl rfl (toNat_encode _)⟩,
    assemblesTo_one rfl rfl (toNat_encode _),
    assemblesTo_loadbuf,
    assemblesTo_dumpbuf⟩

/-- Settles O35: SETBUF answers for the length, and after it each BUFWR lies inside the buffer it declared. -/
theorem loadbufFillsBuffer : Obligations.LoadbufFillsBuffer := by
  intro bytes is s h
  rw [assemble_loadbuf, Option.ite_none_right_eq_some] at h
  obtain ⟨⟨hlen, hb⟩, his⟩ := h
  cases his
  have hlen' := toNat_ofNat_of_lt hlen
  refine ⟨fun h0 h8 hmax => ?_, fun hbad => execUntilError_raise (exec_setbuf_refused (by rwa [hlen']))⟩
  have hset := exec_setbuf_conforming (s := s) (by rwa [hlen']) (by rwa [hlen']) (by rwa [hlen'])
  rw [hlen'] at hset
  have htotal : 8 * (BitVec.ofNat 29 (bytes.length / 8)).toNat = bytes.length := by
    rw [toNat_ofNat_of_lt (by omega)]; omega
  obtain ⟨t, hrun, hframe, -, hbytes⟩ := execUntilError_storeCommands bytes 0
    (s := (State.rewind { s with totalSeg := BitVec.ofNat 29 (bytes.length / 8) }).respond 0) rfl
    (by rw [respond_totalSeg, rewind_totalSeg, htotal, Nat.zero_add]) hb
  refine ⟨t, (execUntilError_respond hset).trans hrun, ?_, ?_, fun a => ?_⟩
  · rw [hframe]; rfl
  · rw [hframe]; exact htotal
  · have ha := hbytes a
    rwa [Nat.zero_add] at ha

/-- Settles O36: the addresses from 0 up to the number of bytes all lie inside the buffer. -/
theorem dumpbufAnswersBytes : Obligations.DumpbufAnswersBytes := by
  intro n is s h hn
  obtain ⟨-, his⟩ := Option.ite_none_right_eq_some.mp h
  cases his
  exact execAllOk_bufrd (List.range n) fun k hk => Nat.lt_of_lt_of_le (List.mem_range.mp hk) hn

end Sys2Proof.Machine
end

section
/-! SUPPORT. Proofs about the rounding of a decimal literal (30_encoding.md R57, 43_quantizer.md R130). Every finite pattern is a
whole number of units of `2^(-149)`; the quotient to be rounded is measured in steps of `2^E` units, the spacing of the patterns
at and above its binade, so that rounding it to an integer number of steps rounds it to the nearest pattern. -/

namespace Sys2Proof.Machine

/-! ## Rounding to an integer -/

/-- `k` is an integer nearest to `q`, an even one where two are as near. -/
def IsNearestEven (k : Nat) (q : Rat) : Prop := |(k : Rat) - q| ≤ 1 / 2 ∧ (|(k : Rat) - q| = 1 / 2 → k % 2 = 0)

theorem isNearestEven_down {k : Nat} {ρ : Rat} (h0 : 0 ≤ ρ) (hhalf : ρ ≤ 1 / 2) (htie : ρ = 1 / 2 → k % 2 = 0) :
    IsNearestEven k (k + ρ) := by
  rw [IsNearestEven, sub_add_cancel_left, abs_neg, abs_of_nonneg h0]
  exact ⟨hhalf, htie⟩

theorem isNearestEven_up {k : Nat} {ρ : Rat} (hhalf : 1 / 2 ≤ ρ) (h1 : ρ ≤ 1) (htie : ρ = 1 / 2 → (k + 1) % 2 = 0) :
    IsNearestEven (k + 1) (k + ρ) := by
  have hdist : |((k + 1 : Nat) : Rat) - (k + ρ)| = 1 - ρ := by
    push_cast
    rw [add_sub_add_left_eq_sub, abs_of_nonneg (by linarith)]
  rw [IsNearestEven, hdist]
  exact ⟨by linarith, fun h => htie (by linarith)⟩

theorem isNearestEven_roundHalfEven (n : Nat) {d : Nat} (hd : 0 < d) :
    IsNearestEven (roundHalfEven n d) ((n : Rat) / d) := by
  have hd' : (0 : Rat) < d := by exact_mod_cast hd
  obtain ⟨ρ, hρ⟩ : ∃ ρ : Rat, ρ = ((n % d : Nat) : Rat) / d := ⟨_, rfl⟩
  have hquot : (n : Rat) / d = ((n / d : Nat) : Rat) + ρ := by
    rw [hρ]; field_simp; exact_mod_cast (Nat.div_add_mod n d).symm
  have h0 : 0 ≤ ρ := by rw [hρ]; positivity
  have h1 : ρ < 1 := by rw [hρ, div_lt_one hd']; exact_mod_cast Nat.mod_lt n hd
  have hgt : 2 * (n % d) > d ↔ 1 / 2 < ρ := by
    rw [hρ, div_lt_div_iff₀ two_pos hd', one_mul, mul_comm]; exact_mod_cast Iff.rfl
  have heq : 2 * (n % d) = d ↔ ρ = 1 / 2 := by
    rw [hρ, div_eq_div_iff hd'.ne' two_ne_zero, one_mul, mul_comm]; exact_mod_cast Iff.rfl
  rw [hquot]
  simp only [roundHalfEven, hgt, heq]
  split
  · next hup =>
    refine isNearestEven_up ?_ h1.le fun htie => ?_
    · rcases hup with h | ⟨h, -⟩ <;> linarith
    · rcases hup with h | ⟨-, hodd⟩
      · linarith
      · omega
  · next hdown =>
    push Not at hdown
    obtain ⟨hle, heven⟩ := hdown
    exact isNearestEven_down h0 hle fun htie => by have := heven htie; omega

/-- A nearest integer is nearest among the integers, and among the numbers below an integer that `q` has reached. -/
theorem IsNearestEven.le_abs {k : Nat} {q γ : Rat} (h : IsNearestEven k q)
    (hγ : (∃ m : Int, γ = m) ∨ ∃ m : Int, γ < m ∧ m ≤ q) :
    |(k : Rat) - q| ≤ |γ - q| ∧ (|(k : Rat) - q| = |γ - q| → γ ≠ k → k % 2 = 0) := by
  obtain ⟨hhalf, htie⟩ := h
  have hint (m : Int) (hm : m ≠ k) : 1 / 2 ≤ |(m : Rat) - q| := by
    have hone : (1 : Rat) ≤ |(m : Rat) - (k : Rat)| := by exact_mod_cast Int.one_le_abs (sub_ne_zero.mpr hm)
    have := abs_sub_le (m : Rat) q k
    rw [abs_sub_comm q] at this
    linarith
  have hintle (m : Int) : |(k : Rat) - q| ≤ |(m : Rat) - q| := by
    by_cases hm : m = k
    · rw [hm]; exact le_refl _
    · exact hhalf.trans (hint m hm)
  rcases hγ with ⟨m, rfl⟩ | ⟨m, hlt, hle⟩
  · refine ⟨hintle m, fun heq hne => htie (le_antisymm hhalf ?_)⟩
    rw [heq]
    exact hint m (by exact_mod_cast hne)
  · have hstrict : |(m : Rat) - q| < |γ - q| := by
      rw [abs_sub_comm, abs_sub_comm γ, abs_of_nonneg (by linarith), abs_of_nonneg (by linarith)]
      linarith
    have := hintle m
    exact ⟨by linarith, fun heq => by linarith⟩

theorem IsNearestEven.le {k N : Nat} {q : Rat} (h : IsNearestEven k q) (hq : q ≤ N) : k ≤ N := by
  obtain ⟨hhalf, -⟩ := h
  by_contra hlt
  have hN : (N : Rat) + 1 ≤ k := by exact_mod_cast not_le.mp hlt
  have hk := le_of_abs_le hhalf
  linarith

theorem IsNearestEven.ge {k N : Nat} {q : Rat} (h : IsNearestEven k q) (hq : N ≤ q) : N ≤ k := by
  obtain ⟨hhalf, -⟩ := h
  by_contra hlt
  have hN : (k : Rat) + 1 ≤ N := by exact_mod_cast not_le.mp hlt
  have hk := neg_le_of_abs_le hhalf
  linarith

/-! ## Patterns as whole numbers of units -/

/-- The magnitude of a finite pattern in units of `2^(-149)`, the smallest subnormal. -/
def floatUnits (f : Value) : Nat := floatSignificand f * 2 ^ (floatScale f - 1)

/-- The factor of a sign. -/
def signFactor (negative : Bool) : Rat := if negative then -1 else 1

theorem signFactor_mul (b c : Bool) : signFactor b * signFactor c = signFactor (b ^^ c) := by
  cases b <;> cases c <;> norm_num [signFactor]

theorem signFactor_mul_self (b : Bool) : signFactor b * signFactor b = 1 := by
  cases b <;> norm_num [signFactor]

theorem abs_signFactor (b : Bool) : |signFactor b| = 1 := by
  cases b <;> norm_num [signFactor]

theorem floatValue_eq_units (f : Value) :
    floatValue f = signFactor (floatSign f) * (floatUnits f : Rat) * (2 : Rat) ^ (-149 : Int) := by
  have hscale : 1 ≤ floatScale f := le_max_right _ _
  have hpow : (2 : Rat) ^ ((floatScale f : Int) - 150) = (2 : Rat) ^ (floatScale f - 1) * (2 : Rat) ^ (-149 : Int) := by
    rw [← zpow_natCast, ← zpow_add₀ two_ne_zero]
    congr 1; omega
  rw [floatValue, hpow, floatUnits, signFactor]
  push_cast; ring

/-- A pattern is a multiple of `2^E` units, or it lies below the binade whose spacing that is. -/
theorem dvd_floatUnits_or_lt (f : Value) (E : Nat) : 2 ^ E ∣ floatUnits f ∨ E ≠ 0 ∧ floatUnits f < 2 ^ (E + 23) := by
  have hfrac : floatFraction f < 2 ^ 23 := (f.extractLsb' 0 23).isLt
  have hsig : floatSignificand f < 2 ^ 24 := by rw [floatSignificand]; split <;> omega
  by_cases h : E ≤ floatScale f - 1
  · exact .inl (Dvd.dvd.mul_left (pow_dvd_pow 2 h) _)
  · refine .inr ⟨by omega, ?_⟩
    calc floatUnits f
      _ < 2 ^ 24 * 2 ^ (floatScale f - 1) := Nat.mul_lt_mul_of_pos_right hsig (by positivity)
      _ = 2 ^ (24 + (floatScale f - 1)) := (pow_add 2 _ _).symm
      _ ≤ 2 ^ (E + 23) := Nat.pow_le_pow_right (by decide) (by omega)

/-! ## Patterns built from their sign and magnitude -/

/-- The pattern with a sign and, below it, exponent and fraction as one number. -/
def signedPattern (negative : Bool) (magnitude : Nat) : Value :=
  BitVec.ofNat 32 ((if negative then 2 ^ 31 else 0) + magnitude)

theorem roundFloat_eq (negative : Bool) (n d : Nat) : roundFloat negative n d = signedPattern negative (roundMagnitude n d) := rfl

section
variable {m : Nat} (b : Bool)

theorem floatSign_signedPattern (hm : m < 2 ^ 31) : floatSign (signedPattern b m) = b := by
  rw [floatSign, signedPattern, BitVec.getLsbD_ofNat, Nat.testBit_eq_decide_div_mod_eq]
  cases b <;> simp <;> omega

theorem floatExponent_signedPattern (hm : m < 2 ^ 31) : floatExponent (signedPattern b m) = m / 2 ^ 23 := by
  rw [floatExponent, signedPattern, BitVec.extractLsb'_toNat, BitVec.toNat_ofNat, Nat.shiftRight_eq_div_pow]
  split <;> omega

theorem floatFraction_signedPattern : floatFraction (signedPattern b m) = m % 2 ^ 23 := by
  rw [floatFraction, signedPattern, BitVec.extractLsb'_toNat, BitVec.toNat_ofNat, Nat.shiftRight_zero]
  split <;> omega

end

theorem floatUnits_of_subnormal {f : Value} (h : floatExponent f = 0) : floatUnits f = floatFraction f := by
  rw [floatUnits, floatSignificand, floatScale, if_pos h, h]
  norm_num

theorem floatUnits_of_normal {f : Value} {e : Nat} (h : floatExponent f = e + 1) :
    floatUnits f = (2 ^ 23 + floatFraction f) * 2 ^ e := by
  rw [floatUnits, floatSignificand, floatScale, if_neg (by omega), h, Nat.max_eq_left (Nat.le_add_left 1 e), Nat.add_sub_cancel]

/-- `k` steps of `2^E` units: adding `k` to the exponent field `E`, shifted into place, spells that value, carry included. -/
theorem floatUnits_steps {E k : Nat} (b : Bool) (hk : k ≤ 2 ^ 24) (hE : E = 0 ∨ 2 ^ 23 ≤ k)
    (hm : E * 2 ^ 23 + k < 2 ^ 31) : floatUnits (signedPattern b (E * 2 ^ 23 + k)) = k * 2 ^ E := by
  have hexp := floatExponent_signedPattern b hm
  have hfrac := floatFraction_signedPattern (m := E * 2 ^ 23 + k) b
  rcases Nat.lt_or_ge k (2 ^ 23) with hsub | hnormal
  · obtain rfl : E = 0 := by omega
    rw [floatUnits_of_subnormal (by omega), hfrac]
    omega
  · rcases Nat.lt_or_ge k (2 ^ 24) with hlt | hcarry
    · rw [floatUnits_of_normal (e := E) (by omega), hfrac]
      congr 1; omega
    · rw [floatUnits_of_normal (e := E + 1) (by omega), hfrac, show (E * 2 ^ 23 + k) % 2 ^ 23 = 0 by omega, show k = 2 ^ 24 by omega]
      ring

/-! ## The binade of a quotient -/

/-- A quotient scaled by a power of 2, numerator or denominator, whichever the power's sign asks for. -/
theorem scaled_quotient (n d : Nat) (t : Int) :
    ((n * 2 ^ t.toNat : Nat) : Rat) / ((d * 2 ^ (-t).toNat : Nat) : Rat) = (n : Rat) / d * (2 : Rat) ^ t := by
  have hpow : (2 : Rat) ^ t = 2 ^ t.toNat / 2 ^ (-t).toNat := by
    rw [← zpow_natCast, ← zpow_natCast, ← zpow_sub₀ two_ne_zero]
    congr 1; omega
  push_cast
  rw [hpow, mul_div_mul_comm]

theorem quotientExponent_spec {n d : Nat} (hn : 0 < n) (hd : 0 < d) :
    (2 : Rat) ^ quotientExponent n d ≤ (n : Rat) / d ∧ (n : Rat) / d < (2 : Rat) ^ (quotientExponent n d + 1) := by
  obtain ⟨e, he⟩ : ∃ e : Int, e = (Nat.log2 n : Int) - (Nat.log2 d : Int) := ⟨_, rfl⟩
  have hd' : (0 : Rat) < d := by exact_mod_cast hd
  have hnlo : (2 : Rat) ^ Nat.log2 n ≤ n := by exact_mod_cast Nat.log2_self_le hn.ne'
  have hnhi : (n : Rat) < 2 ^ (Nat.log2 n + 1) := by exact_mod_cast Nat.lt_log2_self
  have hdlo : (2 : Rat) ^ Nat.log2 d ≤ d := by exact_mod_cast Nat.log2_self_le hd.ne'
  have hdhi : (d : Rat) < 2 ^ (Nat.log2 d + 1) := by exact_mod_cast Nat.lt_log2_self
  have hlo : (2 : Rat) ^ (e - 1) ≤ (n : Rat) / d := by
    calc (2 : Rat) ^ (e - 1)
      _ = 2 ^ Nat.log2 n / 2 ^ (Nat.log2 d + 1) := by
        rw [← zpow_natCast, ← zpow_natCast, ← zpow_sub₀ two_ne_zero]; congr 1; omega
      _ ≤ n / d := by gcongr
  have hhi : (n : Rat) / d < (2 : Rat) ^ (e + 1) := by
    calc (n : Rat) / d
      _ < 2 ^ (Nat.log2 n + 1) / 2 ^ Nat.log2 d := by gcongr
      _ = (2 : Rat) ^ (e + 1) := by
        rw [← zpow_natCast, ← zpow_natCast, ← zpow_sub₀ two_ne_zero]; congr 1; omega
  have htest : n * 2 ^ (-e).toNat < d * 2 ^ e.toNat ↔ (n : Rat) / d < (2 : Rat) ^ e := by
    have hscaled := scaled_quotient n d (-e)
    rw [neg_neg, zpow_neg, ← div_eq_mul_inv] at hscaled
    rw [← div_lt_one (by positivity : (0 : Rat) < 2 ^ e), ← hscaled, div_lt_one (by positivity), Nat.cast_lt]
  simp only [quotientExponent, ← he, htest]
  split
  · next h => exact ⟨hlo, by rwa [sub_add_cancel]⟩
  · next h => exact ⟨not_lt.mp h, hhi⟩

/-! ## The rounded magnitude -/

/-- The greatest finite magnitude of binary32. -/
def maxFinite : Rat := (2 ^ 24 - 1) * 2 ^ 104

/-- The quotient `n / d` in steps of `2^E` units. -/
def stepsOf (n d E : Nat) : Rat := (n : Rat) / d * 2 ^ 149 / 2 ^ E

theorem stepsOf_eq_zpow (n d E : Nat) : stepsOf n d E = (n : Rat) / d * (2 : Rat) ^ (149 - (E : Int)) := by
  rw [stepsOf, zpow_sub₀ two_ne_zero, zpow_natCast, mul_div_assoc]
  norm_cast

/-- The step that `roundMagnitude` chooses: fewer than `2^24` of them, and at least `2^23` unless they are the smallest. -/
theorem stepsOf_binade {n d E : Nat} (hn : 0 < n) (hd : 0 < d) (hE : max (quotientExponent n d) (-126) = (E : Int) - 126) :
    stepsOf n d E < 2 ^ 24 ∧ (E = 0 ∨ 2 ^ 23 ≤ stepsOf n d E) := by
  obtain ⟨hlo, hhi⟩ := quotientExponent_spec hn hd
  have hpos : (0 : Rat) < 2 ^ (149 - (E : Int)) := by positivity
  rw [stepsOf_eq_zpow]
  constructor
  · calc (n : Rat) / d * (2 : Rat) ^ (149 - (E : Int))
      _ < 2 ^ (quotientExponent n d + 1) * (2 : Rat) ^ (149 - (E : Int)) := mul_lt_mul_of_pos_right hhi hpos
      _ = (2 : Rat) ^ (quotientExponent n d + 1 + (149 - (E : Int))) := (zpow_add₀ two_ne_zero _ _).symm
      _ ≤ (2 : Rat) ^ (24 : Int) := zpow_le_zpow_right₀ one_le_two (by omega)
  · refine (Nat.eq_zero_or_pos E).imp id fun hpos' => ?_
    calc (2 : Rat) ^ (23 : Int)
      _ = (2 : Rat) ^ (quotientExponent n d + (149 - (E : Int))) := by congr 1; omega
      _ = 2 ^ quotientExponent n d * (2 : Rat) ^ (149 - (E : Int)) := zpow_add₀ two_ne_zero _ _
      _ ≤ (n : Rat) / d * (2 : Rat) ^ (149 - (E : Int)) := mul_le_mul_of_nonneg_right hlo hpos.le

/-- Rounding a finite quotient does not carry into the exponent field of the infinities. -/
theorem steps_lt_infinity {n d E k : Nat} (hfin : (n : Rat) / d ≤ maxFinite) (hk : IsNearestEven k (stepsOf n d E))
    (hk24 : k ≤ 2 ^ 24) (hbinade : E = 0 ∨ 2 ^ 23 ≤ stepsOf n d E) : E * 2 ^ 23 + k < 255 * 2 ^ 23 := by
  rcases Nat.lt_or_ge E 253 with hE | hE
  · omega
  · have hle : stepsOf n d E ≤ (2 ^ 24 - 1) / 2 ^ (E - 253) := by
      calc stepsOf n d E
        _ ≤ maxFinite * 2 ^ 149 / 2 ^ (253 + (E - 253)) := by
          rw [stepsOf, Nat.add_sub_cancel' hE]; gcongr
        _ = (2 ^ 24 - 1) / 2 ^ (E - 253) := by
          rw [pow_add, maxFinite]; field_simp
    rcases Nat.eq_or_lt_of_le hE with rfl | hgt
    · have hk' : k ≤ 2 ^ 24 - 1 := hk.le (hle.trans (by norm_num))
      omega
    · have hhalf : ((2 : Rat) ^ 24 - 1) / 2 ^ (E - 253) ≤ (2 ^ 24 - 1) / 2 ^ 1 := by
        gcongr
        · norm_num
        · omega
      have hlow := hbinade.resolve_left (by omega)
      norm_num at hlow hhalf hle
      linarith

/-- `roundMagnitude` adds to the exponent field `E` the number of steps of `2^E` units nearest to the quotient. -/
theorem roundMagnitude_spec {n d : Nat} (hd : 0 < d) (hfin : (n : Rat) / d ≤ maxFinite) :
    ∃ E k : Nat, roundMagnitude n d = E * 2 ^ 23 + k ∧ E * 2 ^ 23 + k < 255 * 2 ^ 23 ∧ k ≤ 2 ^ 24 ∧ (E = 0 ∨ 2 ^ 23 ≤ k) ∧
      IsNearestEven k (stepsOf n d E) ∧ (E = 0 ∨ 2 ^ 23 ≤ stepsOf n d E) := by
  rcases Nat.eq_zero_or_pos n with rfl | hn
  · refine ⟨0, 0, rfl, by norm_num, by norm_num, .inl rfl, ?_, .inl rfl⟩
    norm_num [IsNearestEven, stepsOf]
  · obtain ⟨E, hE⟩ : ∃ E : Nat, max (quotientExponent n d) (-126) = (E : Int) - 126 :=
      ⟨(max (quotientExponent n d) (-126) + 126).toNat, by omega⟩
    obtain ⟨hlt, hbinade⟩ := stepsOf_binade hn hd hE
    have hk := isNearestEven_roundHalfEven (n * 2 ^ (149 - (E : Int)).toNat)
      (d := d * 2 ^ (-(149 - (E : Int))).toNat) (by positivity)
    rw [scaled_quotient, ← stepsOf_eq_zpow] at hk
    have hk24 := hk.le (N := 2 ^ 24) (by exact_mod_cast hlt.le)
    have hfits := steps_lt_infinity hfin hk hk24 hbinade
    refine ⟨E, _, ?_, hfits, hk24, hbinade.imp id fun h => hk.ge (by exact_mod_cast h), hk, hbinade⟩
    simp only [roundMagnitude, if_neg hn.ne', hE]
    rw [show (23 : Int) - ((E : Int) - 126) = 149 - (E : Int) by omega,
      show ((E : Int) - 126 + 126).toNat = E by omega]
    exact Nat.min_eq_left hfits.le

/-! ## The nearest pattern -/

/-- The value of a pattern in steps of `2^E` units, counted in the direction of the sign `b`. -/
def signedSteps (b : Bool) (f : Value) (E : Nat) : Rat := signFactor (b ^^ floatSign f) * (floatUnits f / 2 ^ E)

theorem signedSteps_integer_or_lt (b : Bool) (f : Value) (E : Nat) :
    (∃ m : Int, signedSteps b f E = m) ∨ E ≠ 0 ∧ signedSteps b f E < 2 ^ 23 := by
  rw [signedSteps]
  rcases dvd_floatUnits_or_lt f E with ⟨m, hm⟩ | ⟨hE, hlt⟩
  · have hsteps : (floatUnits f : Rat) / 2 ^ E = m := by
      rw [hm]; push_cast; field_simp
    rw [hsteps]
    cases b ^^ floatSign f with
    | false => exact .inl ⟨m, by norm_num [signFactor]⟩
    | true => exact .inl ⟨-m, by norm_num [signFactor]⟩
  · have hunits : (floatUnits f : Rat) < 2 ^ 23 * 2 ^ E := by
      rw [← pow_add, Nat.add_comm 23 E]
      exact_mod_cast hlt
    have hsteps : 0 ≤ (floatUnits f : Rat) / 2 ^ E := div_nonneg (Nat.cast_nonneg _) (pow_nonneg zero_le_two E)
    refine .inr ⟨hE, lt_of_le_of_lt (le_abs_self _) ?_⟩
    rw [abs_mul, abs_signFactor, one_mul, abs_of_nonneg hsteps]
    exact (div_lt_iff₀ (pow_pos two_pos E)).mpr hunits

/-- The value of `2^E` units. -/
def stepSize (E : Nat) : Rat := 2 ^ E * (2 : Rat) ^ (-149 : Int)

theorem stepSize_pos (E : Nat) : 0 < stepSize E := by rw [stepSize]; positivity

theorem quotient_eq_steps (n d E : Nat) : (n : Rat) / d = stepsOf n d E * stepSize E := by
  rw [stepsOf, stepSize]; field_simp

theorem floatValue_eq_steps (b : Bool) (f : Value) (E : Nat) :
    floatValue f = signFactor b * signedSteps b f E * stepSize E := by
  rw [signedSteps, ← signFactor_mul, floatValue_eq_units, stepSize]
  field_simp
  linear_combination -(signFactor (floatSign f) * (floatUnits f : Rat)) * signFactor_mul_self b

/-- `roundFloat` gives a finite pattern, of the quotient's sign and of the number of steps nearest to its magnitude. -/
theorem roundFloat_spec (b : Bool) {n d : Nat} (hd : 0 < d) (hfin : (n : Rat) / d ≤ maxFinite) :
    ¬ floatSpecial (roundFloat b n d) ∧
    ∃ E k : Nat, floatValue (roundFloat b n d) = signFactor b * k * stepSize E ∧
      floatFraction (roundFloat b n d) % 2 = k % 2 ∧
      IsNearestEven k (stepsOf n d E) ∧ (E = 0 ∨ 2 ^ 23 ≤ stepsOf n d E) := by
  obtain ⟨E, k, hmag, hlt, hk24, hE, hk, hbinade⟩ := roundMagnitude_spec hd hfin
  have hm : E * 2 ^ 23 + k < 2 ^ 31 := by omega
  rw [roundFloat_eq, hmag]
  refine ⟨?_, E, k, ?_, ?_, hk, hbinade⟩
  · rw [floatSpecial, floatExponent_signedPattern b hm]; omega
  · rw [floatValue_eq_units, floatSign_signedPattern b hm, floatUnits_steps b hk24 hE hm, stepSize]
    push_cast; ring
  · rw [floatFraction_signedPattern]; omega

/-- No pattern is nearer to the quotient than the one `roundFloat` gives, and where another is as near its fraction is even. -/
theorem roundFloat_nearest (b : Bool) {n d : Nat} {x : Rat} (hd : 0 < d) (hx : x = signFactor b * ((n : Rat) / d))
    (hfin : (n : Rat) / d ≤ maxFinite) (g : Value) :
    |floatValue (roundFloat b n d) - x| ≤ |floatValue g - x| ∧
    (|floatValue (roundFloat b n d) - x| = |floatValue g - x| → floatValue g ≠ floatValue (roundFloat b n d) →
      floatFraction (roundFloat b n d) % 2 = 0) := by
  obtain ⟨-, E, k, hf, hfrac, hk, hbinade⟩ := roundFloat_spec b hd hfin
  have hdist (y : Rat) : |signFactor b * y * stepSize E - x| = |y - stepsOf n d E| * stepSize E := by
    rw [hx, quotient_eq_steps n d E, ← mul_assoc, ← sub_mul, ← mul_sub, abs_mul, abs_mul, abs_signFactor, one_mul,
      abs_of_pos (stepSize_pos E)]
  have hgrid : (∃ m : Int, signedSteps b g E = m) ∨ ∃ m : Int, signedSteps b g E < m ∧ m ≤ stepsOf n d E :=
    (signedSteps_integer_or_lt b g E).imp id fun ⟨hE, hlow⟩ =>
      ⟨2 ^ 23, by exact_mod_cast hlow, by exact_mod_cast hbinade.resolve_left hE⟩
  obtain ⟨hle, htie⟩ := hk.le_abs hgrid
  rw [hf, hfrac, floatValue_eq_steps b g E, hdist, hdist]
  refine ⟨mul_le_mul_of_nonneg_right hle (stepSize_pos E).le, fun heq hne => ?_⟩
  exact htie (mul_right_cancel₀ (stepSize_pos E).ne' heq) fun h => hne (by rw [h])

/-! ## The obligation -/

/-- Settles O60: a decimal literal is the quotient of its digits by a power of ten. -/
theorem decimalLiteralIsNearestFloat : Obligations.DecimalLiteralIsNearestFloat := by
  intro negative digits places x hx hfin
  have hx' : x = signFactor negative * ((digits : Rat) / (10 ^ places : Nat)) := by
    rw [hx, signFactor]; push_cast; rfl
  have habs : |x| = (digits : Rat) / (10 ^ places : Nat) := by
    rw [hx', abs_mul, abs_signFactor, one_mul, abs_of_nonneg (by positivity)]
  have hd : 0 < 10 ^ places := Nat.pow_pos (by decide)
  rw [habs] at hfin
  obtain ⟨hfinite, -⟩ := roundFloat_spec negative hd hfin
  exact ⟨roundFloat negative digits (10 ^ places), rfl, hfinite, fun g _ => roundFloat_nearest negative hd hx' hfin g⟩

end Sys2Proof.Machine
end

section
/-! SUPPORT. Proofs about the buffer and configuration commands (40_buffer.md): for each command what it does where its operand is
accepted and where it is refused, and the arithmetic of its sizes. SETBUF and the byte accesses inside the buffer are described
with the assembler's expansions, which are made of them. -/

namespace Sys2Proof.Machine

/-! ## CREATE -/

/-- Whole words, and one more for a remainder, are the words rounded up (40_buffer.md R70). -/
theorem segmentsFor_eq (cap : Value) : segmentsFor cap = (cap.toNat + 7) / 8 := by
  rw [segmentsFor]
  split
  · omega
  · omega

/-- A number of words that RAM has fits the width of `TOTALSEG` (10_state.md R12). -/
theorem toNat_ofNat_of_le_segIndex {n : Nat} {max : SegIndex} (h : n ≤ max.toNat) : (BitVec.ofNat 29 n).toNat = n :=
  toNat_ofNat_of_lt (Nat.lt_of_le_of_lt h max.isLt)

/-- A byte after CREATE's fill of `n` words. -/
theorem byteAt_of_ram_zeroWords {s t : State} {n : Nat} (hram : t.ram = s.ram.zeroWords n) (hresets : t.resets = s.resets)
    (a : Nat) : t.byteAt a = if a < 8 * n then 0 else s.byteAt a := by
  rw [State.byteAt, hram, hresets, lookup_zeroWords]
  split
  · rfl
  · rfl

theorem exec_create_fitting {cap : Value} {s : State} (hpos : 1 ≤ segmentsFor cap)
    (hmax : segmentsFor cap ≤ s.maxSegments.toNat) :
    exec (.create cap) s = .next ((State.rewind { s with
      totalSeg := BitVec.ofNat 29 (segmentsFor cap), ram := s.ram.zeroWords (segmentsFor cap) }).respond 0#32) :=
  if_neg (by omega)

theorem exec_create_refused {cap : Value} {s : State} (h : segmentsFor cap = 0 ∨ s.maxSegments.toNat < segmentsFor cap) :
    exec (.create cap) s = .next (s.raise .invalidBuffer) :=
  if_pos h

/-! ## BUFRD and BUFWR -/

theorem exec_bufrd_of_inBuffer {addr : Value} {s : State} (h : s.inBuffer addr) :
    exec (.bufrd addr) s = .next (s.respond ((s.byteAt addr.toNat).setWidth 32)) := by
  have hread := exec_bufrd_inside h
  rwa [BitVec.ofNat_toNat, BitVec.setWidth_eq] at hread

theorem exec_bufwr_of_inBuffer {addr : Value} {s : State} (byte : Byte) (h : s.inBuffer addr) :
    exec (.bufwr addr byte) s = .next ((s.memWrite addr.toNat 1 byte).respond 0#32) := by
  have hwrite := exec_bufwr_inside byte h
  rwa [BitVec.ofNat_toNat, BitVec.setWidth_eq] at hwrite

theorem exec_bufrd_outside {addr : Value} {s : State} (h : ¬ s.inBuffer addr) :
    exec (.bufrd addr) s = .next (s.raise .badAddress) :=
  if_neg h

theorem exec_bufwr_outside {addr : Value} {s : State} (byte : Byte) (h : ¬ s.inBuffer addr) :
    exec (.bufwr addr byte) s = .next (s.raise .badAddress) :=
  if_neg h

/-- A byte after a write of one byte. -/
theorem byteAt_memWrite_one (s : State) (addr : Nat) (byte : Byte) (a : Nat) :
    (s.memWrite addr 1 byte).byteAt a = if a = addr then byte else s.byteAt a := by
  split
  · next heq => subst heq; exact byteAt_memWrite_byte s a byte
  · next hne => exact byteAt_memWrite_outside s addr 1 a byte (by omega)

/-! ## BYTECNT, RESET and RDSR -/

theorem exec_bytecnt (s : State) : exec .bytecnt s = .next (s.respond (BitVec.ofNat 32 (byteCount s.w))) := rfl

/-- The estimate fits the response for every cursor a buffer can hold (00_scope.md R5). -/
theorem toNat_ofNat_byteCount {c : Cursor} (h : c.seg.toNat ≤ 2 ^ 28) : (BitVec.ofNat 32 (byteCount c)).toNat = byteCount c :=
  toNat_ofNat_of_lt (by have := off_lt c; rw [byteCount]; omega)

/-- The exact byte length, off a byte boundary. -/
theorem byteCount_of_off_mod_ne_zero {c : Cursor} (h : c.off.toNat % 8 ≠ 0) : byteCount c = (c.pos + 7) / 8 := by
  rw [byteCount, Cursor.pos]; omega

/-- One more than the exact byte length, on a byte boundary (70_reset_and_hazards.md R174). -/
theorem byteCount_of_off_mod_eq_zero {c : Cursor} (h : c.off.toNat % 8 = 0) : byteCount c = (c.pos + 7) / 8 + 1 := by
  rw [byteCount, Cursor.pos]; omega

theorem exec_reset (s : State) : exec .reset s = .next (s.rewind.respond 0#32) := rfl

/-- The six register numbers name the six registers (10_state.md R17). -/
theorem statusReg_statusNumber (sr : StatusReg) : statusReg (statusNumber sr) = some sr := by
  cases sr <;> rfl

theorem statusReg_of_gt {n : BitVec 8} (h : 5 < n.toNat) : statusReg n = none := by
  rw [statusReg]
  split
  case h_7 => rfl
  all_goals omega

theorem exec_rdsr_some {n : BitVec 8} {sr : StatusReg} (s : State) (h : statusReg n = some sr) :
    exec (.rdsr n) s = .next (s.respond (s.readStatus sr)) := by
  rw [exec, execRdsr, h]

theorem exec_rdsr_none {n : BitVec 8} (s : State) (h : statusReg n = none) :
    exec (.rdsr n) s = .next (s.raise .illegalCommand) := by
  rw [exec, execRdsr, h]

/-! ## The obligations -/

/-- Settles O27: the size test is on `segmentsFor cap`, which is the size rounded up, and the fill is `zeroWords` of it. -/
theorem createMakesZeroedBuffer : Obligations.CreateMakesZeroedBuffer := by
  intro cap s
  have hsegs := segmentsFor_eq cap
  rw [← hsegs]
  refine ⟨fun hpos hmax => ⟨_, exec_create_fitting hpos hmax, rfl, ?_, ?_⟩, fun hbad => ?_⟩
  · exact toNat_ofNat_of_le_segIndex hmax
  · exact byteAt_of_ram_zeroWords rfl rfl
  · exact exec_create_refused (hbad.imp_left fun hzero => by omega)

/-- Settles O30: `MemWrite` of one byte is read back at its address and nowhere else. -/
theorem bufwrStoresByte : Obligations.BufwrStoresByte := by
  intro addr byte s
  refine ⟨fun hin => ⟨_, exec_bufwr_of_inBuffer byte hin, rfl, ?_⟩, fun hout => ?_⟩
  · exact byteAt_memWrite_one s addr.toNat byte
  · exact exec_bufwr_outside byte (Nat.not_lt.mpr hout)

/-- Settles O28: an accepted length is the bytes of whole words that RAM has. -/
theorem setbufDeclaresBuffer : Obligations.SetbufDeclaresBuffer := by
  intro len s
  refine ⟨fun h0 h8 hmax => ⟨_, exec_setbuf_conforming h0 h8 hmax, rfl, ?_⟩, exec_setbuf_refused⟩
  rw [respond_totalSeg, rewind_totalSeg, toNat_ofNat_of_le_segIndex hmax]
  exact Nat.mul_div_cancel' (Nat.dvd_of_mod_eq_zero h8)

/-- Settles O29: the two sides of the bound `8 * TOTALSEG` (20_memory.md R38). -/
theorem bufrdAnswersByte : Obligations.BufrdAnswersByte :=
  fun _ _ => ⟨exec_bufrd_of_inBuffer, fun hout => exec_bufrd_outside (Nat.not_lt.mpr hout)⟩

/-- Settles O31: the estimate is answered whole, since it fits 32 bits. -/
theorem bytecntAnswersFormula : Obligations.BytecntAnswersFormula :=
  fun s hseg => ⟨_, exec_bytecnt s, toNat_ofNat_byteCount hseg⟩

/-- Settles O32: the estimate adds a byte for the bits after the last boundary also where there are none. -/
theorem bytecntOvercountsOnByteBoundary : Obligations.BytecntOvercountsOnByteBoundary := by
  intro s t hseg h
  cases (exec_bytecnt s).symm.trans h
  refine ⟨_, respond_response s _, ?_⟩
  rw [toNat_ofNat_byteCount hseg]
  exact ⟨byteCount_of_off_mod_ne_zero, byteCount_of_off_mod_eq_zero⟩

/-- Settles O33: RESET rewinds, and answers 0. -/
theorem resetRewindsBothCursors : Obligations.ResetRewindsBothCursors := exec_reset

/-- Settles O34: each number up to 5 is the number of the register it answers, and no number above 5 names one. -/
theorem rdsrAnswersRegister : Obligations.RdsrAnswersRegister := by
  intro s
  have hregister (sr : StatusReg) : exec (.rdsr (statusNumber sr)) s = .next (s.respond (s.readStatus sr)) :=
    exec_rdsr_some s (statusReg_statusNumber sr)
  exact ⟨hregister .totalSeg, hregister .wSeg, hregister .wOff, hregister .rSeg, hregister .rOff, hregister .factor,
    fun _ hn => exec_rdsr_none s (statusReg_of_gt hn)⟩

end Sys2Proof.Machine
end

section
/-! SUPPORT. Proofs about the raw bit commands and the boolean commands (41_bitcursor.md R96, R99 to R102; 42_codec.md R115,
R118). A command that moves a field ends in one of two ways, by whether the field reaches the end of the buffer; this is said once,
for any part of a command that stops there, and each command is then the law of its cursor primitive. -/

namespace Sys2Proof.Machine

/-! ## A part of a command that stops at the end of the buffer -/

/-- The part `x` leaves a state with property `P`. Where the position `p` that it moves to lies before the end `e` it goes on with
`v`; otherwise the buffer is exhausted (41_bitcursor.md R97). -/
def Result.StopsAtEnd {α : Type} (x : Result α) (P : State → Prop) (p e : Nat) (v : α) : Prop :=
  ∃ t, P t ∧ x = if p < e then .done t v else .raised t .bufferExhausted

section
variable {α β : Type} {P : State → Prop} {p e : Nat}

/-- Converting the value moved does not change where the part stops. -/
theorem stopsAtEnd_andThen_done {x : Result α} {v : α} (f : α → β) (h : x.StopsAtEnd P p e v) :
    (x.andThen fun s u => .done s (f u)).StopsAtEnd P p e (f v) := by
  obtain ⟨t, ht, rfl⟩ := h
  refine ⟨t, ht, ?_⟩
  split
  · rfl
  · rfl

/-- The two ways in which a command made of such a part can end. -/
theorem finish_of_stopsAtEnd {x : Result Value} {v : Value} (h : x.StopsAtEnd P p e v) :
    (p < e → ∃ t, P t ∧ x.finish = .next (t.respond v)) ∧
    (e ≤ p → ∃ t, P t ∧ x.finish = .next (t.raise .bufferExhausted)) := by
  obtain ⟨t, ht, rfl⟩ := h
  refine ⟨fun hfits => ⟨t, ht, ?_⟩, fun hends => ⟨t, ht, ?_⟩⟩
  · rw [if_pos hfits, finish_done]
  · rw [if_neg (Nat.not_lt.mpr hends), finish_raised]

/-- To answer no data is to answer 0 (00_scope.md R8). -/
theorem finishUnit_eq_finish (x : Result Unit) : x.finishUnit = (x.andThen fun s _ => .done s 0#32).finish := by
  cases x with
  | done s u => rfl
  | raised s e => rfl

theorem finishUnit_of_stopsAtEnd {x : Result Unit} (h : x.StopsAtEnd P p e ()) :
    (p < e → ∃ t, P t ∧ x.finishUnit = .next (t.respond 0#32)) ∧
    (e ≤ p → ∃ t, P t ∧ x.finishUnit = .next (t.raise .bufferExhausted)) := by
  rw [finishUnit_eq_finish]
  exact finish_of_stopsAtEnd (stopsAtEnd_andThen_done (fun _ => 0#32) h)

end

/-! ## Where the cursor primitives stop -/

theorem stopsAtEnd_writeBit {s : State} (b : BitVec 1) (hw : s.w.inv s.totalSeg) :
    (s.writeBit b).StopsAtEnd (fun t => s.WroteBits t b.toNat 1) (s.w.pos + 1) s.endPos () := by
  obtain ⟨t, hwrote, -, hresult⟩ := writeBit_spec s b hw
  exact ⟨t, hwrote, hresult⟩

theorem stopsAtEnd_writeBits {s : State} (v : Value) {n : Nat} (hw : s.w.inv s.totalSeg) (h1 : 1 ≤ n) (hn : n ≤ 32) :
    (s.writeBits v n).StopsAtEnd (fun t => s.WroteBits t v.toNat n) (s.w.pos + n) s.endPos () := by
  obtain ⟨t, hwrote, -, hresult⟩ := writeBits_spec s v n hw h1 hn
  exact ⟨t, hwrote, hresult⟩

theorem stopsAtEnd_readBit {s : State} (hr : s.r.inv s.totalSeg) :
    s.readBit.StopsAtEnd (fun t => s.PassedBits t 1) (s.r.pos + 1) s.endPos (BitVec.ofBool (s.streamBit s.r.pos)) :=
  readBit_spec s hr

theorem stopsAtEnd_readBits {s : State} {n : Nat} (hr : s.r.inv s.totalSeg) (h1 : 1 ≤ n) (hn : n ≤ 32) :
    (s.readBits n).StopsAtEnd (fun t => s.PassedBits t n) (s.r.pos + n) s.endPos
      (BitVec.ofNat 32 (s.streamField s.r.pos n)) :=
  readBits_spec s n hr h1 hn

/-! ## The values that are read -/

/-- One bit as response data. -/
theorem setWidth_ofBool (b : Bool) : (BitVec.ofBool b).setWidth 32 = if b then 1 else 0 := by
  cases b with
  | false => rfl
  | true => rfl

/-- A number of one bit is its low bit, zero-extended. -/
theorem setWidth_setWidth_ofNat_of_lt_two {n : Nat} (h : n < 2) :
    ((BitVec.ofNat 32 n).setWidth 1).setWidth 32 = BitVec.ofNat 32 n := by
  apply BitVec.eq_of_toNat_eq
  simp only [BitVec.toNat_setWidth, BitVec.toNat_ofNat]
  omega

/-- The bits of a field as response data, zero-extended (41_bitcursor.md R95). -/
theorem getLsbD_ofNat_streamField (s : State) (p k : Nat) {n : Nat} (hn : n ≤ 32) :
    (BitVec.ofNat 32 (s.streamField p n)).getLsbD k = (decide (k < n) && s.streamBit (p + k)) := by
  rw [BitVec.getLsbD_ofNat, testBit_streamField]
  by_cases hk : k < n
  · rw [decide_eq_true (show k < 32 by omega), Bool.true_and]
  · rw [decide_eq_false hk, Bool.false_and, Bool.and_false]

/-- `readBit`, zero-extended, is `readBits` of one bit, in every state (41_bitcursor.md R96): a cursor that the entry guard lets
through is well placed. -/
theorem readBit_andThen_setWidth (s : State) :
    (s.readBit.andThen fun t b => .done t (b.setWidth 32)) = s.readBits 1 := by
  rw [readBit_eq_readBits]
  by_cases hx : s.r.exhausted s.totalSeg
  · rw [readBits_exhausted s 1 hx]; rfl
  · obtain ⟨t, -, hresult⟩ := readBits_spec s 1 (inv_of_not_exhausted hx) (Nat.le_refl 1) (by decide)
    rw [hresult]
    split
    · rw [andThen_done, andThen_done, setWidth_setWidth_ofNat_of_lt_two (streamField_lt s s.r.pos 1)]
    · rfl

/-! ## The commands as their primitives -/

section
variable (s : State)

theorem exec_wrbit (b : BitVec 1) : exec (.wrbit b) s = (s.writeBit b).finishUnit := rfl

theorem exec_wrbool (b : BitVec 1) : exec (.wrbool b) s = exec (.wrbit b) s := rfl

theorem exec_wrbits (n : BitVec 5) (bits : Value) : exec (.wrbits n bits) s = (s.writeBits bits (n.toNat + 1)).finishUnit := rfl

theorem exec_rdbit : exec .rdbit s = (s.readBit.andThen fun t b => .done t (b.setWidth 32)).finish := rfl

theorem exec_rdbool : exec .rdbool s = exec .rdbit s := rfl

theorem exec_rdbits (n : BitVec 5) : exec (.rdbits n) s = (s.readBits (n.toNat + 1)).finish := rfl

end

/-! ## The obligations -/

/-- Settles O39: both commands are the one write of a bit (R96). -/
theorem oneBitWritesStoreTheirBit : Obligations.OneBitWritesStoreTheirBit := by
  intro b s i hi hw
  have hexec : exec i s = (s.writeBit b).finishUnit := by
    rcases hi with rfl | rfl
    · exact exec_wrbit s b
    · exact exec_wrbool s b
  rw [hexec]
  exact finishUnit_of_stopsAtEnd (stopsAtEnd_writeBit b hw)

/-- Settles O40: fit, exact fill, straddle and the entry guard are the cases of `writeBits_spec`. -/
theorem wrbitsStoresField : Obligations.WrbitsStoresField := by
  intro n bits s hw
  obtain ⟨h1, hn⟩ := fieldLength_bounds n
  rw [exec_wrbits]
  exact finishUnit_of_stopsAtEnd (stopsAtEnd_writeBits bits hw h1 hn)

/-- Settles O41: both commands are the one read of a bit (R96). -/
theorem oneBitReadsAnswerTheirBit : Obligations.OneBitReadsAnswerTheirBit := by
  intro s i hi hr
  have hexec : exec i s = (s.readBit.andThen fun t b => .done t (b.setWidth 32)).finish := by
    rcases hi with rfl | rfl
    · exact exec_rdbit s
    · exact exec_rdbool s
  have hread := stopsAtEnd_andThen_done (·.setWidth 32) (stopsAtEnd_readBit hr)
  rw [setWidth_ofBool] at hread
  rw [hexec]
  exact finish_of_stopsAtEnd hread

/-- Settles O42: the answer is the number the stream spells at the read cursor, whose bits are the stream's. -/
theorem rdbitsAnswersField : Obligations.RdbitsAnswersField := by
  intro n s hr
  obtain ⟨h1, hn⟩ := fieldLength_bounds n
  obtain ⟨hanswers, hraises⟩ := finish_of_stopsAtEnd (stopsAtEnd_readBits hr h1 hn)
  rw [exec_rdbits]
  refine ⟨fun hfits => ?_, hraises⟩
  obtain ⟨t, hpassed, hnext⟩ := hanswers hfits
  refine ⟨t, _, hpassed, hnext, fun k => ?_⟩
  rw [getLsbD_ofNat_streamField s s.r.pos k hn, fieldLength, decide_eq_decide.mpr Nat.lt_succ_iff]

/-- Settles O43: each one-bit primitive is the field primitive of length 1, in failure too. -/
theorem oneBitCommandsAreOneBitFields : Obligations.OneBitCommandsAreOneBitFields := by
  intro b s
  refine ⟨?_, exec_wrbool s b, ?_, exec_rdbool s⟩
  · exact congrArg Result.finishUnit (writeBit_eq_writeBits s b)
  · exact congrArg Result.finish (readBit_andThen_setWidth s)

end Sys2Proof.Machine
end

section
/-! SUPPORT. Proofs about the variable-length codec (42_codec.md R110 to R122): its functions on 32-bit patterns, its commands as
the laws of `encodeU32` and `decodeU32`, and the round trip of typed values. The round trip goes through the numbers that the
stream spells: the writes leave the fields of the items one after the other, and a read of such a field answers the item's
value. -/

namespace Sys2Proof.Machine

/-! ## Bit length -/

/-- What is left of `n` bits after the leading zeros is the length of the number in binary. -/
theorem sub_leadingZeros_eq_size {v : Value} {n : Nat} (h : v.toNat < 2 ^ n) : n - leadingZeros v n = v.toNat.size := by
  induction n with
  | zero => rw [show v.toNat = 0 by omega, Nat.size_zero, Nat.zero_sub]
  | succ n ih =>
    rw [leadingZeros]
    split
    · next hbit => exact Nat.le_antisymm (Nat.lt_size.mpr (Nat.ge_two_pow_of_testBit hbit)) (Nat.size_le.mpr h)
    · next hbit =>
      have hlt : v.toNat < 2 ^ n := Nat.lt_pow_two_of_testBit _ fun i hi => by
        rcases Nat.eq_or_lt_of_le hi with rfl | hi
        · exact Bool.eq_false_iff.mpr hbit
        · exact Nat.testBit_lt_two_pow (Nat.lt_of_lt_of_le h (Nat.pow_le_pow_right (by decide) hi))
      rw [Nat.add_sub_add_right, ih hlt]

theorem bitLength_eq_size (v : Value) : bitLength v = v.toNat.size := sub_leadingZeros_eq_size v.isLt

theorem lt_two_pow_bitLength (v : Value) : v.toNat < 2 ^ bitLength v := by
  rw [bitLength_eq_size]; exact Nat.lt_size_self _

theorem bitLength_pos {v : Value} (h : v ≠ 0#32) : 1 ≤ bitLength v :=
  Nat.one_le_iff_ne_zero.mpr (mt (bitLength_eq_zero v).mp h)

/-! ## Zigzag -/

theorem ushiftRight_31_of_msb {v : Value} (h : v.msb = false) : v >>> 31 = 0#32 := by
  have hv := BitVec.msb_eq_false_iff_two_mul_lt.mp h
  apply BitVec.eq_of_toNat_eq
  rw [BitVec.toNat_ushiftRight, Nat.shiftRight_eq_div_pow, BitVec.toNat_ofNat]
  omega

/-- The sign of `v`, spread over all bits, inverts the doubled value or leaves it. -/
theorem zigzag_eq (v : Value) : zigzag v = if v.msb then ~~~(v <<< 1) else v <<< 1 := by
  rw [zigzag]
  split
  · next hneg =>
    have hnot : (~~~v).msb = false := by rw [BitVec.msb_not, hneg]; rfl
    rw [BitVec.sshiftRight_eq_of_msb_true hneg, ushiftRight_31_of_msb hnot, BitVec.not_zero, BitVec.xor_allOnes]
  · next hpos =>
    have hmsb : v.msb = false := Bool.eq_false_iff.mpr hpos
    rw [BitVec.sshiftRight_eq_of_msb_false hmsb, ushiftRight_31_of_msb hmsb, BitVec.xor_zero]

/-- The low bit of `u`, spread over all bits, inverts the halved value or leaves it. -/
theorem unzigzag_eq (u : Value) : unzigzag u = if u.getLsbD 0 then ~~~(u >>> 1) else u >>> 1 := by
  rw [unzigzag, BitVec.and_one_eq_setWidth_ofBool_getLsbD]
  cases u.getLsbD 0 with
  | true => exact BitVec.xor_allOnes
  | false => exact BitVec.xor_zero

/-- Zigzag as a number: non-negative patterns go to the even numbers, negative ones to the odd. -/
theorem toNat_zigzag (v : Value) :
    (zigzag v).toNat = if v.toNat < 2 ^ 31 then 2 * v.toNat else 2 ^ 33 - 1 - 2 * v.toNat := by
  have hv := v.isLt
  rw [zigzag_eq, BitVec.msb_eq_decide]
  by_cases hneg : 2 ^ 31 ≤ v.toNat
  · rw [if_pos (decide_eq_true hneg), if_neg (by omega), BitVec.toNat_not, BitVec.toNat_shiftLeft, Nat.shiftLeft_eq]
    omega
  · rw [if_neg (by simpa using hneg), if_pos (by omega), BitVec.toNat_shiftLeft, Nat.shiftLeft_eq]
    omega

/-- The inverse of zigzag as a number: even numbers are halved, odd ones count down from the greatest. -/
theorem toNat_unzigzag (u : Value) :
    (unzigzag u).toNat = if u.toNat % 2 = 0 then u.toNat / 2 else 2 ^ 32 - 1 - u.toNat / 2 := by
  have hlow : u.getLsbD 0 = decide (u.toNat % 2 = 1) := Nat.testBit_zero u.toNat
  rw [unzigzag_eq, hlow]
  by_cases hodd : u.toNat % 2 = 1
  · rw [if_pos (decide_eq_true hodd), if_neg (by omega), BitVec.toNat_not, BitVec.toNat_ushiftRight, Nat.shiftRight_one]
  · rw [if_neg (by simpa using hodd), if_pos (by omega), BitVec.toNat_ushiftRight, Nat.shiftRight_one]

theorem unzigzag_zigzag (v : Value) : unzigzag (zigzag v) = v := by
  have hv := v.isLt
  apply BitVec.eq_of_toNat_eq
  rw [toNat_unzigzag, toNat_zigzag]
  by_cases hneg : v.toNat < 2 ^ 31
  · rw [if_pos hneg, if_pos (by omega)]; omega
  · rw [if_neg hneg, if_neg (by omega)]; omega

theorem zigzag_unzigzag (u : Value) : zigzag (unzigzag u) = u := by
  have hu := u.isLt
  apply BitVec.eq_of_toNat_eq
  rw [toNat_zigzag, toNat_unzigzag]
  by_cases heven : u.toNat % 2 = 0
  · rw [if_pos heven, if_pos (by omega)]; omega
  · rw [if_neg heven, if_neg (by omega)]; omega

/-- Zigzag as a number, from the signed value. -/
theorem toNat_zigzag_eq_toInt (v : Value) :
    ((zigzag v).toNat : Int) = if 0 ≤ v.toInt then 2 * v.toInt else -2 * v.toInt - 1 := by
  have hv := v.isLt
  rw [toNat_zigzag, BitVec.toInt_eq_toNat_cond]
  by_cases hneg : v.toNat < 2 ^ 31
  · rw [if_pos hneg, if_pos (by omega), if_pos (by omega)]; omega
  · rw [if_neg hneg, if_neg (by omega), if_neg (by omega)]; omega

/-! ## Where the codec's operations stop -/

theorem stopsAtEnd_encodeU32 {s : State} (v : Value) (hw : s.w.inv s.totalSeg) :
    (s.encodeU32 v).StopsAtEnd (fun t => s.WroteBits t (wireItem v) (itemBits v)) (s.w.pos + itemBits v) s.endPos () := by
  obtain ⟨t, hwrote, -, hresult⟩ := encodeU32_spec s v hw
  exact ⟨t, hwrote, hresult⟩

theorem stopsAtEnd_decodeU32 {s : State} (hr : s.r.inv s.totalSeg) :
    s.decodeU32.StopsAtEnd (fun t => s.PassedBits t (s.itemBitsAt s.r.pos)) (s.r.pos + s.itemBitsAt s.r.pos) s.endPos
      (s.itemAt s.r.pos) :=
  decodeU32_spec s hr

/-! ## The commands as the codec's operations -/

section
variable (s : State)

theorem exec_wru32 (v : Value) : exec (.wru32 v) s = (s.encodeU32 v).finishUnit := rfl

theorem exec_wri32 (v : Value) : exec (.wri32 v) s = exec (.wru32 (zigzag v)) s := rfl

theorem exec_rdu32 : exec .rdu32 s = s.decodeU32.finish := rfl

theorem exec_rdi32 : exec .rdi32 s = (s.decodeU32.andThen fun t u => .done t (unzigzag u)).finish := rfl

end

/-! ## The obligations on the functions and on single commands -/

/-- Settles O44: the bit length is the length of the number in binary (`bitLength_eq_size`). -/
theorem bitLengthBoundsValue : Obligations.BitLengthBoundsValue := by
  refine ⟨(bitLength_eq_zero 0).mpr rfl, fun v hv => ?_⟩
  have hpos : 1 ≤ bitLength v := bitLength_pos hv
  refine ⟨hpos, bitLength_le v, Nat.lt_size.mp ?_, lt_two_pow_bitLength v⟩
  rw [← bitLength_eq_size]; omega

/-- Settles O45, on the numbers of the patterns. -/
theorem zigzagIsBijection : Obligations.ZigzagIsBijection :=
  fun v => ⟨unzigzag_zigzag v, zigzag_unzigzag v, toNat_zigzag_eq_toInt v⟩

/-- Settles O46: flag, length and payload are one field (`encodeU32_spec`). -/
theorem wru32StoresItem : Obligations.Wru32StoresItem := by
  intro v s hw
  rw [exec_wru32]
  exact finishUnit_of_stopsAtEnd (stopsAtEnd_encodeU32 v hw)

/-- Settles O47: WRI32 is WRU32 of the zigzag (R117). -/
theorem wri32StoresZigzagItem : Obligations.Wri32StoresZigzagItem := by
  intro v s hw
  rw [exec_wri32]
  exact wru32StoresItem (zigzag v) s hw

/-- Settles O48: flag, length and payload are read as one item (`decodeU32_spec`). -/
theorem rdu32AnswersItem : Obligations.Rdu32AnswersItem := by
  intro s hr
  rw [exec_rdu32]
  exact finish_of_stopsAtEnd (stopsAtEnd_decodeU32 hr)

/-- Settles O49: RDI32 reads as RDU32 does and converts the value (R120). -/
theorem rdi32AnswersUnzigzagItem : Obligations.Rdi32AnswersUnzigzagItem := by
  intro s hr
  rw [exec_rdi32]
  exact finish_of_stopsAtEnd (stopsAtEnd_andThen_done unzigzag (stopsAtEnd_decodeU32 hr))

/-! ## The fields of typed values -/

/-- How many bits of the stream an item takes (41_bitcursor.md R98, 30_encoding.md R64). -/
def Item.size : Item → Nat
  | .bit _ | .bool _ => 1
  | .field n _ => fieldLength n
  | .u32 v => itemBits v
  | .i32 v => itemBits (zigzag v)

/-- The number whose low `Item.size` bits an item puts on the stream. -/
def Item.wire : Item → Nat
  | .bit b | .bool b => b.toNat
  | .field _ v => v.toNat
  | .u32 v => wireItem v
  | .i32 v => wireItem (zigzag v)

/-- The two ways in which the write of an item can end, whatever its kind. -/
theorem exec_writer (x : Item) {s : State} (hw : s.w.inv s.totalSeg) :
    (s.w.pos + x.size < s.endPos → ∃ t, s.WroteBits t x.wire x.size ∧ exec x.writer s = .next (t.respond 0)) ∧
    (s.endPos ≤ s.w.pos + x.size →
      ∃ t, s.WroteBits t x.wire x.size ∧ exec x.writer s = .next (t.raise .bufferExhausted)) := by
  cases x with
  | bit b => exact oneBitWritesStoreTheirBit b s _ (.inl rfl) hw
  | field n v => exact wrbitsStoresField n v s hw
  | bool b => exact oneBitWritesStoreTheirBit b s _ (.inr rfl) hw
  | u32 v => exact wru32StoresItem v s hw
  | i32 v => exact wri32StoresZigzagItem v s hw

/-! ## The numbers that the stream spells -/

/-- A field that fitted is what the stream spells at the place it was written to (41_bitcursor.md R97). -/
theorem streamField_of_wroteBits {s t : State} {bits n : Nat} (h : s.WroteBits t bits n) (hfit : s.w.pos + n < s.endPos) :
    t.streamField s.w.pos n = bits % 2 ^ n := by
  obtain ⟨-, hbits, -⟩ := h
  refine Nat.eq_of_testBit_eq fun i => ?_
  rw [testBit_streamField, Nat.testBit_mod_two_pow]
  by_cases hi : i < n
  · rw [hbits, if_pos (by omega), Nat.add_sub_cancel_left]
  · rw [decide_eq_false hi, Bool.false_and, Bool.false_and]

/-- The bits of a field that the stream spells. -/
theorem streamBit_of_streamField {s : State} {p n bits i : Nat} (h : s.streamField p n = bits % 2 ^ n) (hi : i < n) :
    s.streamBit (p + i) = bits.testBit i := by
  have hbit := congrArg (Nat.testBit · i) h
  simpa only [testBit_streamField, Nat.testBit_mod_two_pow, decide_eq_true hi, Bool.true_and] using hbit

/-- A part of a field that the stream spells. -/
theorem streamField_part {s : State} {p n i m bits : Nat} (h : s.streamField p n = bits % 2 ^ n) (him : i + m ≤ n) :
    s.streamField (p + i) m = bits / 2 ^ i % 2 ^ m := by
  refine Nat.eq_of_testBit_eq fun j => ?_
  rw [testBit_streamField, Nat.testBit_mod_two_pow, Nat.testBit_div_two_pow]
  by_cases hj : j < m
  · rw [Nat.add_assoc, streamBit_of_streamField h (by omega), Nat.add_comm]
  · rw [decide_eq_false hj, Bool.false_and, Bool.false_and]

/-- Where the stream spells the item of `v`, a reader finds its size and its value (30_encoding.md R61, R64). -/
theorem itemAt_of_streamField {s : State} {p : Nat} {v : Value}
    (h : s.streamField p (itemBits v) = wireItem v % 2 ^ itemBits v) : s.itemBitsAt p = itemBits v ∧ s.itemAt p = v := by
  by_cases hv : v = 0#32
  · rw [itemBits, wireItem, if_pos hv, if_pos hv] at h
    have hflag : s.streamBit p = false := streamBit_of_streamField (i := 0) h Nat.one_pos
    simp only [State.itemBitsAt, State.itemAt, itemBits, hflag, if_pos hv]
    exact ⟨rfl, hv.symm⟩
  · rw [itemBits, wireItem, if_neg hv, if_neg hv] at h
    have hpos : 1 ≤ bitLength v := bitLength_pos hv
    have hle := bitLength_le v
    have hflag : s.streamBit p = true :=
      (streamBit_of_streamField (i := 0) h (by omega)).trans (by rw [Nat.testBit_zero, decide_eq_true_iff]; omega)
    have hlength : s.payloadBitsAt p = bitLength v := by
      rw [State.payloadBitsAt, streamField_part h (by omega)]; omega
    have hpayload : s.streamField (p + 6) (bitLength v) = v.toNat := by
      rw [streamField_part h (Nat.le_refl _), show (1 + 2 * (bitLength v - 1) + 64 * v.toNat) / 2 ^ 6 = v.toNat by omega]
      exact Nat.mod_eq_of_lt (lt_two_pow_bitLength v)
    rw [State.itemBitsAt, State.itemAt, itemBits, if_pos hflag, if_pos hflag, if_neg hv, hlength, hpayload, BitVec.ofNat_toNat]
    exact ⟨rfl, BitVec.setWidth_eq v⟩

/-! ## The read of an item -/

/-- A cursor with room behind it is well placed. -/
theorem inv_of_fits {c : Cursor} {total : SegIndex} {n : Nat} (h : c.pos + n < 64 * total.toNat) : c.inv total :=
  inv_of_pos_lt (by omega)

/-- Where the stream spells a field before the end of the buffer, RDBITS answers its low bits. -/
theorem exec_rdbits_of_streamField (n : BitVec 5) {bits : Nat} {s : State} (hfit : s.r.pos + fieldLength n < s.endPos)
    (hfield : s.streamField s.r.pos (fieldLength n) = bits % 2 ^ fieldLength n) :
    ∃ t, s.PassedBits t (fieldLength n) ∧
      exec (.rdbits n) s = .next (t.respond (BitVec.ofNat 32 (bits % 2 ^ fieldLength n))) := by
  obtain ⟨h1, hn⟩ := fieldLength_bounds n
  have hr := inv_of_fits hfit
  obtain ⟨hanswers, -⟩ := finish_of_stopsAtEnd (stopsAtEnd_readBits hr h1 hn)
  rw [hfield] at hanswers
  exact hanswers hfit

/-- Where the stream spells a bit before the end of the buffer, RDBIT answers it: RDBIT is RDBITS of one bit (R96). -/
theorem exec_rdbit_of_streamField (b : BitVec 1) {s : State} (hfit : s.r.pos + 1 < s.endPos)
    (hfield : s.streamField s.r.pos 1 = b.toNat % 2 ^ 1) :
    ∃ t, s.PassedBits t 1 ∧ exec .rdbit s = .next (t.respond (b.setWidth 32)) := by
  obtain ⟨-, -, hrdbit, -⟩ := oneBitCommandsAreOneBitFields b s
  have hdata : BitVec.ofNat 32 (b.toNat % 2 ^ 1) = b.setWidth 32 := by
    rw [Nat.mod_eq_of_lt b.isLt, BitVec.ofNat_toNat]
  rw [hrdbit, ← hdata]
  exact exec_rdbits_of_streamField 0 hfit hfield

/-- Where the stream spells an item before the end of the buffer, the reader of its kind answers its value. -/
theorem exec_reader (x : Item) {s : State} (hfit : s.r.pos + x.size < s.endPos)
    (hfield : s.streamField s.r.pos x.size = x.wire % 2 ^ x.size) :
    ∃ t, s.PassedBits t x.size ∧ exec x.reader s = .next (t.respond x.data) := by
  have hr := inv_of_fits hfit
  cases x with
  | bit b => exact exec_rdbit_of_streamField b hfit hfield
  | field n v => exact exec_rdbits_of_streamField n hfit hfield
  | bool b => exact exec_rdbit_of_streamField b hfit hfield
  | u32 v =>
    obtain ⟨hsize, hvalue⟩ := itemAt_of_streamField hfield
    obtain ⟨hanswers, -⟩ := rdu32AnswersItem s hr
    rw [hsize, hvalue] at hanswers
    exact hanswers hfit
  | i32 v =>
    obtain ⟨hsize, hvalue⟩ := itemAt_of_streamField hfield
    obtain ⟨hanswers, -⟩ := rdi32AnswersUnzigzagItem s hr
    rw [hsize, hvalue, unzigzag_zigzag] at hanswers
    exact hanswers hfit

/-! ## Runs of commands that must answer `OK` -/

theorem execAllOk_cons_respond {i : Instr} {s t : State} {v : Value} (is : List Instr) (h : exec i s = .next (t.respond v)) :
    execAllOk (i :: is) s = (execAllOk is (t.respond v)).map fun b => (v :: b.1, b.2) := by
  rw [execAllOk, execOk_respond h, Option.bind_some]

theorem execAllOk_cons_raise {i : Instr} {s t : State} {e : ErrorKind} (is : List Instr) (h : exec i s = .next (t.raise e)) :
    execAllOk (i :: is) s = none := by
  rw [execAllOk, execOk, h]; rfl

/-! ## Sequences of items on the stream -/

/-- How many bits of the stream a sequence of items takes. -/
def itemsSize (xs : List Item) : Nat := (xs.map Item.size).sum

theorem itemsSize_cons (x : Item) (xs : List Item) : itemsSize (x :: xs) = x.size + itemsSize xs := rfl

/-- From position `p` up the stream spells the items one after the other, each ending before the end of the buffer. -/
def State.HoldsItems (s : State) : Nat → List Item → Prop
  | _, [] => True
  | p, x :: xs =>
    p + x.size < s.endPos ∧ s.streamField p x.size = x.wire % 2 ^ x.size ∧ State.HoldsItems s (p + x.size) xs

/-- Where items stand depends only on the end of the buffer and on the stream from there up. -/
theorem holdsItems_congr {s t : State} (hend : t.endPos = s.endPos) (xs : List Item) (p : Nat)
    (hbits : ∀ j, p ≤ j → t.streamBit j = s.streamBit j) (h : s.HoldsItems p xs) : t.HoldsItems p xs := by
  induction xs generalizing p with
  | nil => trivial
  | cons x xs ih =>
    obtain ⟨hfit, hfield, hrest⟩ := h
    refine ⟨by rwa [hend], ?_, ih _ (fun j hj => hbits j (by omega)) hrest⟩
    rw [streamField_congr s t p x.size fun j hj _ => hbits j hj, hfield]

/-- `t` is a state after the items were written from state `s`: they stand from the write cursor up, and below it the stream is
as it was. -/
structure WroteItems (s t : State) (xs : List Item) : Prop where
  endPos : t.endPos = s.endPos
  r : t.r = s.r
  pos : t.w.pos = s.w.pos + itemsSize xs
  below : ∀ j, j < s.w.pos → t.streamBit j = s.streamBit j
  holds : t.HoldsItems s.w.pos xs

theorem wroteItems_nil (s : State) : WroteItems s s [] := ⟨rfl, rfl, rfl, fun _ _ => rfl, trivial⟩

/-- The write of an item that fitted, then the write of the others. -/
theorem wroteItems_cons {s t u : State} {x : Item} {xs : List Item} {v : Value} (hfit : s.w.pos + x.size < s.endPos)
    (h1 : s.WroteBits u x.wire x.size) (h2 : WroteItems (u.respond v) t xs) : WroteItems s t (x :: xs) := by
  have hfield := streamField_of_wroteBits h1 hfit
  have hagree := agreeOutside_of_wroteBits h1
  have hend := wroteBits_endPos h1
  obtain ⟨hframe, -, hmove⟩ := h1
  rw [if_pos hfit] at hmove
  obtain ⟨hend2, hr2, hpos2, hbelow2, hholds2⟩ := h2
  rw [respond_w, hmove] at hpos2 hbelow2 hholds2
  have hend' : t.endPos = s.endPos := hend2.trans hend
  refine ⟨hend', ?_, ?_, fun j hj => ?_, hfit.trans_eq hend'.symm, ?_, hholds2⟩
  · rw [hr2, respond_r, hframe]
  · rw [hpos2, itemsSize_cons, Nat.add_assoc]
  · rw [hbelow2 j (by omega), respond_streamBit, hagree j (.inl hj)]
  · rw [streamField_congr u t _ _ fun j _ hj => hbelow2 j hj, hfield]

/-- Writes that all answer `OK` leave their items on the stream. -/
theorem wroteItems_of_execAllOk {xs : List Item} {s t : State} {answers : List Value} (hw : s.w.inv s.totalSeg)
    (h : execAllOk (xs.map Item.writer) s = some (answers, t)) : WroteItems s t xs := by
  induction xs generalizing s answers with
  | nil => cases h; exact wroteItems_nil _
  | cons x xs ih =>
    obtain ⟨hfits, hends⟩ := exec_writer x hw
    rw [List.map_cons] at h
    rcases Nat.lt_or_ge (s.w.pos + x.size) s.endPos with hfit | hend
    · obtain ⟨u, hwrote, hnext⟩ := hfits hfit
      rw [execAllOk_cons_respond _ hnext, Option.map_eq_some_iff] at h
      obtain ⟨⟨rest, _⟩, hrest, ⟨⟩⟩ := h
      have hw' : u.w.inv u.totalSeg := by rw [wroteBits_totalSeg hwrote]; exact wroteBits_inv hwrote
      exact wroteItems_cons hfit hwrote (ih hw' hrest)
    · obtain ⟨u, -, hnext⟩ := hends hend
      rw [execAllOk_cons_raise _ hnext] at h
      cases h

/-- Items on the stream from the read cursor up are read in order, up to the end of the last. -/
theorem execAllOk_readers {xs : List Item} {s : State} (h : s.HoldsItems s.r.pos xs) :
    ∃ u, execAllOk (xs.map Item.reader) s = some (xs.map Item.data, u) ∧ u.w = s.w ∧ u.r.pos = s.r.pos + itemsSize xs := by
  induction xs generalizing s with
  | nil => exact ⟨s, rfl, rfl, rfl⟩
  | cons x xs ih =>
    obtain ⟨hfit, hfield, hrest⟩ := h
    obtain ⟨t, hpassed, hnext⟩ := exec_reader x hfit hfield
    have hbits := passedBits_streamBit hpassed
    have hend := passedBits_endPos hpassed
    obtain ⟨hframe, hmove⟩ := hpassed
    rw [if_pos hfit] at hmove
    have hholds : (t.respond x.data).HoldsItems t.r.pos xs := by
      rw [hmove]; exact holdsItems_congr (t := t.respond x.data) hend xs _ (fun j _ => hbits j) hrest
    obtain ⟨u, hrun, hkept, hpos⟩ := ih hholds
    refine ⟨u, ?_, ?_, ?_⟩
    · rw [List.map_cons, execAllOk_cons_respond _ hnext, hrun]; rfl
    · rw [hkept, respond_w, hframe]
    · rw [hpos, respond_r, hmove, itemsSize_cons, Nat.add_assoc]

/-! ## The obligation on sequences of items -/

/-- Settles O50: the writes leave the items on the stream, and the reads begin where the first of them stands. -/
theorem writtenItemsReadBack : Obligations.WrittenItemsReadBack := by
  intro xs s t answers hw hrw h
  obtain ⟨-, hr, hpos, -, hholds⟩ := wroteItems_of_execAllOk hw h
  have hstart : s.w.pos = t.r.pos := by rw [hr, hrw]
  rw [hstart] at hpos hholds
  obtain ⟨u, hrun, hkept, hend⟩ := execAllOk_readers hholds
  exact ⟨u, hrun, pos_inj (by rw [hend, hkept, hpos]), hkept⟩

end Sys2Proof.Machine
end

section
/-! SUPPORT. Proofs about the quantizer (43_quantizer.md R130 to R136). `Quantize` is decided on the exact product, whose magnitude
is the float's units times the factor over `2^149`; `Dequantize` is the rounding of a quotient within the normal range; and the float
commands are the signed integer commands with these conversions before and after. -/

namespace Sys2Proof.Machine

/-! ## Truncation toward zero -/

theorem truncRat_of_nonneg {y : Rat} (h : 0 ≤ y) : truncRat y = ⌊y⌋ := if_pos h

theorem truncRat_of_nonpos {y : Rat} (h : y ≤ 0) : truncRat y = -⌊-y⌋ := by
  rcases h.eq_or_lt with rfl | hneg
  · rw [truncRat_of_nonneg (le_refl 0), neg_zero, Int.floor_zero, neg_zero]
  · exact if_neg hneg.not_ge

theorem truncRat_neg (y : Rat) : truncRat (-y) = -truncRat y := by
  rcases le_total 0 y with h | h
  · rw [truncRat_of_nonpos (neg_nonpos.mpr h), truncRat_of_nonneg h, neg_neg]
  · rw [truncRat_of_nonneg (neg_nonneg.mpr h), truncRat_of_nonpos h, neg_neg]

/-- Truncation does not grow a magnitude and loses less than 1 of it (43_quantizer.md R136). -/
theorem abs_truncRat_le_and_abs_sub_lt (y : Rat) : |(truncRat y : Rat)| ≤ |y| ∧ |(truncRat y : Rat) - y| < 1 := by
  wlog h : 0 ≤ y generalizing y
  · obtain ⟨hle, hlt⟩ := this (-y) (by linarith)
    rw [truncRat_neg, Int.cast_neg, abs_neg, abs_neg] at hle
    rw [truncRat_neg, Int.cast_neg, neg_sub_neg, abs_sub_comm] at hlt
    exact ⟨hle, hlt⟩
  · have hfloor : (0 : Rat) ≤ ⌊y⌋ := by exact_mod_cast Int.floor_nonneg.mpr h
    have hle := Int.floor_le y
    have hlt := Int.lt_floor_add_one y
    rw [truncRat_of_nonneg h, abs_of_nonneg hfloor, abs_of_nonneg h, abs_sub_comm, abs_of_nonneg (by linarith)]
    exact ⟨hle, by linarith⟩

/-! ## The exact product -/

/-- The model's shift of the product, left or right, is the division of the float's units (43_quantizer.md R132). -/
theorem productMagnitude_eq_units (f : Value) (factor : Nat) : productMagnitude f factor = floatUnits f * factor / 2 ^ 149 := by
  have hscale : 1 ≤ floatScale f := le_max_right _ _
  simp only [productMagnitude, floatUnits, Nat.mul_right_comm _ (2 ^ _) factor]
  split
  · next h =>
    rw [show floatScale f - 1 = floatScale f - 150 + 149 by omega, pow_add, ← mul_assoc, Nat.mul_div_cancel _ (by positivity)]
  · next h =>
    rw [show 149 = 150 - floatScale f + (floatScale f - 1) by omega, pow_add, Nat.mul_div_mul_right _ _ (by positivity)]

theorem floatValue_mul_factor (f : Value) (factor : Nat) :
    floatValue f * factor = signFactor (floatSign f) * (((floatUnits f * factor : Nat) : Rat) / (2 ^ 149 : Nat)) := by
  rw [floatValue_eq_units]
  push_cast; ring

theorem truncRat_product (f : Value) (factor : Nat) :
    truncRat (floatValue f * factor) =
      if floatSign f then -(productMagnitude f factor : Int) else (productMagnitude f factor : Int) := by
  have hnonneg : 0 ≤ ((floatUnits f * factor : Nat) : Rat) / (2 ^ 149 : Nat) := by positivity
  have htrunc : truncRat (((floatUnits f * factor : Nat) : Rat) / (2 ^ 149 : Nat)) = productMagnitude f factor := by
    rw [truncRat_of_nonneg hnonneg, Rat.floor_natCast_div_natCast, productMagnitude_eq_units, Int.natCast_ediv]
  rw [floatValue_mul_factor]
  cases floatSign f with
  | false => rw [signFactor, if_neg Bool.false_ne_true, one_mul, htrunc]; rfl
  | true => rw [signFactor, if_pos rfl, neg_one_mul, truncRat_neg, htrunc]; rfl

/-! ## Quantize -/

/-- Settles O52: the model tests the two bounds the other way round. -/
theorem quantizeTruncatesExactProduct : Obligations.QuantizeTruncatesExactProduct := by
  refine fun f factor => ⟨fun hspecial => if_pos hspecial, fun hfinite => ?_⟩
  rw [quantize, if_neg hfinite, truncRat_product]
  simp only [← not_le, ← not_and_or, ite_not]

/-- `Quantize` is defined on a finite float whose truncated product is a signed 32-bit integer, and is that integer. -/
theorem quantize_eq_some_iff (f factor q : Value) :
    quantize f factor = some q ↔ ¬ floatSpecial f ∧ q.toInt = truncRat (floatValue f * factor.toNat) := by
  obtain ⟨hspecial, hfinite⟩ := quantizeTruncatesExactProduct f factor
  by_cases h : floatSpecial f
  · simp [hspecial h, h]
  · rw [hfinite h, Option.ite_none_right_eq_some, Option.some_inj]
    constructor
    · rintro ⟨⟨hlo, hhi⟩, rfl⟩
      exact ⟨h, BitVec.toInt_ofInt_eq_self (by decide) hlo (by omega)⟩
    · rintro ⟨-, hq⟩
      have hlo := BitVec.le_toInt q
      have hhi := BitVec.toInt_lt (x := q)
      rw [← hq]
      exact ⟨by omega, BitVec.ofInt_toInt⟩

theorem signFactor_not (b : Bool) : signFactor (!b) = -signFactor b := by
  cases b <;> norm_num [signFactor]

/-- Flipping bit 31 changes the sign and neither the exponent nor the fraction (43_quantizer.md R130). -/
theorem floatValue_flipSign (f : Value) :
    floatExponent (f ^^^ 0x80000000) = floatExponent f ∧ floatValue (f ^^^ 0x80000000) = -floatValue f := by
  have hsign : floatSign (f ^^^ 0x80000000) = !floatSign f := by simp [floatSign]
  have hexponent : floatExponent (f ^^^ 0x80000000) = floatExponent f := by simp [floatExponent, BitVec.extractLsb'_xor]
  have hfraction : floatFraction (f ^^^ 0x80000000) = floatFraction f := by simp [floatFraction, BitVec.extractLsb'_xor]
  have hunits : floatUnits (f ^^^ 0x80000000) = floatUnits f := by
    simp only [floatUnits, floatSignificand, floatScale, hexponent, hfraction]
  rw [floatValue_eq_units, floatValue_eq_units, hunits, hsign, signFactor_not, neg_mul, neg_mul]
  exact ⟨hexponent, rfl⟩

/-- Settles O53: truncation is odd. -/
theorem quantizeIsOdd : Obligations.QuantizeIsOdd := by
  intro f factor q hq hmin
  obtain ⟨hfinite, hvalue⟩ := (quantize_eq_some_iff f factor q).mp hq
  obtain ⟨hexponent, hneg⟩ := floatValue_flipSign f
  refine (quantize_eq_some_iff _ factor (-q)).mpr ⟨by rwa [floatSpecial, hexponent], ?_⟩
  rw [hneg, neg_mul, truncRat_neg, ← hvalue]
  exact BitVec.toInt_neg_of_ne_intMin hmin

theorem toNat_pos_of_ne_zero {v : Value} (h : v ≠ 0) : 0 < v.toNat := Nat.pos_of_ne_zero (BitVec.toNat_ne.mp h)

/-- Settles O54: what truncation loses of the product, divided by the factor. -/
theorem quantizeLosesLessThanOneStep : Obligations.QuantizeLosesLessThanOneStep := by
  intro f factor q hfactor hq
  obtain ⟨-, hvalue⟩ := (quantize_eq_some_iff f factor q).mp hq
  obtain ⟨hle, hlt⟩ := abs_truncRat_le_and_abs_sub_lt (floatValue f * factor.toNat)
  have hpos : (0 : Rat) < factor.toNat := by exact_mod_cast toNat_pos_of_ne_zero hfactor
  rw [← hvalue] at hle hlt
  refine ⟨hle, ?_⟩
  rw [div_sub' hpos.ne', abs_div, abs_of_pos hpos, mul_comm]
  exact div_lt_div_of_pos_right hlt hpos

/-! ## Dequantize -/

/-- A quotient within the normal range is rounded to a normal number: the steps of the smallest size already fill a binade. -/
theorem floatExponent_roundFloat (b : Bool) {n d : Nat} (hd : 0 < d) (hmin : (2 : Rat) ^ (-126 : Int) ≤ (n : Rat) / d)
    (hfin : (n : Rat) / d ≤ maxFinite) : 1 ≤ floatExponent (roundFloat b n d) ∧ floatExponent (roundFloat b n d) ≤ 254 := by
  obtain ⟨E, k, hmag, hlt, -, hE, hk, -⟩ := roundMagnitude_spec hd hfin
  have hsteps : E = 0 → 2 ^ 23 ≤ k := by
    rintro rfl
    refine hk.ge ?_
    rw [stepsOf, pow_zero, div_one]
    calc ((2 ^ 23 : Nat) : Rat)
      _ = (2 : Rat) ^ (-126 : Int) * 2 ^ 149 := by norm_num
      _ ≤ (n : Rat) / d * 2 ^ 149 := by gcongr
  rw [roundFloat_eq, hmag, floatExponent_signedPattern b (by omega)]
  omega

theorem toInt_eq_signFactor (q : Value) : (q.toInt : Rat) = signFactor q.msb * (q.toInt.natAbs : Rat) := by
  rw [BitVec.msb_eq_toInt, Nat.cast_natAbs, Int.cast_abs, signFactor]
  by_cases h : q.toInt < 0
  · rw [if_pos (decide_eq_true h), abs_of_neg (by exact_mod_cast h), neg_one_mul, neg_neg]
  · rw [if_neg (by simpa using h), abs_of_nonneg (by exact_mod_cast not_lt.mp h), one_mul]

/-- The quotients of `Dequantize` lie between `2^(-32)` and `2^31` (43_quantizer.md R133). -/
theorem quotient_bounds {q factor : Value} (hq : q ≠ 0) (hfactor : factor ≠ 0) :
    (2 : Rat) ^ (-32 : Int) ≤ (q.toInt.natAbs : Rat) / factor.toNat ∧ (q.toInt.natAbs : Rat) / factor.toNat ≤ 2 ^ 31 := by
  have hlo := BitVec.le_toInt q
  have hhi := BitVec.toInt_lt (x := q)
  have hne : q.toInt ≠ 0 := BitVec.toInt_ne.mpr hq
  have hone : (1 : Rat) ≤ q.toInt.natAbs := by exact_mod_cast Int.natAbs_pos.mpr hne
  have hmax : (q.toInt.natAbs : Rat) ≤ 2 ^ 31 := by exact_mod_cast (by omega : q.toInt.natAbs ≤ 2 ^ 31)
  have hfactor1 : (1 : Rat) ≤ factor.toNat := by exact_mod_cast toNat_pos_of_ne_zero hfactor
  have hfactor32 : (factor.toNat : Rat) ≤ 2 ^ 32 := by exact_mod_cast factor.isLt.le
  constructor
  · calc (2 : Rat) ^ (-32 : Int)
      _ = 1 / 2 ^ 32 := by norm_num
      _ ≤ (q.toInt.natAbs : Rat) / factor.toNat := by gcongr
  · exact (div_le_self (by positivity) hfactor1).trans hmax

/-- Settles O55: `Dequantize` rounds a quotient of the normal range once (`roundFloat_nearest`). -/
theorem dequantizeIsNearestEven : Obligations.DequantizeIsNearestEven := by
  refine fun q factor hfactor => ⟨fun hzero => if_pos hzero, fun hq => ?_⟩
  obtain ⟨hlo, hhi⟩ := quotient_bounds hq hfactor
  have hd := toNat_pos_of_ne_zero hfactor
  have hmin : (2 : Rat) ^ (-126 : Int) ≤ (q.toInt.natAbs : Rat) / factor.toNat := le_trans (by norm_num) hlo
  have hfin : (q.toInt.natAbs : Rat) / factor.toNat ≤ maxFinite := hhi.trans (by norm_num [maxFinite])
  have hx : (q.toInt : Rat) / factor.toNat = signFactor q.msb * ((q.toInt.natAbs : Rat) / factor.toNat) := by
    rw [toInt_eq_signFactor, mul_div_assoc]
  have hround : dequantize q factor = roundFloat q.msb q.toInt.natAbs factor.toNat := if_neg hq
  obtain ⟨h1, h254⟩ := floatExponent_roundFloat q.msb hd hmin hfin
  rw [hround]
  exact ⟨h1, h254, fun g _ => roundFloat_nearest q.msb hd hx hfin g⟩

/-! ## The commands -/

theorem powerOfTen_eq (n : Nat) : powerOfTen n = 10 ^ n := by
  induction n with
  | zero => rfl
  | succ n ih => rw [powerOfTen, ih, pow_succ]

theorem exec_setprec_defined {places : BitVec 4} (s : State) (h : places.toNat ≤ placesMax) :
    exec (.setprec places) s = .next (State.respond { s with factor := BitVec.ofNat 32 (10 ^ places.toNat) } 0) := by
  rw [← powerOfTen_eq]
  exact if_pos h

theorem exec_setprec_overflow {places : BitVec 4} (s : State) (h : placesMax < places.toNat) :
    exec (.setprec places) s = .next (s.drawFactor.respond 0) := if_neg (Nat.not_le.mpr h)

theorem quantized_of_some {f q : Value} {s : State} (h : quantize f s.factor = some q) : s.quantized f = (s, q) := by
  rw [State.quantized, h]

theorem quantized_of_none {f : Value} {s : State} (h : quantize f s.factor = none) :
    s.quantized f = ({ s with draws := s.draws + 1 }, Config.freeQuantized s.draws) := by
  rw [State.quantized, h]

section
variable {s : State}

/-- WRF32 of a configured block is WRI32 of the quantized float (43_quantizer.md R134, R137). -/
theorem exec_wrf32 (f : Value) (h : s.factor ≠ 0) : exec (.wrf32 f) s = exec (.wri32 (s.quantized f).2) (s.quantized f).1 :=
  if_neg h

theorem exec_wrf32_of_quantize {f q : Value} (h : s.factor ≠ 0) (hq : quantize f s.factor = some q) :
    exec (.wrf32 f) s = exec (.wri32 q) s := by
  rw [exec_wrf32 f h, quantized_of_some hq]

theorem exec_rdf32_unset (h : s.factor = 0) : exec .rdf32 s = .next (s.raise .precisionNotConfigured) := if_pos h

theorem exec_rdf32 (h : s.factor ≠ 0) :
    exec .rdf32 s = (s.decodeU32.andThen fun t u => .done t (dequantize (unzigzag u) s.factor)).finish := if_neg h

/-- The two ways in which RDF32 of a configured block can end. -/
theorem exec_rdf32_stopsAtEnd (h : s.factor ≠ 0) (hr : s.r.inv s.totalSeg) :
    (s.r.pos + s.itemBitsAt s.r.pos < s.endPos →
      ∃ t, s.PassedBits t (s.itemBitsAt s.r.pos) ∧
        exec .rdf32 s = .next (t.respond (dequantize (unzigzag (s.itemAt s.r.pos)) s.factor))) ∧
    (s.endPos ≤ s.r.pos + s.itemBitsAt s.r.pos →
      ∃ t, s.PassedBits t (s.itemBitsAt s.r.pos) ∧ exec .rdf32 s = .next (t.raise .bufferExhausted)) := by
  rw [exec_rdf32 h]
  exact finish_of_stopsAtEnd (stopsAtEnd_andThen_done (fun u => dequantize (unzigzag u) s.factor) (stopsAtEnd_decodeU32 hr))

end

/-- Settles O51: the ten defined factors fit 32 bits. -/
theorem setprecSetsPowerOfTen : Obligations.SetprecSetsPowerOfTen := by
  refine fun places s => ⟨fun h => ⟨_, exec_setprec_defined s h, rfl, ?_⟩, fun h => ⟨_, exec_setprec_overflow s h, rfl⟩⟩
  have hfits : 10 ^ places.toNat ≤ 10 ^ 9 := Nat.pow_le_pow_right (by decide) h
  exact Nat.mod_eq_of_lt (by omega)

/-- Settles O56: WRF32 is WRI32 of the quantized float. -/
theorem wrf32StoresQuantizedItem : Obligations.Wrf32StoresQuantizedItem := by
  intro f q s hw hfactor hq
  rw [exec_wrf32_of_quantize hfactor hq]
  exact wri32StoresZigzagItem q s hw

/-- Settles O57: WRF32 is WRI32 of the free integer, after the draw. -/
theorem wrf32GoesOnWithUnspecifiedInteger : Obligations.Wrf32GoesOnWithUnspecifiedInteger := by
  intro f s hw hfactor hq
  obtain ⟨hfits, hends⟩ := wri32StoresZigzagItem (Config.freeQuantized s.draws) { s with draws := s.draws + 1 } hw
  rw [exec_wrf32 f hfactor, quantized_of_none hq]
  refine ⟨Config.freeQuantized s.draws, s.draws + 1, ?_⟩
  split
  · next hfit => exact hfits hfit
  · next hend => exact hends (Nat.not_lt.mp hend)

/-- Settles O58: RDF32 of a configured block reads as RDU32 does and converts the value. -/
theorem rdf32AnswersQuotient : Obligations.Rdf32AnswersQuotient :=
  fun _ => ⟨exec_rdf32_unset, fun hfactor hr => (exec_rdf32_stopsAtEnd hfactor hr).1,
    fun hfactor hr => (exec_rdf32_stopsAtEnd hfactor hr).2⟩

/-- Where the stream spells the item of `q` before the end of the buffer, RDF32 answers the quotient of `q`. -/
theorem exec_rdf32_of_streamField {q : Value} {s : State} (hfactor : s.factor ≠ 0)
    (hfit : s.r.pos + itemBits (zigzag q) < s.endPos)
    (hfield : s.streamField s.r.pos (itemBits (zigzag q)) = wireItem (zigzag q) % 2 ^ itemBits (zigzag q)) :
    ∃ t, s.PassedBits t (itemBits (zigzag q)) ∧ exec .rdf32 s = .next (t.respond (dequantize q s.factor)) := by
  obtain ⟨hsize, hvalue⟩ := itemAt_of_streamField hfield
  obtain ⟨hanswers, -⟩ := exec_rdf32_stopsAtEnd hfactor (inv_of_fits hfit)
  rw [hsize, hvalue, unzigzag_zigzag] at hanswers
  exact hanswers hfit

/-- Settles O59: the item that WRF32 leaves is read from where it stands, with the same factor. -/
theorem floatReadsBackQuantized : Obligations.FloatReadsBackQuantized := by
  intro f q s hw hrw hfactor hq hfit
  obtain ⟨hfits, -⟩ := wrf32StoresQuantizedItem f q s hw hfactor hq
  obtain ⟨t, hwrote, hwrite⟩ := hfits hfit
  have hitem : WroteItems s (t.respond 0) [.i32 q] := wroteItems_cons hfit hwrote (wroteItems_nil _)
  obtain ⟨-, hr, hpos, -, (hfit' : s.w.pos + itemBits (zigzag q) < _), hfield, -⟩ := hitem
  obtain ⟨hframe, -⟩ := hwrote
  have hkeptFactor : (t.respond 0).factor = s.factor := by rw [respond_factor, hframe]
  have hstart : s.w = (t.respond 0).r := by rw [hr, hrw]
  rw [hstart] at hpos hfit' hfield
  obtain ⟨u, ⟨hkept, hmove⟩, hread⟩ := exec_rdf32_of_streamField (hkeptFactor.trans_ne hfactor) hfit' hfield
  rw [hkeptFactor] at hread
  rw [if_pos hfit'] at hmove
  have hw' : u.w = (t.respond 0).w := by rw [hkept]
  refine ⟨t.respond 0, u.respond (dequantize q s.factor), execOk_respond hwrite, execOk_respond hread, pos_inj ?_, hw'⟩
  rw [respond_r, respond_w, hw', hpos, hmove]
  rfl

end Sys2Proof.Machine
end

section
/-! SUPPORT. Proofs about the errors of commands (60_exceptions.md R150 to R160). Every command of the stream is one bit access
through the cursor of its side, which can raise only `BufferExhausted` and only with that cursor at the end; every other error is
raised before anything is done. How a command that answers an error can have ended is said once, in `exec_failure`. -/

namespace Sys2Proof.Machine

/-! ## Bit accesses through a cursor -/

/-- The part `x` of a command from `s` accesses bits through cursor `c`: exhausted, that cursor ends it before anything is done
(41_bitcursor.md R90), and well placed, it can raise only `BufferExhausted` and then stands at the end (R97). -/
structure BitAccess {α : Type} (c : State → Cursor) (s : State) (x : Result α) : Prop where
  exhausted : (c s).exhausted s.totalSeg → x = .raised s .bufferExhausted
  ended : (c s).inv s.totalSeg → ∀ t e, x = .raised t e → e = .bufferExhausted ∧ c t = ⟨s.totalSeg, 0#6⟩

section
variable {α β : Type} {c : State → Cursor} {s : State}

/-- A part that stops at the end of the buffer, where every state it can stop in has the cursor there. -/
theorem bitAccess_of_stopsAtEnd {x : Result α} {P : State → Prop} {p e : Nat} {v : α}
    (hx : (c s).exhausted s.totalSeg → x = .raised s .bufferExhausted)
    (hstop : (c s).inv s.totalSeg → x.StopsAtEnd P p e v)
    (hP : ∀ t, P t → ¬ p < e → c t = ⟨s.totalSeg, 0#6⟩) : BitAccess c s x := by
  refine ⟨hx, fun hc t e ht => ?_⟩
  obtain ⟨u, hu, hresult⟩ := hstop hc
  rw [hresult] at ht
  split at ht
  · cases ht
  · next hend => cases ht; exact ⟨rfl, hP _ hu hend⟩

/-- Converting the value moved raises nothing. -/
theorem bitAccess_andThen_done {x : Result α} (f : α → β) (h : BitAccess c s x) :
    BitAccess c s (x.andThen fun t v => .done t (f v)) := by
  refine ⟨fun hx => by rw [h.exhausted hx, andThen_raised], fun hc t e ht => ?_⟩
  cases x with
  | done u v => cases ht
  | raised u e' => cases ht; exact h.ended hc _ _ rfl

/-- Well placed or not, the cursor lets an access raise `BufferExhausted` only: one that is not well placed is exhausted. -/
theorem BitAccess.raised {x : Result α} {t : State} {e : ErrorKind} (h : BitAccess c s x) (hraised : x = .raised t e) :
    e = .bufferExhausted ∧ ((c s).inv s.totalSeg → c t = ⟨s.totalSeg, 0#6⟩) := by
  by_cases hx : (c s).exhausted s.totalSeg
  · have hsame := (h.exhausted hx).symm.trans hraised
    cases hsame
    exact ⟨rfl, fun hc => eq_end_of_exhausted hc hx⟩
  · obtain ⟨he, hend⟩ := h.ended (inv_of_not_exhausted hx) t e hraised
    exact ⟨he, fun _ => hend⟩

/-- Where the move reaches the end, the write cursor is at the end (41_bitcursor.md R97). -/
theorem wroteBits_end {t : State} {bits n : Nat} (h : s.WroteBits t bits n) (hend : ¬ s.w.pos + n < s.endPos) :
    t.w = ⟨s.totalSeg, 0#6⟩ := by
  obtain ⟨-, -, hmove⟩ := h
  rwa [if_neg hend] at hmove

theorem passedBits_end {t : State} {n : Nat} (h : s.PassedBits t n) (hend : ¬ s.r.pos + n < s.endPos) :
    t.r = ⟨s.totalSeg, 0#6⟩ := by
  obtain ⟨-, hmove⟩ := h
  rwa [if_neg hend] at hmove

end

section
variable (s : State)

theorem bitAccess_writeBit (b : BitVec 1) : BitAccess State.w s (s.writeBit b) :=
  bitAccess_of_stopsAtEnd (writeBit_exhausted s b) (stopsAtEnd_writeBit b) fun _ => wroteBits_end

theorem bitAccess_writeBits (v : Value) {n : Nat} (h1 : 1 ≤ n) (hn : n ≤ 32) : BitAccess State.w s (s.writeBits v n) :=
  bitAccess_of_stopsAtEnd (writeBits_exhausted s v n) (fun hw => stopsAtEnd_writeBits v hw h1 hn) fun _ => wroteBits_end

theorem bitAccess_encodeU32 (v : Value) : BitAccess State.w s (s.encodeU32 v) :=
  bitAccess_of_stopsAtEnd (encodeU32_exhausted s v) (stopsAtEnd_encodeU32 v) fun _ => wroteBits_end

theorem bitAccess_readBit : BitAccess State.r s s.readBit :=
  bitAccess_of_stopsAtEnd (readBit_exhausted s) stopsAtEnd_readBit fun _ => passedBits_end

theorem bitAccess_readBits {n : Nat} (h1 : 1 ≤ n) (hn : n ≤ 32) : BitAccess State.r s (s.readBits n) :=
  bitAccess_of_stopsAtEnd (readBits_exhausted s n) (fun hr => stopsAtEnd_readBits hr h1 hn) fun _ => passedBits_end

theorem bitAccess_decodeU32 : BitAccess State.r s s.decodeU32 :=
  bitAccess_of_stopsAtEnd (decodeU32_exhausted s) stopsAtEnd_decodeU32 fun _ => passedBits_end

end

/-! ## Commands of the stream as bit accesses -/

/-- The command does not stop for a factor that is not configured (60_exceptions.md R154). -/
abbrev FactorReady (i : Instr) (s : State) : Prop := s.factor ≠ 0 ∨ .precisionNotConfigured ∉ raisable i

/-- The outcome `o` is that of a command which is one bit access through cursor `c`. -/
def EndsBitAccess (c : State → Cursor) (s : State) (o : Host.Outcome State Fault Refusal) : Prop :=
  ∃ x : Result Value, o = x.finish ∧ BitAccess c s x

section
variable {c : State → Cursor} {s : State}

theorem endsBitAccess_finish {x : Result Value} (h : BitAccess c s x) : EndsBitAccess c s x.finish := ⟨x, rfl, h⟩

theorem endsBitAccess_finish_andThen {α : Type} {x : Result α} (f : α → Value) (h : BitAccess c s x) :
    EndsBitAccess c s (x.andThen fun t v => .done t (f v)).finish :=
  endsBitAccess_finish (bitAccess_andThen_done f h)

theorem endsBitAccess_finishUnit {x : Result Unit} (h : BitAccess c s x) : EndsBitAccess c s x.finishUnit := by
  rw [finishUnit_eq_finish]
  exact endsBitAccess_finish_andThen (fun _ => 0#32) h

/-- The entry guard decides the outcome (41_bitcursor.md R90). -/
theorem EndsBitAccess.eq_raise {o : Host.Outcome State Fault Refusal} (h : EndsBitAccess c s o)
    (hx : (c s).exhausted s.totalSeg) : o = .next (s.raise .bufferExhausted) := by
  obtain ⟨x, rfl, haccess⟩ := h
  rw [haccess.exhausted hx, finish_raised]

end

/-- A command that needs a factor is ready only where the factor is configured. -/
theorem FactorReady.factor_ne_zero {i : Instr} {s : State} (h : FactorReady i s) (hi : .precisionNotConfigured ∈ raisable i) :
    s.factor ≠ 0 := h.resolve_right (not_not_intro hi)

theorem exec_wrf32_unset {f : Value} {s : State} (h : s.factor = 0) :
    exec (.wrf32 f) s = .next (s.raise .precisionNotConfigured) := if_pos h

/-- With `FACTOR = 0` the commands that need a factor raise `PrecisionNotConfigured` before anything else (R154). -/
theorem exec_of_factor_eq_zero {i : Instr} {s : State} (h : s.factor = 0) (hi : .precisionNotConfigured ∈ raisable i) :
    exec i s = .next (s.raise .precisionNotConfigured) := by
  cases i with
  | wrf32 f => exact exec_wrf32_unset h
  | rdf32 => exact exec_rdf32_unset h
  | _ => simp [raisable] at hi

/-- A write-side command is one bit access through `W`, after a draw perhaps (log entry 6). -/
theorem endsBitAccess_writer {i : Instr} {s : State} (hi : isWriter i = true) (hf : FactorReady i s) :
    ∃ draws, EndsBitAccess State.w { s with draws := draws } (exec i s) := by
  cases i with
  | wrbit b => exact ⟨s.draws, endsBitAccess_finishUnit (bitAccess_writeBit s b)⟩
  | wrbits n bits =>
    obtain ⟨h1, hn⟩ := fieldLength_bounds n
    exact ⟨s.draws, endsBitAccess_finishUnit (bitAccess_writeBits s bits h1 hn)⟩
  | wrbool b => exact ⟨s.draws, endsBitAccess_finishUnit (bitAccess_writeBit s b)⟩
  | wru32 v => exact ⟨s.draws, endsBitAccess_finishUnit (bitAccess_encodeU32 s v)⟩
  | wri32 v => exact ⟨s.draws, endsBitAccess_finishUnit (bitAccess_encodeU32 s (zigzag v))⟩
  | wrf32 f =>
    rw [exec_wrf32 f (hf.factor_ne_zero (List.mem_cons_self ..))]
    refine ⟨(s.quantized f).1.draws, ?_⟩
    rw [← quantized_frame]
    exact endsBitAccess_finishUnit (bitAccess_encodeU32 _ _)
  | _ => exact absurd hi Bool.false_ne_true

/-- A read-side command is one bit access through `R`. -/
theorem endsBitAccess_reader {i : Instr} {s : State} (hi : isReader i = true) (hf : FactorReady i s) :
    EndsBitAccess State.r s (exec i s) := by
  cases i with
  | rdbit => exact endsBitAccess_finish_andThen _ (bitAccess_readBit s)
  | rdbits n =>
    obtain ⟨h1, hn⟩ := fieldLength_bounds n
    exact endsBitAccess_finish (bitAccess_readBits s h1 hn)
  | rdbool => exact endsBitAccess_finish_andThen _ (bitAccess_readBit s)
  | rdu32 => exact endsBitAccess_finish (bitAccess_decodeU32 s)
  | rdi32 => exact endsBitAccess_finish_andThen _ (bitAccess_decodeU32 s)
  | rdf32 =>
    rw [exec_rdf32 (hf.factor_ne_zero (List.mem_cons_self ..))]
    exact endsBitAccess_finish_andThen _ (bitAccess_decodeU32 s)
  | _ => exact absurd hi Bool.false_ne_true

/-! ## How a command that answers an error can have ended -/

/-- Everything a command that answers error `e` can have done: nothing, or moved its own cursor to the end of the buffer. -/
inductive Failure (s : State) : Instr → ErrorKind → State → Prop where
  /-- An error the command is named for, raised before anything was done (60_exceptions.md R157). -/
  | refused {i : Instr} {e : ErrorKind} (he : e ∈ raisable i) (hne : e ≠ .bufferExhausted) : Failure s i e (s.raise e)
  /-- An RDSR that no legal command word carries (log entry 9). -/
  | noRegister {n : BitVec 8} (hwf : (Instr.rdsr n).wf = false) : Failure s (.rdsr n) .illegalCommand (s.raise .illegalCommand)
  /-- A write-side command that reached the end of the buffer, or began there. -/
  | writeEnded {i : Instr} {t : State} (hi : isWriter i = true) (hend : s.w.inv s.totalSeg → t.w = ⟨s.totalSeg, 0#6⟩) :
      Failure s i .bufferExhausted t
  /-- A read-side command that reached the end of the buffer, or began there. -/
  | readEnded {i : Instr} {t : State} (hi : isReader i = true) (hend : s.r.inv s.totalSeg → t.r = ⟨s.totalSeg, 0#6⟩) :
      Failure s i .bufferExhausted t

/-- If the outcome `o` of command `i` is an error, it is one of the failures the command can have. -/
def FailsOnlyAs (s : State) (i : Instr) (o : Host.Outcome State Fault Refusal) : Prop :=
  ∀ t e, o = .next t → t.response = some (.error e) → Failure s i e t

section
variable {s : State} {i : Instr}

/-- An answer of `OK` is no error. -/
theorem failsOnlyAs_respond (u : State) (v : Value) : FailsOnlyAs s i (.next (u.respond v)) := by
  rintro _ _ ⟨⟩ ⟨⟩

theorem failsOnlyAs_raise {e : ErrorKind} (h : Failure s i e (s.raise e)) : FailsOnlyAs s i (.next (s.raise e)) := by
  rintro _ _ ⟨⟩ ⟨⟩
  exact h

/-- The failures of a bit access, from what it means for the command that its cursor is at the end. -/
theorem failsOnlyAs_of_endsBitAccess {c : State → Cursor} {u : State} {o : Host.Outcome State Fault Refusal}
    (h : EndsBitAccess c u o)
    (hfail : ∀ t, ((c u).inv u.totalSeg → c t = ⟨u.totalSeg, 0#6⟩) → Failure s i .bufferExhausted (t.raise .bufferExhausted)) :
    FailsOnlyAs s i o := by
  obtain ⟨x, rfl, haccess⟩ := h
  cases hx : x with
  | done t v => exact failsOnlyAs_respond t v
  | raised t e =>
    obtain ⟨rfl, hend⟩ := haccess.raised hx
    rintro _ _ ⟨⟩ ⟨⟩
    exact hfail t hend

/-- A command that stops for the factor fails in that way only (R154). -/
theorem failsOnlyAs_of_not_factorReady (hf : ¬ FactorReady i s) : FailsOnlyAs s i (exec i s) := by
  obtain ⟨hfactor, hi⟩ := not_or.mp hf
  have hmem : .precisionNotConfigured ∈ raisable i := not_not.mp hi
  rw [exec_of_factor_eq_zero (not_not.mp hfactor) hmem]
  exact failsOnlyAs_raise (.refused hmem (by decide))

theorem failsOnlyAs_writer (hi : isWriter i = true) : FailsOnlyAs s i (exec i s) := by
  by_cases hf : FactorReady i s
  · obtain ⟨draws, haccess⟩ := endsBitAccess_writer hi hf
    exact failsOnlyAs_of_endsBitAccess haccess fun _ hend => .writeEnded hi hend
  · exact failsOnlyAs_of_not_factorReady hf

theorem failsOnlyAs_reader (hi : isReader i = true) : FailsOnlyAs s i (exec i s) := by
  by_cases hf : FactorReady i s
  · have haccess := endsBitAccess_reader hi hf
    exact failsOnlyAs_of_endsBitAccess haccess fun _ hend => .readEnded hi hend
  · exact failsOnlyAs_of_not_factorReady hf

end

/-- Only the numbers 0 to 5 name a register (10_state.md R17). -/
theorem gt_of_statusReg_eq_none {n : BitVec 8} (h : statusReg n = none) : 5 < n.toNat := by
  by_contra hle
  rw [statusReg] at h
  interval_cases n.toNat <;> cases h

section
variable (s : State)

theorem failsOnlyAs_create (cap : Value) : FailsOnlyAs s (.create cap) (exec (.create cap) s) := by
  by_cases hbad : segmentsFor cap = 0 ∨ s.maxSegments.toNat < segmentsFor cap
  · rw [exec_create_refused hbad]
    exact failsOnlyAs_raise (.refused (List.mem_singleton_self _) (by decide))
  · rw [exec_create_fitting (by omega) (by omega)]
    exact failsOnlyAs_respond _ _

theorem failsOnlyAs_setbuf (len : Value) : FailsOnlyAs s (.setbuf len) (exec (.setbuf len) s) := by
  by_cases hbad : len.toNat = 0 ∨ len.toNat % 8 ≠ 0 ∨ s.maxSegments.toNat < len.toNat / 8
  · rw [exec_setbuf_refused hbad]
    exact failsOnlyAs_raise (.refused (List.mem_singleton_self _) (by decide))
  · rw [exec_setbuf_conforming (by omega) (by omega) (by omega)]
    exact failsOnlyAs_respond _ _

theorem failsOnlyAs_bufrd (addr : Value) : FailsOnlyAs s (.bufrd addr) (exec (.bufrd addr) s) := by
  by_cases hin : s.inBuffer addr
  · rw [exec_bufrd_of_inBuffer hin]
    exact failsOnlyAs_respond _ _
  · rw [exec_bufrd_outside hin]
    exact failsOnlyAs_raise (.refused (List.mem_singleton_self _) (by decide))

theorem failsOnlyAs_bufwr (addr : Value) (byte : Byte) : FailsOnlyAs s (.bufwr addr byte) (exec (.bufwr addr byte) s) := by
  by_cases hin : s.inBuffer addr
  · rw [exec_bufwr_of_inBuffer byte hin]
    exact failsOnlyAs_respond _ _
  · rw [exec_bufwr_outside byte hin]
    exact failsOnlyAs_raise (.refused (List.mem_singleton_self _) (by decide))

theorem failsOnlyAs_rdsr (n : BitVec 8) : FailsOnlyAs s (.rdsr n) (exec (.rdsr n) s) := by
  cases hreg : statusReg n with
  | some sr =>
    rw [exec_rdsr_some s hreg]
    exact failsOnlyAs_respond _ _
  | none =>
    have hwf : (Instr.rdsr n).wf = false := decide_eq_false (Nat.not_le.mpr (gt_of_statusReg_eq_none hreg))
    rw [exec_rdsr_none s hreg]
    exact failsOnlyAs_raise (.noRegister hwf)

theorem failsOnlyAs_setprec (places : BitVec 4) : FailsOnlyAs s (.setprec places) (exec (.setprec places) s) := by
  by_cases hdefined : places.toNat ≤ placesMax
  · rw [exec_setprec_defined s hdefined]
    exact failsOnlyAs_respond _ _
  · rw [exec_setprec_overflow s (Nat.lt_of_not_le hdefined)]
    exact failsOnlyAs_respond _ _

theorem failsOnlyAs_exec (i : Instr) : FailsOnlyAs s i (exec i s) := by
  cases i with
  | create cap => exact failsOnlyAs_create s cap
  | setbuf len => exact failsOnlyAs_setbuf s len
  | bufrd addr => exact failsOnlyAs_bufrd s addr
  | bufwr addr byte => exact failsOnlyAs_bufwr s addr byte
  | bytecnt => exact failsOnlyAs_respond _ _
  | reset => exact failsOnlyAs_respond _ _
  | rdsr n => exact failsOnlyAs_rdsr s n
  | setprec places => exact failsOnlyAs_setprec s places
  | wrbit | wrbits | wrbool | wru32 | wri32 | wrf32 => exact failsOnlyAs_writer rfl
  | rdbit | rdbits | rdbool | rdu32 | rdi32 | rdf32 => exact failsOnlyAs_reader rfl

end

/-- The inversion of `exec` for errors: a command that answers an error has failed in one of its ways. -/
theorem exec_failure {i : Instr} {s t : State} {e : ErrorKind} (h : exec i s = .next t) (herr : t.response = some (.error e)) :
    Failure s i e t := failsOnlyAs_exec s i t e h herr

/-! ## What the commands of the stream keep -/

/-- The commands of both sides are named for `BufferExhausted` (R151, R153). -/
theorem bufferExhausted_mem_raisable {i : Instr} (hi : isWriter i = true ∨ isReader i = true) :
    .bufferExhausted ∈ raisable i := by
  cases i with
  | wrbit | wrbits | wrbool | wru32 | wri32 | rdbit | rdbits | rdbool | rdu32 | rdi32 => exact List.mem_singleton_self _
  | wrf32 | rdf32 => exact List.mem_cons_of_mem _ (List.mem_singleton_self _)
  | _ => exact absurd hi (by simp [isWriter, isReader])

/-- No command of the stream is one that `TOTALSEG` or `FACTOR` changes under (10_state.md R12, R16). -/
theorem totalSeg_and_factor_kept {i : Instr} {s t : State} (hi : isWriter i = true ∨ isReader i = true)
    (h : exec i s = .next t) : t.totalSeg = s.totalSeg ∧ t.factor = s.factor := by
  obtain ⟨htotal, hfactor, -⟩ := stateWrittenOnlyByNamedCommands i s t h
  refine ⟨htotal ?_ ?_, hfactor ?_⟩
  all_goals
    rintro _ rfl
    simp [isWriter, isReader] at hi

/-! ## The obligations -/

/-- Settles O8: the words outside the table are those the decoder rejects (O3). -/
theorem illegalWordChangesNothing : Obligations.IllegalWordChangesNothing := by
  intro s cw rest hin hillegal
  cases hd : decode cw with
  | ok i => exact absurd ((decodeAcceptsExactlyTheTable cw).mp ⟨i, hd⟩) (Bool.eq_false_iff.mp hillegal)
  | error e => exact step_command_error hin hd

/-- Settles O22, from the failures a command can have (`exec_failure`). -/
theorem errorsComeOnlyFromNamedCommands : Obligations.ErrorsComeOnlyFromNamedCommands := by
  intro i s t e hwf h herr
  cases exec_failure h herr with
  | refused he _ => exact he
  | noRegister hbad => exact absurd hwf (Bool.eq_false_iff.mp hbad)
  | writeEnded hi _ => exact bufferExhausted_mem_raisable (.inl hi)
  | readEnded hi _ => exact bufferExhausted_mem_raisable (.inr hi)

/-- Settles O23: only the failures at the end of the buffer come after something was done. -/
theorem preciseErrorsChangeNothing : Obligations.PreciseErrorsChangeNothing := by
  intro i s t e h herr hne
  cases exec_failure h herr with
  | refused | noRegister => rfl
  | writeEnded | readEnded => exact absurd rfl hne

/-- Settles O24: the failing cursor by `exec_failure`, what is kept by O17, O18 and O19. -/
theorem exhaustionLeavesCursorAtEnd : Obligations.ExhaustionLeavesCursorAtEnd := by
  intro i s t hw hr h herr
  cases exec_failure h herr with
  | refused _ hne => exact absurd rfl hne
  | writeEnded hi hend =>
    obtain ⟨htotal, hfactor⟩ := totalSeg_and_factor_kept (.inl hi) h
    obtain ⟨hread, -⟩ := writersIgnoreReadCursor i s t s.r hi h
    have hnotReader : ¬ isReader i = true := fun hreader =>
      absurd hi (Bool.eq_false_iff.mp (isWriter_eq_false_of_isReader hreader))
    exact ⟨htotal, hfactor, fun _ => ⟨hend hw, hread⟩, fun hreader => absurd hreader hnotReader⟩
  | readEnded hi hend =>
    obtain ⟨htotal, hfactor⟩ := totalSeg_and_factor_kept (.inr hi) h
    obtain ⟨hwrite, hram, -⟩ := readersIgnoreWriteCursor i s t s.w hi h
    have hnotWriter : ¬ isWriter i = true := Bool.eq_false_iff.mp (isWriter_eq_false_of_isReader hi)
    exact ⟨htotal, hfactor, fun hwriter => absurd hwriter hnotWriter, fun _ => ⟨hend hr, hwrite, hram⟩⟩

/-- Settles O25: the entry guard of the command's bit access raises before anything is done (R90). -/
theorem exhaustedCursorStaysExhausted : Obligations.ExhaustedCursorStaysExhausted := by
  intro i s hf
  refine ⟨fun hi hx => ?_, fun hi hx => ?_⟩
  · obtain ⟨draws, haccess⟩ := endsBitAccess_writer hi hf
    exact ⟨draws, haccess.eq_raise hx⟩
  · exact (endsBitAccess_reader hi hf).eq_raise hx

/-- Settles O26: the factor is tested first, and the factor that SETPREC sets is a power of ten (O51). -/
theorem floatCommandsNeedFactor : Obligations.FloatCommandsNeedFactor := by
  intro f places s hzero
  refine ⟨exec_wrf32_unset hzero, exec_rdf32_unset hzero, fun hplaces => ?_⟩
  obtain ⟨hdefined, -⟩ := setprecSetsPowerOfTen places s
  obtain ⟨t, hexec, -, hfactor⟩ := hdefined hplaces
  refine ⟨t, hexec, fun ht => ?_⟩
  rw [ht] at hfactor
  exact absurd hfactor.symm (pow_ne_zero _ (by decide))

end Sys2Proof.Machine
end

section
/-! SUPPORT. Proofs about the block with no buffer and no factor, as hardware reset leaves it, and that every step answers
(70_reset_and_hazards.md R170, R182). With `TOTALSEG = 0` no word lies below a cursor and no byte address is in the buffer, so
the guards that the commands test first decide every answer. -/

namespace Sys2Proof.Machine

/-! ## Every step answers -/

/-- Every command has a next state: `hasEffect_exec` without the effect. -/
theorem exec_answers (i : Instr) (s : State) : ∃ t, exec i s = .next t := by
  obtain ⟨t, ht, -⟩ := hasEffect_exec s i
  exact ⟨t, ht⟩

/-- Settles O13: a silent host, a hardware reset and an illegal word have a next state at once, a legal word by `exec_answers`. -/
theorem everyStepAnswers : Obligations.EveryStepAnswers := by
  intro s
  cases hin : s.inbox with
  | nil => exact ⟨_, step_silent hin⟩
  | cons e rest =>
    cases e with
    | hardwareReset => exact ⟨_, step_hardwareReset hin⟩
    | command cw =>
      cases hd : decode cw with
      | ok i => rw [step_command_ok hin hd]; exact exec_answers i _
      | error e => exact ⟨_, step_command_error hin hd⟩

/-! ## The guards where there is no buffer -/

theorem exhausted_of_no_buffer {total : SegIndex} (c : Cursor) (h : total = 0) : c.exhausted total := by
  rw [h]
  exact Nat.zero_le _

theorem not_inBuffer_of_no_buffer {s : State} (addr : Value) (h : s.totalSeg = 0) : ¬ s.inBuffer addr := by
  rw [State.inBuffer, h]
  exact Nat.not_lt_zero _

/-- A write-side command that needs no factor is one bit access through `W` with nothing drawn before it. -/
theorem endsBitAccess_writer_undrawn {i : Instr} {s : State} (hi : isWriter i = true)
    (hf : .precisionNotConfigured ∉ raisable i) : EndsBitAccess State.w s (exec i s) := by
  cases i with
  | wrbit b | wrbool b => exact endsBitAccess_finishUnit (bitAccess_writeBit s b)
  | wrbits n bits =>
    obtain ⟨h1, hn⟩ := fieldLength_bounds n
    exact endsBitAccess_finishUnit (bitAccess_writeBits s bits h1 hn)
  | wru32 v => exact endsBitAccess_finishUnit (bitAccess_encodeU32 s v)
  | wri32 v => exact endsBitAccess_finishUnit (bitAccess_encodeU32 s (zigzag v))
  | wrf32 f => exact absurd (List.mem_cons_self ..) hf
  | _ => exact absurd hi Bool.false_ne_true

/-- With no buffer both cursors are exhausted, so the entry guard of either side raises (41_bitcursor.md R90). -/
theorem exec_bit_command_of_no_buffer {i : Instr} {s : State} (htotal : s.totalSeg = 0)
    (hi : isWriter i = true ∨ isReader i = true) (hf : .precisionNotConfigured ∉ raisable i) :
    exec i s = .next (s.raise .bufferExhausted) := by
  cases hi with
  | inl hwriter => exact (endsBitAccess_writer_undrawn hwriter hf).eq_raise (exhausted_of_no_buffer s.w htotal)
  | inr hreader => exact (endsBitAccess_reader hreader (.inr hf)).eq_raise (exhausted_of_no_buffer s.r htotal)

/-! ## The status registers after hardware reset -/

/-- Every number up to 5 names a register (10_state.md R17). -/
theorem exists_statusReg_of_le {n : BitVec 8} (h : n.toNat ≤ 5) : ∃ sr, statusReg n = some sr := by
  cases hreg : statusReg n with
  | some sr => exact ⟨sr, rfl⟩
  | none => exact absurd h (Nat.not_le.mpr (gt_of_statusReg_eq_none hreg))

theorem readStatus_eq_zero {s : State} (htotal : s.totalSeg = 0) (hw : s.w = ⟨0, 0⟩) (hr : s.r = ⟨0, 0⟩)
    (hfactor : s.factor = 0) (sr : StatusReg) : s.readStatus sr = 0 := by
  cases sr with
  | totalSeg => rw [State.readStatus, htotal]; rfl
  | wSeg | wOff => rw [State.readStatus, hw]; rfl
  | rSeg | rOff => rw [State.readStatus, hr]; rfl
  | factor => exact hfactor

/-! ## The obligation on the block with no buffer -/

/-- Settles O12: the entry guards, the range check and the factor test raise; BYTECNT and RDSR read zeros. -/
theorem noBufferAnswers : Obligations.NoBufferAnswers := by
  intro s htotal hw hr hfactor
  have hbytecnt : exec .bytecnt s = .next (s.respond 1) := by rw [exec_bytecnt, hw]; rfl
  have hrdsr (n : BitVec 8) (hn : n.toNat ≤ 5) : exec (.rdsr n) s = .next (s.respond 0) := by
    obtain ⟨sr, hreg⟩ := exists_statusReg_of_le hn
    rw [exec_rdsr_some s hreg, readStatus_eq_zero htotal hw hr hfactor]
  exact ⟨fun _ => exec_bit_command_of_no_buffer htotal,
    fun addr => exec_bufrd_outside (not_inBuffer_of_no_buffer addr htotal),
    fun addr byte => exec_bufwr_outside byte (not_inBuffer_of_no_buffer addr htotal),
    fun _ => exec_wrf32_unset hfactor, exec_rdf32_unset hfactor, hbytecnt, hrdsr⟩

end Sys2Proof.Machine
end
